-- ==== Sys2Proof/Word.lean ====
section
/-! DEFINITION. The word types of the block (00_scope R9) and the plainest arithmetic on them. All values are unsigned. -/

namespace Sys2Proof

/-- A transport byte, a command code, a character code or a request argument (R9). -/
abbrev Byte := BitVec 8

/-- A nibble payload, or the control-line bitmask of a transport byte (R9, R12). -/
abbrev Nibble := BitVec 4

/-- A request word: opcode in bits 11:8, argument in bits 7:0 (R90). -/
abbrev ReqWord := BitVec 12

/-- A 7-bit bus address (R9, R50). -/
abbrev BusAddr := BitVec 7

/-- The STATUS register as the host reads it (R23). -/
abbrev StatusWord := BitVec 16

end Sys2Proof
end

