-- ==== Sys2Proof/Config.lean ====
section
/-! DEFINITION. The implementation parameters of 00_scope R5 and the free values the spec leaves open.
A free value is an opaque constant: nothing can be proved of what it is. -/

namespace Sys2Proof

/-- The parameter record `Cfg` of R5. Delays are lower bounds in microseconds (R111). -/
structure Cfg where
  lcdAddr  : BusAddr
  rsMask   : Nibble
  rwMask   : Nibble
  enMask   : Nibble
  blMask   : Nibble
  tSettle  : Nat
  tPowerOn : Nat
  tReset   : Nat
  tFinal   : Nat
  textMax  : Nat
  deriving DecidableEq, Repr

/-- A single bit of the low nibble of a transport byte. -/
abbrev IsMaskBit (m : Nibble) : Prop := m = 1#4 ∨ m = 2#4 ∨ m = 4#4 ∨ m = 8#4

/-- The constraints R5 puts on the parameters (four distinct single bits of the low nibble, TEXT_MAX in 0..62) and R111's
"none of the source's delays is zero". -/
abbrev Cfg.Wf (c : Cfg) : Prop :=
  (IsMaskBit c.rsMask ∧ IsMaskBit c.rwMask ∧ IsMaskBit c.enMask ∧ IsMaskBit c.blMask) ∧
  [c.rsMask, c.rwMask, c.enMask, c.blMask].Nodup ∧
  c.textMax ≤ 62 ∧
  (0 < c.tSettle ∧ 0 < c.tPowerOn ∧ 0 < c.tReset ∧ 0 < c.tFinal)

/-- The default masks, "value for this hardware" of R5, which every byte value written in the spec assumes. -/
abbrev Cfg.DefaultMasks (c : Cfg) : Prop :=
  c.rsMask = 0x1#4 ∧ c.rwMask = 0x2#4 ∧ c.enMask = 0x4#4 ∧ c.blMask = 0x8#4

/-- LCD_ADDR, which R5 leaves OPEN (D4): any 7-bit address. -/
opaque Config.lcdAddr : BusAddr

/-- The parameters of this hardware, the column "value for this hardware" of R5.
The masks are [from general knowledge, not in source] (D3, G1); a run keeps whatever its state holds. -/
def Config.hardware : Cfg where
  lcdAddr  := Config.lcdAddr
  rsMask   := 0x1#4
  rwMask   := 0x2#4
  enMask   := 0x4#4
  blMask   := 0x8#4
  tSettle  := 100
  tPowerOn := 50000
  tReset   := 5000
  tFinal   := 1000
  textMax  := 32

/-- Free value (I6): whether bus write number `n` is acknowledged. -/
opaque Config.busAcks : Nat → Bool

/-- Free value (R78, I14): whether the controller is still executing when write `n` makes it latch. -/
opaque Config.controllerLate : Nat → Bool

/-- Free value (R22, I5): what read number `n` of a never-written TEXT entry gives. -/
opaque Config.freeText : Nat → Byte

/-- Free value (R71, I7): the expander's pins after a failed or cut write. -/
opaque Config.freePins : Nat → Byte

/-- Free value (U1, U2, U4, U5, I14): the registers of a controller whose state is "any value", but for AC and DDRAM. -/
opaque Config.freeController : Nat → BitVec 13

/-- Free value (R70, R77, U1 to U5): the byte at a DDRAM address of a display memory that is "any value". -/
opaque Config.freeDdram : Nat → Nat → Byte

/-- Free value (R73): the controller's undriven low data lines in 8-bit mode. -/
opaque Config.freeLowLines : Nat → Nibble

/-- Free value (R70, R76): the address counter of a controller whose state is "any value", and where the spec states no next
value. -/
opaque Config.freeAc : Nat → Nat

end Sys2Proof
end

