-- ==== Sys2Proof/Machine/Actions.lean ====
section
/-! DEFINITION. The plain data of the executor: actions, answers, bus events, results, initialisation states and inputs. -/

namespace Sys2Proof.Machine

/-- The four delays of R5. -/
inductive DelayId where
  | settle
  | powerOn
  | reset
  | final
  deriving DecidableEq, Repr

/-- An action of a script (R27, R112). -/
inductive Action where
  | emit (b : Byte)
  | delay (d : DelayId)
  deriving DecidableEq, Repr

/-- What a bus write returns (R52). -/
inductive Answer where
  | ack
  | fail
  deriving DecidableEq, Repr

/-- What the environment draws for one bus write: its answer (R52), and whether the controller is still executing
if this write makes it latch (R78). -/
structure BusDraw where
  answer : Answer
  late   : Bool
  deriving DecidableEq, Repr

/-- A bus event of the observation (R8): a write to an address with its answer, or a delay, named by its bound; or a write cut by
reset, whose outcome is unknown (R231, log 15). -/
inductive Event where
  | write (a : BusAddr) (b : Byte) (r : Answer)
  | cutWrite (a : BusAddr) (b : Byte)
  | delay (d : DelayId)
  deriving DecidableEq, Repr

/-- STATUS.RESULT (R23, R200). -/
inductive Result where
  | ok
  | busError
  | refused
  deriving DecidableEq, Repr

/-- INIT_STATE (R28). -/
inductive InitState where
  | sPowerOn
  | sReset1
  | sReset2
  | sReset3
  | sFourBit
  | sFuncSet
  | sDispCtl
  | sClear
  | sEntry
  | sFinal
  | ready
  | failed
  deriving DecidableEq, Repr

/-- Where in the action a step would perform the assertion of `rst` strikes (R231). -/
inductive Strike where
  /-- Before the action begins, or during a DELAY, which is abandoned. -/
  | before
  /-- During the bus write of an EMIT. -/
  | inWrite
  /-- After the answer to an EMIT's bus write and before the EMIT ends: the settle delay is abandoned, no result is written. -/
  | inSettle
  deriving DecidableEq, Repr

/-- One sample of the reset input (R20, R230): released, or asserted, and if so where it strikes and whether the platform is
power-cycled with it. -/
inductive ResetIn where
  | run
  | hold (k : Strike) (powerCycle : Bool)
  deriving DecidableEq, Repr

/-- One move of the host at the block's ports (R20): nothing, a text write, a request word offered. -/
inductive HostIn where
  | idle
  | text (i : BitVec 6) (v : Byte)
  | request (w : ReqWord)
  deriving DecidableEq, Repr

/-- How much of the running script one step performs; R117 allows either. The model's own (log 19). -/
inductive Grain where
  /-- The action `SCRIPT[pc]`. -/
  | action
  /-- One CMD8 or NIB4 form where the script stands at one, the action `SCRIPT[pc]` elsewhere. -/
  | form
  deriving DecidableEq, Repr

end Sys2Proof.Machine
end

