-- ==== Sys2Proof/Machine/Flags.lean ====
section
/-! DEFINITION. The STATUS fields: their codes (R23), and INIT_STATE as a function of the script position (R161). -/

namespace Sys2Proof.Machine

/-- RESULT's code (R23). -/
def Result.code : Result → BitVec 2
  | .ok => 0b00#2
  | .busError => 0b01#2
  | .refused => 0b10#2

/-- STATUS.INIT's code (R23, R28). -/
def InitState.code : InitState → BitVec 2
  | .ready => 0b01#2
  | .failed => 0b10#2
  | .sPowerOn | .sReset1 | .sReset2 | .sReset3 | .sFourBit => 0b00#2
  | .sFuncSet | .sDispCtl | .sClear | .sEntry | .sFinal => 0b00#2

/-- Whether INIT is running: the ten states from S_POWERON to S_FINAL (R28). -/
def InitState.running : InitState → Bool
  | .ready | .failed => false
  | .sPowerOn | .sReset1 | .sReset2 | .sReset3 | .sFourBit => true
  | .sFuncSet | .sDispCtl | .sClear | .sEntry | .sFinal => true

/-- INIT_STATE at script position `pc` of INIT (R161). -/
def InitState.atPc (pc : Nat) : InitState :=
  if pc < 1 then .sPowerOn
  else if pc < 4 then .sReset1
  else if pc < 7 then .sReset2
  else if pc < 10 then .sReset3
  else if pc < 13 then .sFourBit
  else if pc < 17 then .sFuncSet
  else if pc < 21 then .sDispCtl
  else if pc < 25 then .sClear
  else if pc < 29 then .sEntry
  else .sFinal

/-- INIT_STATE once the script position is `pc`: it follows the position while INIT runs, and only then (R161). -/
def InitState.follow (i : InitState) (pc : Nat) : InitState := if i.running then .atPc pc else i

/-- INIT_STATE when an operation ends with `r`: INIT's end sets READY or FAILED, another operation's end nothing (R161, R113). -/
def InitState.atEnd (i : InitState) (r : Result) : InitState :=
  if i.running then (if r = .ok then .ready else .failed) else i

/-- The STATUS register from its fields: ERR_INDEX, 000, INIT, RESULT, BUSY (R23). -/
def statusWord (errIndex : Byte) (i : InitState) (r : Result) (busy : Bool) : StatusWord :=
  errIndex ++ 0b000#3 ++ i.code ++ r.code ++ BitVec.ofBool busy

/-- The lower bound of a delay in microseconds (R5, R111). -/
def DelayId.bound (c : Cfg) : DelayId → Nat
  | .settle => c.tSettle
  | .powerOn => c.tPowerOn
  | .reset => c.tReset
  | .final => c.tFinal

/-- The least time an event takes: a delay its bound; no time is stated for a bus write itself (R240). -/
def Event.atLeast (c : Cfg) : Event → Nat
  | .write _ _ _ | .cutWrite _ _ => 0
  | .delay d => d.bound c

/-- The least time a list of events takes (R239, R241). -/
def minTime (c : Cfg) (es : List Event) : Nat := (es.map (Event.atLeast c)).sum

end Sys2Proof.Machine
end

