-- ==== Sys2Proof/Syntax.lean ====
section
/-! DEFINITION. The operations and emitted forms of spec/opcode_table.json, one constructor a row. -/

namespace Sys2Proof

/-- One constructor per row of the opcode table (30_encoding R100). -/
inductive Instr where
  /-- REQ row LATCH_CMD (R133). -/
  | latchCmd (p : Nibble)
  /-- REQ row LATCH_DATA (R134). -/
  | latchData (p : Nibble)
  /-- REQ row SEND_CMD (R144). -/
  | sendCmd (c : Byte)
  /-- REQ row SEND_DATA (R145). -/
  | sendData (c : Byte)
  /-- REQ row RENDER (R181). -/
  | render (n : Byte)
  /-- TB row TB_CMD_HI (R83). -/
  | tbCmdHi (p : Nibble)
  /-- TB row TB_CMD_LO (R83). -/
  | tbCmdLo (p : Nibble)
  /-- TB row TB_DATA_HI (R83). -/
  | tbDataHi (p : Nibble)
  /-- TB row TB_DATA_LO (R83). -/
  | tbDataLo (p : Nibble)
  /-- CMD8 row FUNCTION_SET (R166). -/
  | functionSet
  /-- CMD8 row DISPLAY_CONTROL (R167). -/
  | displayControl
  /-- CMD8 row CLEAR_DISPLAY (R168). -/
  | clearDisplay
  /-- CMD8 row ENTRY_MODE (R169). -/
  | entryMode
  /-- CMD8 row SET_DDRAM_ROW2 (R183). -/
  | setDdramRow2
  /-- NIB4 row RESET_NIBBLE (R163). -/
  | resetNibble
  /-- NIB4 row FOURBIT_NIBBLE (R164). -/
  | fourbitNibble
  /-- RESET row INIT (R160). -/
  | init
  deriving DecidableEq, Repr

end Sys2Proof
end

