-- ==== Sys2Proof/WellFormed.lean ====
section
/-! DEFINITION. Which instructions the encodings admit. The operand types carry every other bound (a payload has 4 bits, a code 8). -/

namespace Sys2Proof

/-- RENDER's length is legal in 0..TEXT_MAX (R91); every other operand value is legal. -/
def Instr.wf (c : Cfg) : Instr → Bool
  | .render n => n.toNat ≤ c.textMax
  | .latchCmd _ | .latchData _ | .sendCmd _ | .sendData _ => true
  | .tbCmdHi _ | .tbCmdLo _ | .tbDataHi _ | .tbDataLo _ => true
  | .functionSet | .displayControl | .clearDisplay | .entryMode | .setDdramRow2 => true
  | .resetNibble | .fourbitNibble | .init => true

end Sys2Proof
end

