-- ==== Sys2Proof/Decode.lean ====
section
/-! DEFINITION. The encodings of 30_encoding.md: the decoder, total on every word, and the encoder written from the same tables. -/

namespace Sys2Proof

/-! ### The transport byte -/

/-- `Ctrl(rs)` of R81: backlight always set, register-select as asked, enable and read/write clear. -/
def ctrl (c : Cfg) (rs : Bool) : Nibble := c.blMask ||| (if rs then c.rsMask else 0#4)

/-- The low nibble of an emitted byte (R83). -/
def controlNibble (c : Cfg) (rs en : Bool) : Nibble := ctrl c rs ||| (if en then c.enMask else 0#4)

/-- `TB(p, rs, en)` of R81. -/
def transportByte (c : Cfg) (p : Nibble) (rs en : Bool) : Byte :=
  (p.zeroExtend 8 <<< 4) ||| (controlNibble c rs en).zeroExtend 8

/-- The payload of a transport byte, bits 7:4 (R80). -/
def payloadOf (b : Byte) : Nibble := b.extractLsb' 4 4

/-- The control-line bitmask of a transport byte, bits 3:0 (R80). -/
def controlOf (b : Byte) : Nibble := b.extractLsb' 0 4

/-! ### Words and rejections -/

/-- A word of one of the five formats of R100. `reset` is the release of `rst`, which has no word. -/
inductive TableWord where
  | req (w : ReqWord)
  | tb (b : Byte)
  | cmd8 (v : Byte)
  | nib4 (p : Nibble)
  | reset
  deriving DecidableEq, Repr

/-- Why a word is no instruction. The first three are R95's illegal request words. -/
inductive Reject where
  /-- OP is 0x0 or 0x6..0xF. -/
  | reservedOpcode
  /-- OP is 0x1 or 0x2 and ARG[7:4] is not 0. -/
  | latchArgument
  /-- OP is 0x5 and ARG is over TEXT_MAX. -/
  | renderTooLong
  /-- A byte whose low nibble is none of R83's four. -/
  | notATransportByte
  /-- A command code that is no row of R85. -/
  | notACommandRow
  /-- A payload that is no row of R85. -/
  | notAPayloadRow
  deriving DecidableEq, Repr

/-! ### The decoder -/

/-- `Decode(w)` of R96. -/
def decodeReq (c : Cfg) (w : ReqWord) : Except Reject Instr :=
  let op : Nibble := w.extractLsb' 8 4
  let arg : Byte := w.extractLsb' 0 8
  if op = 0x1#4 then
    if payloadOf arg = 0#4 then .ok (.latchCmd (controlOf arg)) else .error .latchArgument
  else if op = 0x2#4 then
    if payloadOf arg = 0#4 then .ok (.latchData (controlOf arg)) else .error .latchArgument
  else if op = 0x3#4 then .ok (.sendCmd arg)
  else if op = 0x4#4 then .ok (.sendData arg)
  else if op = 0x5#4 then
    if arg.toNat ≤ c.textMax then .ok (.render arg) else .error .renderTooLong
  else .error .reservedOpcode

/-- The four transport-byte forms (R83). -/
def decodeTb (c : Cfg) (b : Byte) : Except Reject Instr :=
  if controlOf b = controlNibble c false true then .ok (.tbCmdHi (payloadOf b))
  else if controlOf b = controlNibble c false false then .ok (.tbCmdLo (payloadOf b))
  else if controlOf b = controlNibble c true true then .ok (.tbDataHi (payloadOf b))
  else if controlOf b = controlNibble c true false then .ok (.tbDataLo (payloadOf b))
  else .error .notATransportByte

/-- The five command codes the block emits by itself (R85). -/
def decodeCmd8 (v : Byte) : Except Reject Instr :=
  if v = 0x28#8 then .ok .functionSet
  else if v = 0x0C#8 then .ok .displayControl
  else if v = 0x01#8 then .ok .clearDisplay
  else if v = 0x06#8 then .ok .entryMode
  else if v = 0xC0#8 then .ok .setDdramRow2
  else .error .notACommandRow

/-- The two single payloads (R85). -/
def decodeNib4 (p : Nibble) : Except Reject Instr :=
  if p = 0x3#4 then .ok .resetNibble
  else if p = 0x2#4 then .ok .fourbitNibble
  else .error .notAPayloadRow

/-- The decoder, total on the words of every format. -/
def decode (c : Cfg) : TableWord → Except Reject Instr
  | .req w => decodeReq c w
  | .tb b => decodeTb c b
  | .cmd8 v => decodeCmd8 v
  | .nib4 p => decodeNib4 p
  | .reset => .ok .init

/-! ### The encoder -/

/-- A request word from its opcode and argument (R90). -/
def reqWord (op : Nibble) (arg : Byte) : ReqWord := op ++ arg

/-- The word of an instruction, from R91, R83 and R85. -/
def encode (c : Cfg) : Instr → TableWord
  | .latchCmd p => .req (reqWord 0x1#4 (0#4 ++ p))
  | .latchData p => .req (reqWord 0x2#4 (0#4 ++ p))
  | .sendCmd v => .req (reqWord 0x3#4 v)
  | .sendData v => .req (reqWord 0x4#4 v)
  | .render n => .req (reqWord 0x5#4 n)
  | .tbCmdHi p => .tb (transportByte c p false true)
  | .tbCmdLo p => .tb (transportByte c p false false)
  | .tbDataHi p => .tb (transportByte c p true true)
  | .tbDataLo p => .tb (transportByte c p true false)
  | .functionSet => .cmd8 0x28#8
  | .displayControl => .cmd8 0x0C#8
  | .clearDisplay => .cmd8 0x01#8
  | .entryMode => .cmd8 0x06#8
  | .setDdramRow2 => .cmd8 0xC0#8
  | .resetNibble => .nib4 0x3#4
  | .fourbitNibble => .nib4 0x2#4
  | .init => .reset

/-! ### Words as the host numbers them -/

/-- Which format a numbered word of `nbits` bits has. The table says only a row's format, not how to tell
formats of one width apart, so an 8-bit word is read most specific row first: the CMD8 codes (mask 0xFF), then the
NIB4 payloads, then the TB forms (mask 0x0F). DESIGN CHOICE, log 20. -/
def tableWord (nbits w : Nat) : Option TableWord :=
  if nbits = 0 then some .reset
  else if nbits ≤ 4 then (if w < 16 then some (.nib4 (BitVec.ofNat 4 w)) else none)
  else if nbits ≤ 8 then
    if w < 256 then
      if w = 0x28 ∨ w = 0x0C ∨ w = 0x01 ∨ w = 0x06 ∨ w = 0xC0 then some (.cmd8 (BitVec.ofNat 8 w))
      else if w = 0x3 ∨ w = 0x2 then some (.nib4 (BitVec.ofNat 4 w))
      else some (.tb (BitVec.ofNat 8 w))
    else none
  else if w < 4096 then some (.req (BitVec.ofNat 12 w))
  else none

/-- The instruction the decoder reads from a numbered word, with this hardware's parameters. -/
def decodeTableWord (nbits w : Nat) : Option Instr :=
  match tableWord nbits w with
  | none => none
  | some t =>
    match decode Config.hardware t with
    | .ok i => some i
    | .error _ => none

end Sys2Proof
end

