-- ==== Sys2Proof/Machine/Memory.lean ====
section
/-! DEFINITION. Byte memory as a list of (address, byte) pairs in one canonical form: addresses strictly rising, and no entry
equal to what an unlisted address reads as. `d` is what an unlisted address reads as, `none` where it is any value. -/

namespace Sys2Proof.Machine

abbrev Memory := List Host.Cell

/-- The canonical form. -/
abbrev Memory.wf (d : Option Byte) (m : Memory) : Prop :=
  m.Pairwise (fun x y => x.1 < y.1) ∧ ∀ x ∈ m, some x.2 ≠ d

/-- The byte listed at an address. -/
def Memory.lookup (a : Nat) : Memory → Option Byte
  | [] => none
  | x :: m => if x.1 = a then some x.2 else Memory.lookup a m

/-- Reading a byte: the listed one, else what an unlisted address reads as. -/
def Memory.read (d : Option Byte) (m : Memory) (a : Nat) : Option Byte := (Memory.lookup a m).or d

def Memory.insert (a : Nat) (v : Byte) : Memory → Memory
  | [] => [(a, v)]
  | x :: m =>
    if a < x.1 then (a, v) :: x :: m
    else if a = x.1 then (a, v) :: m
    else x :: Memory.insert a v m

def Memory.erase (a : Nat) : Memory → Memory
  | [] => []
  | x :: m => if x.1 = a then m else x :: Memory.erase a m

/-- Writing a byte. -/
def Memory.write (d : Option Byte) (m : Memory) (a : Nat) (v : Byte) : Memory :=
  if some v = d then Memory.erase a m else Memory.insert a v m

end Sys2Proof.Machine
end

