-- ==== Sys2Proof/Machine/Lcd.lean ====
section
/-! DEFINITION. The reference model of the environment behind the bus, 20_memory section 5 (R70 to R78): the expander and the
controller. It is outside the block (00_scope R4) and nothing of it steers the block (R32). Passages marked [GK] are
[from general knowledge, not in source] in the spec. -/

namespace Sys2Proof.Machine

/-- The controller's interface mode (R70). -/
inductive IfMode where
  | eightBit
  | fourBit
  deriving DecidableEq, Repr

/-- The nibble phase, meaningful in 4-bit mode (R70). -/
inductive Phase where
  | high
  | low
  deriving DecidableEq, Repr

/-- What an unlisted DDRAM address reads as: a known byte, or free value number `n` of that address. -/
inductive Fill where
  | byte (v : Byte)
  | free (n : Nat)
  deriving DecidableEq, Repr

/-- The byte an unlisted address reads as, where it is known. -/
def Fill.known : Fill → Option Byte
  | .byte v => some v
  | .free _ => none

/-- The byte an unlisted address `a` reads as. -/
def Fill.byteAt (a : Nat) : Fill → Byte
  | .byte v => v
  | .free n => Config.freeDdram n a

/-- The controller's state (R70). DDRAM is `ddram` over `fill`, its canonical form that of `fill.known` (log 9). AC has no width in
the spec (log 10). -/
structure Controller where
  mode      : IfMode
  phase     : Phase
  hi        : Nibble
  ac        : Nat
  fill      : Fill
  ddram     : Memory
  twoLine   : Bool
  font5x8   : Bool
  displayOn : Bool
  cursorOn  : Bool
  blinkOn   : Bool
  increment : Bool
  shift     : Bool
  deriving DecidableEq, Repr

/-- The environment behind the bus. `executing`: an instruction begun may still be executing (R78).
`resetRuns` and `resetWait` count the recovery latches of R74: how many latches of payload 0x3, each followed by its wait,
came in a row, and whether the latest awaits its wait (log 11). -/
structure Lcd where
  pins      : Byte
  ctl       : Controller
  executing : Bool
  resetRuns : Nat
  resetWait : Bool
  deriving DecidableEq, Repr

/-- `DDRAM[a]` (R70). -/
def Controller.cell (k : Controller) (a : Nat) : Byte := (Memory.lookup a k.ddram).getD (k.fill.byteAt a)

/-- A controller whose every register and DDRAM byte is free value number `n`. -/
def Controller.free (n : Nat) : Controller :=
  let x := Config.freeController n
  { mode := if x.getLsbD 0 then .fourBit else .eightBit
    phase := if x.getLsbD 1 then .low else .high
    hi := x.extractLsb' 2 4
    ac := Config.freeAc n
    fill := .free n
    ddram := []
    twoLine := x.getLsbD 6
    font5x8 := x.getLsbD 7
    displayOn := x.getLsbD 8
    cursorOn := x.getLsbD 9
    blinkOn := x.getLsbD 10
    increment := x.getLsbD 11
    shift := x.getLsbD 12 }

/-! ### The command effects of R75 -/

/-- 0x28, "function-set: 4-bit, 2-line, 5x8 font" (R75). -/
def Controller.functionSet (k : Controller) : Controller :=
  { k with mode := .fourBit, twoLine := true, font5x8 := true }

/-- 0x0C, "display on, cursor off, blink off" (R75). -/
def Controller.displayControl (k : Controller) : Controller :=
  { k with displayOn := true, cursorOn := false, blinkOn := false }

/-- 0x01, "clear display": DDRAM address 0, and DDRAM filled with 0x20 [GK] (R75). -/
def Controller.clearDisplay (k : Controller) : Controller :=
  { k with ac := 0, fill := .byte 0x20#8, ddram := [] }

/-- 0x06, "entry mode: increment, no shift" (R75). -/
def Controller.entryMode (k : Controller) : Controller :=
  { k with increment := true, shift := false }

/-- 0xC0, "set DDRAM address to row-two start", address 0x40 [GK] (R75). -/
def Controller.setDdramRow2 (k : Controller) : Controller :=
  { k with ac := 0x40 }

/-- A command code executed; a code the block does not emit by itself leaves any value (R75, U4). -/
def Controller.command (n : Nat) (v : Byte) (k : Controller) : Controller :=
  if v = 0x28#8 then k.functionSet
  else if v = 0x0C#8 then k.displayControl
  else if v = 0x01#8 then k.clearDisplay
  else if v = 0x06#8 then k.entryMode
  else if v = 0xC0#8 then k.setDdramRow2
  else Controller.free n

/-- Storing a character at `DDRAM[AC]` (R76); past column 16 of row two every other byte of DDRAM, and so all the screen shows, is
any value (R77, U3, log 27). -/
def Controller.store (n : Nat) (v : Byte) (k : Controller) : Controller :=
  let k' := if k.ac < 0x50 then k else { k with fill := .free n, ddram := [] }
  { k' with ddram := Memory.write k'.fill.known k'.ddram k.ac v }

/-- The cursor's advance: `AC <- AC + 1` with entry mode 0x06, unstated otherwise (R76). -/
def Controller.advance (n : Nat) (k : Controller) : Controller :=
  if k.increment = true ∧ k.shift = false then { k with ac := k.ac + 1 }
  else { k with ac := Config.freeAc n }

/-- A character write (R76). -/
def Controller.character (n : Nat) (v : Byte) (k : Controller) : Controller := (k.store n v).advance n

/-- A whole byte executed with the register-select `rs` (R73, R75, R76). -/
def Controller.execByte (n : Nat) (rs : Bool) (v : Byte) (k : Controller) : Controller :=
  if rs then k.character n v else k.command n v

/-! ### The latch of R72 and R73 -/

/-- Line count and font as bits 3 and 2 of a function-set code select them: set for two lines, clear for the 5x8 font, as in 0x28
(R75; the bits' places are PRESUMED, log 14). -/
def Controller.lineAndFont (low : Nibble) (k : Controller) : Controller :=
  { k with twoLine := low.getLsbD 3, font5x8 := !low.getLsbD 2 }

/-- A latch in 8-bit mode: one whole instruction whose low lines are any value (R73). Payload 0x3 is the 8-bit-mode reset,
payload 0x2 selects 4-bit mode with the phase high [GK] (R74); line count and font ride on the undriven lines. Another code has its
effect of R75. -/
def Controller.latch8 (n : Nat) (rs : Bool) (d : Nibble) (k : Controller) : Controller :=
  let low := Config.freeLowLines n
  if rs then k.character n (d ++ low)
  else if d = 0x3#4 then { k.lineAndFont low with mode := .eightBit }
  else if d = 0x2#4 then { k.lineAndFont low with mode := .fourBit, phase := .high }
  else k.command n (d ++ low)

/-- A latch of a controller that is not executing, and whether it began an instruction (R73). -/
def Controller.latch (n : Nat) (rs : Bool) (d : Nibble) (k : Controller) : Controller × Bool :=
  match k.mode, k.phase with
  | .eightBit, _ => (k.latch8 n rs d, true)
  | .fourBit, .high => ({ k with hi := d, phase := .low }, false)
  | .fourBit, .low => (({ k with phase := .high } : Controller).execByte n rs (k.hi ++ d), true)

/-- The recovery count after a latch (R74): a latch of payload 0x3 with register-select 0 goes on with the run or, when the
one before it was not followed by its wait, starts it anew; any other latch ends it. -/
def Lcd.countLatch (rs : Bool) (d : Nibble) (l : Lcd) : Lcd :=
  if rs = false ∧ d = 0x3#4 then
    { l with resetRuns := if l.resetWait then 0 else l.resetRuns, resetWait := true }
  else { l with resetRuns := 0, resetWait := false }

/-- The controller latches (R72); one still executing is left at any value (R78). -/
def Lcd.latch (n : Nat) (late rs : Bool) (d : Nibble) (l : Lcd) : Lcd :=
  let l' := l.countLatch rs d
  if l.executing = true ∧ late = true then { l' with ctl := Controller.free n, executing := true }
  else
    let r := l.ctl.latch n rs d
    { l' with ctl := r.1, executing := r.2 }

/-! ### The bus write as the environment sees it -/

/-- Whether the control line of mask `m` is set in a byte or on the pins. -/
def lineSet (m : Nibble) (b : Byte) : Bool := controlOf b &&& m != 0#4

/-- An acknowledged write: `PINS <- b`, and where the enable line falls the controller latches what the new pins carry
(R71, R72; the falling edge is [GK]). `n` numbers the free values, `late` is R78's draw. -/
def Lcd.write (c : Cfg) (n : Nat) (late : Bool) (b : Byte) (l : Lcd) : Lcd :=
  let l' := { l with pins := b }
  if lineSet c.enMask l.pins = true ∧ lineSet c.enMask b = false then
    l'.latch n late (lineSet c.rsMask b) (payloadOf b)
  else l'

/-- A failed write, or a write cut by reset: the pins are any value (R71, R231), so is the controller (R236, U2). -/
def Lcd.failedWrite (n : Nat) (_l : Lcd) : Lcd :=
  { pins := Config.freePins n, ctl := Controller.free n, executing := true, resetRuns := 0, resetWait := false }

/-- One of the explicit waits of INIT: whatever was executing has ended, since the next nibble is then accepted (R74, R165;
DEDUCED, log 12), and the third recovery latch followed by its wait leaves 8-bit mode (R74). -/
def Lcd.wait (d : DelayId) (l : Lcd) : Lcd :=
  let l' := { l with executing := false }
  if d = .reset ∧ l.resetWait = true then
    let l'' := { l' with resetRuns := min 3 (l.resetRuns + 1), resetWait := false }
    if 2 ≤ l.resetRuns then { l'' with ctl := { l.ctl with mode := .eightBit } } else l''
  else l'

/-- The environment at power-on: all of it unknown (R70). -/
def Lcd.unknown (n : Nat) : Lcd :=
  { pins := Config.freePins n, ctl := Controller.free n, executing := true, resetRuns := 0, resetWait := false }

/-- The DDRAM address that column `col` of row one (`row2 = false`) or row two shows (R77, [GK]). -/
def screenAddr (row2 : Bool) (col : Nat) : Nat := (if row2 then 0x40 else 0) + col

/-- What column `col` of a row shows (R77, [GK]). -/
def Lcd.screen (l : Lcd) (row2 : Bool) (col : Nat) : Byte := l.ctl.cell (screenAddr row2 col)

end Sys2Proof.Machine
end

