-- ==== Sys2Proof/Machine/Operands.lean ====
section
/-! DEFINITION. The operand forms and the script fragments made from them: the nibble split (R84), classification (R86), the
framer's pulse pair (R130), the encoder's four bytes (R140), the renderer's loop (R181) and the INIT script (R160). -/

namespace Sys2Proof.Machine

/-- `v[7:4]`, sent first (R84). -/
def hiNibble (v : Byte) : Nibble := v.extractLsb' 4 4

/-- `v[3:0]`, sent second (R84). -/
def loNibble (v : Byte) : Nibble := v.extractLsb' 0 4

/-- `Classify(c)` of R86. -/
def classify (v : Byte) : Byte := if 32 ≤ v.toNat ∧ v.toNat ≤ 126 then v else 0x20#8

/-- `LatchNibble(p, rs)` of R130. -/
def latchNibble (c : Cfg) (p : Nibble) (rs : Bool) : List Action :=
  [.emit (transportByte c p rs true), .emit (transportByte c p rs false)]

/-- `SendCode(v, rs)` of R140. -/
def sendCode (c : Cfg) (v : Byte) (rs : Bool) : List Action :=
  latchNibble c (hiNibble v) rs ++ latchNibble c (loNibble v) rs

/-- `SendChar(v)` of R142. -/
def sendChar (c : Cfg) (v : Byte) : List Action := sendCode c (classify v) true

/-- Step 2 of INIT for one reset nibble: latch 0x3, then wait (R163). -/
def resetNibbleScript (c : Cfg) : List Action := latchNibble c 0x3#4 false ++ [.delay .reset]

/-- Step 3 of INIT: latch 0x2, then wait (R164). -/
def fourbitNibbleScript (c : Cfg) : List Action := latchNibble c 0x2#4 false ++ [.delay .reset]

/-- `Script(INIT)` of R160. -/
def initScript (c : Cfg) : List Action :=
  [.delay .powerOn]
    ++ resetNibbleScript c ++ resetNibbleScript c ++ resetNibbleScript c
    ++ fourbitNibbleScript c
    ++ sendCode c 0x28#8 false
    ++ sendCode c 0x0C#8 false
    ++ sendCode c 0x01#8 false
    ++ sendCode c 0x06#8 false
    ++ [.delay .final]

/-- What one source byte adds to RENDER's script at column `col` (the loop body of R181). -/
def renderByte (c : Cfg) (col : Nat) (v : Byte) : List Action :=
  if col = 16 then
    sendCode c 0xC0#8 false ++ (if v = 0x20#8 then [] else sendChar c v)
  else sendChar c v

/-- RENDER's loop over the source bytes from column `col`: the script, and COL at the end (R181). -/
def renderLoop (c : Cfg) (col : Nat) : List Byte → List Action × Nat
  | [] => ([], col)
  | v :: vs =>
    let r := renderLoop c (col + 1) vs
    (renderByte c col v ++ r.1, r.2)

/-- `MemRead(i, 1)` (R63): an entry not written since reset reads as a free value, drawn per read (R22). -/
def textByte (text : Memory) (draws i : Nat) : Byte :=
  (Memory.read none text i).getD (Config.freeText (draws + i))

/-- The source bytes of RENDER n: TEXT[0], ..., TEXT[n-1], each read once, in that order (R180). -/
def textBytes (text : Memory) (draws n : Nat) : List Byte := (List.range n).map (textByte text draws)

end Sys2Proof.Machine
end

