-- ==== Sys2Proof/Machine/State.lean ====
section
/-! DEFINITION. The state of the machine, as plain data, and its value at reset (10_state R33). -/

namespace Sys2Proof.Machine

/-- Why a step stops with a fault. -/
inductive Fault where
  /-- Raised by the step when `SCRIPT[pc]` emits a byte that is none of R83's four forms; "no other low nibble is ever
  emitted" (R83). Safe: no state that meets the invariant raises it. -/
  | notATransportByte
  deriving DecidableEq, Repr

/-- Why an instruction has no meaning. -/
inductive Refusal where
  /-- Raised by `exec` for an instruction not modelled yet. Safe. No arm raises it. -/
  | notModelled (mnemonic : String)
  deriving DecidableEq, Repr

/-- The block (10_state), its inputs, the environment behind the bus (20_memory R70), and the observation (R8). -/
structure State where
  /-- The parameters of R5; no step writes them (R5, R7, log 1). -/
  cfg       : Cfg
  /-- The reset input as last sampled (R20, R230). -/
  rst       : Bool
  /-- STATUS.BUSY (R25). -/
  busy      : Bool
  /-- STATUS.RESULT (R26). -/
  result    : Result
  /-- STATUS.ERR_INDEX (R26). -/
  errIndex  : Byte
  /-- INIT_STATE (R28). -/
  initState : InitState
  /-- SCRIPT (R27). -/
  script    : List Action
  /-- The index of the next action (R27). -/
  pc        : Nat
  /-- The EMIT actions executed so far in this operation (R27). -/
  nsent     : Byte
  /-- COL (R29). -/
  col       : Nat
  /-- REQ (R30). -/
  req       : ReqWord
  /-- TEXT (R22); an unlisted entry has not been written since reset. -/
  text      : Memory
  /-- The expander and the controller (R70). -/
  lcd       : Lcd
  /-- The bus events so far, oldest first (R8). -/
  events    : List Event
  /-- The coming samples of `rst`, one a step; released where the list ends. -/
  rstIn     : List ResetIn
  /-- The coming moves of the host. -/
  hostIn    : List HostIn
  /-- The coming draws of the bus environment, one a bus write; free values where the list ends (R52). -/
  answers   : List BusDraw
  /-- How many free values have been drawn. -/
  draws     : Nat
  /-- How much of a script one step performs (R117). -/
  grain     : Grain
  deriving DecidableEq, Repr

/-- The STATUS port (R20, R23): readable at any time with no side effect. -/
def State.status (s : State) : StatusWord := statusWord s.errIndex s.initState s.result s.busy

/-- `req_ready = ~BUSY` (R20). -/
def State.reqReady (s : State) : Bool := !s.busy

/-- Every piece of block state at the value of R33, with `rst` asserted (R230). COL and REQ, which R33 leaves open, are 0 (log 7);
a TEXT entry is unwritten. -/
def State.blockReset (s : State) : State :=
  { s with
    rst := true, busy := true, result := .ok, errIndex := 0#8, initState := .sPowerOn
    script := initScript s.cfg, pc := 0, nsent := 0#8, col := 0, req := 0#12, text := [] }

/-- The machine right after reset: `rst` has just been asserted, its next sample releases it and INIT starts (R232). -/
def State.reset : State where
  cfg       := Config.hardware
  rst       := true
  busy      := true
  result    := .ok
  errIndex  := 0#8
  initState := .sPowerOn
  script    := initScript Config.hardware
  pc        := 0
  nsent     := 0#8
  col       := 0
  req       := 0#12
  text      := []
  lcd       := Lcd.unknown 0
  events    := []
  rstIn     := []
  hostIn    := []
  answers   := []
  draws     := 1
  grain     := .action

end Sys2Proof.Machine
end

