-- ==== Sys2Proof/Machine/Ops.lean ====
section
/-! DEFINITION. The shared operations on State: the EMIT and DELAY actions, running a fragment, the end of an operation (the
block's one error mechanism), acceptance and refusal of a request, the text port, reset and its release. -/

namespace Sys2Proof.Machine

/-! ### Drawing the environment's answers -/

/-- The draw of a bus write whose answer nobody has fixed: free value number `n` (R52, I6, I14). -/
def freeDraw (n : Nat) : BusDraw :=
  { answer := if Config.busAcks n then .ack else .fail
    late := Config.controllerLate n }

/-- The environment's draw for the bus write after the next `j` ones (R52, R78). -/
def State.drawAt (s : State) (j : Nat) : BusDraw := (s.answers[j]?).getD (freeDraw (s.draws + j))

/-- The environment's draw for the next bus write. -/
def State.draw (s : State) : BusDraw := s.drawAt 0

/-! ### The end of an operation -/

/-- The end of an operation (R113, R207): the result and its index to STATUS (R26), INIT_STATE for INIT (R161), and BUSY falls,
in one step. Nothing else changes. -/
def State.finish (r : Result) (k : Byte) (s : State) : State :=
  { s with busy := false, result := r, errIndex := k, initState := s.initState.atEnd r }

/-! ### The two actions -/

/-- `pc <- pc + 1` after an action that completed, INIT_STATE following it while INIT runs (R27, R161). -/
def State.advance (s : State) : State :=
  { s with pc := s.pc + 1, initState := s.initState.follow (s.pc + 1) }

/-- `r <- BusWrite(LCD_ADDR, b)` of an EMIT and the bus events `wait` after it (R110): NSENT counts it, the write with its answer
is an event, and the environment takes the byte (R52, R71). -/
def State.transact (wait : List Event) (b : Byte) (s : State) : State :=
  { s with
    nsent := s.nsent + 1#8
    events := s.events ++ .write s.cfg.lcdAddr b s.draw.answer :: wait
    lcd :=
      match s.draw.answer with
      | .ack => s.lcd.write s.cfg s.draws s.draw.late b
      | .fail => s.lcd.failedWrite s.draws
    answers := s.answers.tail
    draws := s.draws + 1 }

/-- The bus write of an EMIT with its settle delay, taken whatever the answer, before the answer is acted on (R110). -/
def State.busWrite (b : Byte) (s : State) : State := s.transact [.delay .settle] b

/-- `EMIT(b)` (R110): on ACK the script goes on; on FAIL the operation ends with BUS_ERROR(NSENT) after the settle delay
(R201). -/
def State.emit (b : Byte) (s : State) : State :=
  match s.draw.answer with
  | .ack => (s.busWrite b).advance
  | .fail => (s.busWrite b).finish .busError (s.nsent + 1#8)

/-- `DELAY(t)` (R111): an event with its bound; no byte, and it cannot fail. -/
def State.delay (d : DelayId) (s : State) : State :=
  ({ s with events := s.events ++ [.delay d], lcd := s.lcd.wait d } : State).advance

/-- A fragment of actions run in order, stopped by the first failed EMIT (R112). -/
def State.runActions : List Action → State → State
  | [], s => s
  | .delay d :: as, s => State.runActions as (s.delay d)
  | .emit b :: as, s =>
    match s.draw.answer with
    | .ack => State.runActions as (s.emit b)
    | .fail => s.emit b

/-! ### Requests -/

/-- `Accept` of R116 for a legal word `w` whose script is `sc`. Offered while BUSY = 1 it is not accepted and waits (R117). -/
def State.accept (w : ReqWord) (sc : List Action) (s : State) : State :=
  if s.reqReady then
    { s with
      req := w, busy := true, result := .ok, errIndex := 0#8
      script := sc, pc := 0, nsent := 0#8 }
  else s

/-- `Accept` of R116 for an illegal word: accepted, and ended at once with REFUSED and index 0; no byte, no text read (R95, R202). -/
def State.refuse (w : ReqWord) (s : State) : State :=
  if s.reqReady then { s with req := w, busy := false, result := .refused, errIndex := 0#8 } else s

/-- `Accept` of RENDER n: the script is built from TEXT as it stands at acceptance (R65, R182), COL counting the bytes (R29). -/
def State.acceptRender (w : ReqWord) (n : Nat) (s : State) : State :=
  if s.reqReady then
    let r := renderLoop s.cfg 0 (textBytes s.text s.draws n)
    { s.accept w r.1 with col := r.2, draws := s.draws + n }
  else s

/-- `MemWrite(i, 1, v)` at the text port (R64): taken while BUSY = 0; at an index of TEXT_MAX or above taken and ignored. -/
def State.writeText (i : BitVec 6) (v : Byte) (s : State) : State :=
  if s.busy then s
  else if i.toNat < s.cfg.textMax then { s with text := Memory.write none s.text i.toNat v }
  else s

/-! ### Reset -/

/-- The byte of the EMIT the running operation stands at, if it stands at one. -/
def State.nextEmit (s : State) : Option Byte :=
  if s.rst = false ∧ s.busy = true then
    match s.script[s.pc]? with
    | some (.emit b) => some b
    | some (.delay _) | none => none
  else none

/-- A bus write of `b` cut by reset: its outcome is unknown and leaves the environment at any value (R231, R71, R236). -/
def State.cutWrite (b : Byte) (s : State) : State :=
  { s with
    events := s.events ++ [.cutWrite s.cfg.lcdAddr b]
    lcd := s.lcd.failedWrite s.draws
    draws := s.draws + 1 }

/-- What of the action the running operation stands at happens before reset strikes (R231). -/
def State.cutAction (k : Strike) (s : State) : State :=
  match k, s.nextEmit with
  | .inWrite, some b => s.cutWrite b
  | .inSettle, some b => s.transact [] b
  | .before, _ | .inWrite, none | .inSettle, none => s

/-- `rst` asserted (R230, R231): the running operation ends where reset strikes with no result, the block takes its reset values,
and a power-cycle leaves the environment unknown (R70). -/
def State.assertReset (k : Strike) (powerCycle : Bool) (s : State) : State :=
  let t := s.cutAction k
  { t.blockReset with
    lcd := if powerCycle then Lcd.unknown t.draws else t.lcd
    draws := t.draws + 1 }

/-- `rst` released: INIT starts (R232, R160). -/
def State.startInit (s : State) : State :=
  { s with
    rst := false, busy := true, result := .ok, errIndex := 0#8, initState := .sPowerOn
    script := initScript s.cfg, pc := 0, nsent := 0#8 }

end Sys2Proof.Machine
end

