-- ==== Sys2Proof/Machine/Encoder.lean ====
section
/-! DEFINITION. The Command/Char Encoder (42_encoder.md): the two SEND requests, and the command codes of R85, each sent by the
running operation as `SendCode(code, 0)`. -/

namespace Sys2Proof.Machine

/-- SEND_CMD c (R144): accepted with `Script = SendCode(c, 0)`; every code is sent unchanged. -/
def execSendCmd (c : Byte) (s : State) : Host.Outcome State Fault Refusal :=
  .next (s.accept (reqWord 0x3#4 c) (sendCode s.cfg c false))

/-- SEND_DATA c (R145): accepted with `Script = SendChar(c)`, the code classified. -/
def execSendData (c : Byte) (s : State) : Host.Outcome State Fault Refusal :=
  .next (s.accept (reqWord 0x4#4 c) (sendChar s.cfg c))

/-- FUNCTION_SET (R166): `SendCode(0x28, 0)`. -/
def execFunctionSet (s : State) : Host.Outcome State Fault Refusal :=
  .next (State.runActions (sendCode s.cfg 0x28#8 false) s)

/-- DISPLAY_CONTROL (R167): `SendCode(0x0C, 0)`. -/
def execDisplayControl (s : State) : Host.Outcome State Fault Refusal :=
  .next (State.runActions (sendCode s.cfg 0x0C#8 false) s)

/-- CLEAR_DISPLAY (R168): `SendCode(0x01, 0)`; no wait follows beyond the settle delays. -/
def execClearDisplay (s : State) : Host.Outcome State Fault Refusal :=
  .next (State.runActions (sendCode s.cfg 0x01#8 false) s)

/-- ENTRY_MODE (R169): `SendCode(0x06, 0)`. -/
def execEntryMode (s : State) : Host.Outcome State Fault Refusal :=
  .next (State.runActions (sendCode s.cfg 0x06#8 false) s)

/-- SET_DDRAM_ROW2 (R181, R183): `SendCode(0xC0, 0)`. -/
def execSetDdramRow2 (s : State) : Host.Outcome State Fault Refusal :=
  .next (State.runActions (sendCode s.cfg 0xC0#8 false) s)

end Sys2Proof.Machine
end

