-- ==== Sys2Proof/Machine/Framer.lean ====
section
/-! DEFINITION. The Nibble Framer (41_framer.md): the two LATCH requests, and the two single payloads INIT sends through it. -/

namespace Sys2Proof.Machine

/-- LATCH_CMD p (R133): accepted with `Script = LatchNibble(p, 0)`. -/
def execLatchCmd (p : Nibble) (s : State) : Host.Outcome State Fault Refusal :=
  .next (s.accept (reqWord 0x1#4 (0#4 ++ p)) (latchNibble s.cfg p false))

/-- LATCH_DATA p (R134): accepted with `Script = LatchNibble(p, 1)`; no classification. -/
def execLatchData (p : Nibble) (s : State) : Host.Outcome State Fault Refusal :=
  .next (s.accept (reqWord 0x2#4 (0#4 ++ p)) (latchNibble s.cfg p true))

/-- RESET_NIBBLE (R163): the running operation latches 0x3 with register-select 0, then waits T_RESET. -/
def execResetNibble (s : State) : Host.Outcome State Fault Refusal :=
  .next (State.runActions (resetNibbleScript s.cfg) s)

/-- FOURBIT_NIBBLE (R164): the running operation latches 0x2 with register-select 0, then waits T_RESET. -/
def execFourbitNibble (s : State) : Host.Outcome State Fault Refusal :=
  .next (State.runActions (fourbitNibbleScript s.cfg) s)

end Sys2Proof.Machine
end

