-- ==== Sys2Proof/Machine/InitSequencer.lean ====
section
/-! DEFINITION. The Initialization Sequencer (43_init.md): INIT, started by the release of `rst` and by nothing else. -/

namespace Sys2Proof.Machine

/-- INIT (R160, R232). -/
def execInit (s : State) : Host.Outcome State Fault Refusal := .next s.startInit

end Sys2Proof.Machine
end

