-- ==== Sys2Proof/Machine/Renderer.lean ====
section
/-! DEFINITION. The Line Renderer (44_render.md). -/

namespace Sys2Proof.Machine

/-- RENDER n (R181): accepted with the script of `TEXT[0..n-1]`; a length over TEXT_MAX is refused, nothing read (R95). -/
def execRender (n : Byte) (s : State) : Host.Outcome State Fault Refusal :=
  if n.toNat ≤ s.cfg.textMax then .next (s.acceptRender (reqWord 0x5#4 n) n.toNat)
  else .next (s.refuse (reqWord 0x5#4 n))

end Sys2Proof.Machine
end

