-- ==== Sys2Proof/Machine/Transport.lean ====
section
/-! DEFINITION. The four transport-byte forms (R83): each is the EMIT action of its byte (R110). -/

namespace Sys2Proof.Machine

/-- TB_CMD_HI: `EMIT(TB(p, 0, 1))` (R81, R83, R110). -/
def execTbCmdHi (p : Nibble) (s : State) : Host.Outcome State Fault Refusal :=
  .next (s.emit (transportByte s.cfg p false true))

/-- TB_CMD_LO: `EMIT(TB(p, 0, 0))` (R81, R83, R110). -/
def execTbCmdLo (p : Nibble) (s : State) : Host.Outcome State Fault Refusal :=
  .next (s.emit (transportByte s.cfg p false false))

/-- TB_DATA_HI: `EMIT(TB(p, 1, 1))` (R81, R83, R110). -/
def execTbDataHi (p : Nibble) (s : State) : Host.Outcome State Fault Refusal :=
  .next (s.emit (transportByte s.cfg p true true))

/-- TB_DATA_LO: `EMIT(TB(p, 1, 0))` (R81, R83, R110). -/
def execTbDataLo (p : Nibble) (s : State) : Host.Outcome State Fault Refusal :=
  .next (s.emit (transportByte s.cfg p true false))

end Sys2Proof.Machine
end

