-- ==== Sys2Proof/Machine/Dispatch.lean ====
section
/-! DEFINITION. One arm per constructor of Instr. -/

namespace Sys2Proof.Machine

def exec (i : Instr) (s : State) : Host.Outcome State Fault Refusal :=
  match i with
  | .latchCmd p => Sys2Proof.Machine.execLatchCmd p s
  | .latchData p => Sys2Proof.Machine.execLatchData p s
  | .sendCmd c => Sys2Proof.Machine.execSendCmd c s
  | .sendData c => Sys2Proof.Machine.execSendData c s
  | .render n => Sys2Proof.Machine.execRender n s
  | .tbCmdHi p => Sys2Proof.Machine.execTbCmdHi p s
  | .tbCmdLo p => Sys2Proof.Machine.execTbCmdLo p s
  | .tbDataHi p => Sys2Proof.Machine.execTbDataHi p s
  | .tbDataLo p => Sys2Proof.Machine.execTbDataLo p s
  | .functionSet => Sys2Proof.Machine.execFunctionSet s
  | .displayControl => Sys2Proof.Machine.execDisplayControl s
  | .clearDisplay => Sys2Proof.Machine.execClearDisplay s
  | .entryMode => Sys2Proof.Machine.execEntryMode s
  | .setDdramRow2 => Sys2Proof.Machine.execSetDdramRow2 s
  | .resetNibble => Sys2Proof.Machine.execResetNibble s
  | .fourbitNibble => Sys2Proof.Machine.execFourbitNibble s
  | .init => Sys2Proof.Machine.execInit s

end Sys2Proof.Machine
end

