-- ==== Sys2Proof/Machine/Fetch.lean ====
section
/-! DEFINITION. What the machine does next (R117): the reset input first (R206), then the running script, then, when idle, the
host's ports. Also how a word is placed where the next step fetches it. -/

namespace Sys2Proof.Machine

/-- One move of the machine. -/
inductive Move where
  /-- `rst` is sampled asserted, striking where `k` says; `powerCycle` says that the platform was power-cycled with it. -/
  | assertReset (k : Strike) (powerCycle : Bool)
  /-- An instruction runs. -/
  | run (i : Instr)
  /-- The DELAY action at `SCRIPT[pc]`. -/
  | delay (d : DelayId)
  /-- `pc = len(SCRIPT)`: the operation ends with OK. -/
  | finish
  /-- A text-port write. -/
  | text (i : BitVec 6) (v : Byte)
  /-- An illegal request word. -/
  | refuse (w : ReqWord)
  /-- Nothing to do. -/
  | idle
  /-- `SCRIPT[pc]` emits a byte of no transport-byte form. -/
  | badByte
  deriving DecidableEq, Repr

/-- The NIB4 row whose fragment (R163, R164) begins with the bytes `a`, `b` and the wait. -/
def nibbleForm (c : Cfg) (a b : Byte) : Option Instr :=
  match decodeTb c a, decodeTb c b with
  | .ok (.tbCmdHi p), .ok (.tbCmdLo q) => if p = q then (decodeNib4 p).toOption else none
  | _, _ => none

/-- The CMD8 row whose fragment `SendCode(code, 0)` is the bytes `a`, `b`, `d`, `e` (R140). -/
def codeForm (c : Cfg) (a b d e : Byte) : Option Instr :=
  match decodeTb c a, decodeTb c b, decodeTb c d, decodeTb c e with
  | .ok (.tbCmdHi p), .ok (.tbCmdLo q), .ok (.tbCmdHi p'), .ok (.tbCmdLo q') =>
    if p = q ∧ p' = q' then (decodeCmd8 (p ++ p')).toOption else none
  | _, _, _, _ => none

/-- The CMD8 or NIB4 form a script begins with, if it begins with one. -/
def formAt (c : Cfg) : List Action → Option Instr
  | .emit a :: .emit b :: .delay .reset :: _ => nibbleForm c a b
  | .emit a :: .emit b :: .emit d :: .emit e :: _ => codeForm c a b d e
  | _ => none

/-- The action `SCRIPT[pc]` of the rest `as` of the script: an EMIT is its transport-byte form (R83). -/
def fetchAction (c : Cfg) : List Action → Move
  | [] => .finish
  | .delay d :: _ => .delay d
  | .emit b :: _ =>
    match decodeTb c b with
    | .ok i => .run i
    | .error _ => .badByte

/-- The next move of the running operation (R112, R117). -/
def State.fetchScript (s : State) : Move :=
  match s.grain with
  | .action => fetchAction s.cfg (s.script.drop s.pc)
  | .form =>
    match formAt s.cfg (s.script.drop s.pc) with
    | some i => .run i
    | none => fetchAction s.cfg (s.script.drop s.pc)

/-- The next move at the ports of an idle block: a request word is decoded (R96, R116), a text write taken (R64). -/
def State.fetchHost (s : State) : Move :=
  match s.hostIn with
  | [] => .idle
  | .idle :: _ => .idle
  | .text i v :: _ => .text i v
  | .request w :: _ =>
    match decodeReq s.cfg w with
    | .ok i => .run i
    | .error _ => .refuse w

/-- The next move. Reset comes before everything (R206); its release runs INIT (R232); while BUSY = 1 the host's ports
accept nothing (R25). -/
def State.fetch (s : State) : Move :=
  match s.rstIn.headD .run with
  | .hold k p => .assertReset k p
  | .run =>
    if s.rst then .run .init
    else if s.busy then s.fetchScript
    else s.fetchHost

/-- The inputs this step uses up: one sample of `rst`, and the host's move where an idle block takes it. -/
def State.taken (s : State) : State :=
  { s with
    rstIn := s.rstIn.tail
    hostIn := if s.rstIn.headD .run = .run ∧ s.rst = false ∧ s.busy = false then s.hostIn.tail else s.hostIn }

/-- The machine out of reset with INIT behind it, so that a word placed by hand is what runs next. -/
def State.pastInit (s : State) : State :=
  { s with
    rst := false
    rstIn := .run :: s.rstIn
    initState := if s.initState.running then .ready else s.initState }

/-- A script placed as the running operation, at its first action. -/
def State.placeScript (g : Grain) (sc : List Action) (s : State) : State :=
  { s.pastInit with
    busy := true, result := .ok, errIndex := 0#8, script := sc, pc := 0, nsent := 0#8, grain := g }

/-- A word placed where the next step fetches it: a request at the request port of an idle block, an emitted form as the
running script, the reset word as the release of `rst` (log 21). -/
def State.place (t : TableWord) (s : State) : State :=
  match t with
  | .req w => { s.pastInit with busy := false, hostIn := .request w :: s.hostIn }
  | .tb b => s.placeScript .action [.emit b]
  | .cmd8 v => s.placeScript .form (sendCode s.cfg v false)
  | .nib4 p => s.placeScript .form (latchNibble s.cfg p false ++ [.delay .reset])
  | .reset => { s with rst := true, rstIn := .run :: s.rstIn }

end Sys2Proof.Machine
end

