-- ==== Sys2Proof/Machine/Step.lean ====
section
/-! DEFINITION. One step of the machine (R117). -/

namespace Sys2Proof.Machine

/-- One move: fetched, its inputs used up, and performed. -/
def step (s : State) : Host.Outcome State Fault Refusal :=
  match s.fetch with
  | .assertReset k p => .next (s.taken.assertReset k p)
  | .run i => exec i s.taken
  | .delay d => .next (s.taken.delay d)
  | .finish => .next (s.taken.finish .ok 0#8)
  | .text i v => .next (s.taken.writeText i v)
  | .refuse w => .next (s.taken.refuse w)
  | .idle => .next s.taken
  | .badByte => .fault .notATransportByte

/-- The instruction word `w` of `nbits` bits stored where the next step fetches (log 20, 21). -/
def State.withFetchWord (s : State) (nbits w : Nat) : State :=
  match tableWord nbits w with
  | some t => s.place t
  | none => s

end Sys2Proof.Machine
end

