-- ==== Sys2Proof/Safety.lean ====
section
/-! DEFINITION. What counts as a safe state and a safe run, in the terms the statements use. -/

namespace Sys2Proof.Machine

/-! ### Runs -/

/-- `k` steps, stopping at the first fault or refusal. -/
def stepN : Nat → State → Host.Outcome State Fault Refusal
  | 0, s => .next s
  | k + 1, s =>
    match step s with
    | .next t => stepN k t
    | .fault r => .fault r
    | .refused r => .refused r

/-- Instructions executed one after the other. -/
def execAll : List Instr → State → Host.Outcome State Fault Refusal
  | [], s => .next s
  | i :: is, s =>
    match exec i s with
    | .next t => execAll is t
    | .fault r => .fault r
    | .refused r => .refused r

/-- The next `k` bus writes are acknowledged. -/
abbrev State.acks (s : State) (k : Nat) : Prop := ∀ j < k, (s.drawAt j).answer = .ack

/-- None of the next `k` bus writes finds the controller still executing (R78). -/
abbrev State.prompt (s : State) (k : Nat) : Prop := ∀ j < k, (s.drawAt j).late = false

/-- The first failed write is the one after the next `k`. -/
abbrev State.failsAfter (s : State) (k : Nat) : Prop := s.acks k ∧ (s.drawAt k).answer = .fail

/-- The reset input stays released. -/
abbrev State.noReset (s : State) : Prop := s.rst = false ∧ s.rstIn = []

/-- The sample of `rst` this step takes is "released", and `rst` is not asserted. -/
abbrev State.released (s : State) : Prop := s.rst = false ∧ s.rstIn.headD .run = .run

/-- The running operation stands at `EMIT(b)`. -/
abbrev State.emitsNext (s : State) (b : Byte) : Prop :=
  s.rst = false ∧ s.busy = true ∧ (s.script.drop s.pc).head? = some (.emit b)

/-- A controller that pairs nibbles in step with the block: 4-bit mode, a high half next (R55, R73). -/
abbrev State.inStep (s : State) : Prop := s.lcd.ctl.mode = .fourBit ∧ s.lcd.ctl.phase = .high

/-! ### Bus events -/

/-- A bus write with its settle delay (R110). -/
def writeEvents (c : Cfg) (b : Byte) (r : Answer) : List Event := [.write c.lcdAddr b r, .delay .settle]

/-- The events of a list of acknowledged bytes. -/
def ackedBytes (c : Cfg) (bs : List Byte) : List Event := bs.flatMap (fun b => writeEvents c b .ack)

/-- The events of a list of bytes of which the last is answered FAIL. -/
def cutBytes (c : Cfg) (bs : List Byte) : List Event :=
  ackedBytes c bs.dropLast ++ (bs.getLast?.toList.flatMap (fun b => writeEvents c b .fail))

/-- The events of an action that completes. -/
def Action.events (c : Cfg) : Action → List Event
  | .emit b => writeEvents c b .ack
  | .delay d => [.delay d]

/-- The bytes a script emits, in order. -/
def emitted (as : List Action) : List Byte :=
  as.filterMap (fun a => match a with | .emit b => some b | .delay _ => none)

/-- The four bytes of a code with the default masks: `hi` and `lo` are the low nibbles with enable asserted and cleared (R83, R140). -/
def codeBytes (v : Byte) (lo : Nibble) (hi : Nibble) : List Byte :=
  [hiNibble v ++ hi, hiNibble v ++ lo, loNibble v ++ hi, loNibble v ++ lo]

/-- What running actions of a script never touches: parameters, the reset input, RESULT and ERR_INDEX until the end, SCRIPT, COL, REQ,
TEXT, the coming inputs but for the bus answers, the grain. -/
abbrev State.SameButRun (s t : State) : Prop :=
  t.cfg = s.cfg ∧ t.rst = s.rst ∧ t.busy = s.busy ∧ t.result = s.result ∧ t.errIndex = s.errIndex ∧
  t.script = s.script ∧ t.col = s.col ∧ t.req = s.req ∧ t.text = s.text ∧
  t.rstIn = s.rstIn ∧ t.hostIn = s.hostIn ∧ t.grain = s.grain

/-- What an operation cut by a failed write still leaves alone. -/
abbrev State.SameButCut (s t : State) : Prop :=
  t.cfg = s.cfg ∧ t.rst = s.rst ∧ t.script = s.script ∧ t.col = s.col ∧ t.req = s.req ∧ t.text = s.text ∧
  t.rstIn = s.rstIn ∧ t.hostIn = s.hostIn ∧ t.grain = s.grain

/-! ### The invariant -/

/-- An action a script may hold: a byte of one of R83's forms, or a delay that is not EMIT's own (R110, R111). -/
def actionOk (c : Cfg) : Action → Bool
  | .emit b => (decodeTb c b).toOption.isSome
  | .delay d => d ≠ .settle

/-- A bus event the block may produce: a write goes to LCD_ADDR and carries one of R83's forms (R50, R82). -/
def eventOk (c : Cfg) : Event → Bool
  | .write a b _ | .cutWrite a b => a = c.lcdAddr ∧ (decodeTb c b).toOption.isSome
  | .delay _ => true

/-- SCRIPT and pc (R27): every action is one a script may hold, at most 252 are EMITs (R185), `0 <= pc <= len(SCRIPT)`. -/
abbrev State.ScriptInv (s : State) : Prop :=
  (∀ a ∈ s.script, actionOk s.cfg a = true) ∧ (emitted s.script).length ≤ 252 ∧ s.pc ≤ s.script.length

/-- STATUS (R24, R26, R27): while BUSY, RESULT and ERR_INDEX are clear and NSENT counts the EMITs executed; ERR_INDEX is a byte's
index after a BUS_ERROR and 0 otherwise. -/
abbrev State.StatusInv (s : State) : Prop :=
  (s.busy = true → s.result = .ok ∧ s.nsent.toNat = (emitted (s.script.take s.pc)).length) ∧
  (if s.result = .busError then 1 ≤ s.errIndex.toNat ∧ s.errIndex.toNat ≤ 252 else s.errIndex = 0#8)

/-- INIT_STATE (R28, R161): while it runs, the INIT script runs, and INIT_STATE follows its position. -/
abbrev State.InitInv (s : State) : Prop :=
  s.initState.running = true →
    s.busy = true ∧ s.script = initScript s.cfg ∧ s.initState = InitState.atPc s.pc

/-- While `rst` is asserted the block holds its reset values (R230, R33). -/
abbrev State.ResetInv (s : State) : Prop :=
  s.rst = true →
    s.busy = true ∧ s.result = .ok ∧ s.errIndex = 0#8 ∧ s.initState = .sPowerOn ∧
    s.script = initScript s.cfg ∧ s.pc = 0 ∧ s.nsent = 0#8 ∧ s.col = 0 ∧ s.req = 0#12 ∧ s.text = []

/-- TEXT is in canonical form with indices below TEXT_MAX (R22, R64), and COL is at most TEXT_MAX (R29). -/
abbrev State.TextInv (s : State) : Prop :=
  Memory.wf none s.text ∧ (∀ x ∈ s.text, x.1 < s.cfg.textMax) ∧ s.col ≤ s.cfg.textMax

/-- DDRAM is in canonical form (R70). -/
abbrev State.LcdInv (s : State) : Prop :=
  Memory.wf s.lcd.ctl.fill.known s.lcd.ctl.ddram

/-- Every bus event so far is one the block may produce. -/
abbrev State.EventsInv (s : State) : Prop := ∀ e ∈ s.events, eventOk s.cfg e = true

/-- The invariant every step keeps. -/
abbrev State.Inv (s : State) : Prop :=
  s.cfg.Wf ∧ s.ScriptInv ∧ s.StatusInv ∧ s.InitInv ∧ s.ResetInv ∧ s.TextInv ∧ s.LcdInv ∧ s.EventsInv

/-- A run of `k` steps that neither faults nor refuses. -/
def State.safeFor (k : Nat) (s : State) : Prop := ∃ t, stepN k s = .next t

/-! ### A whole operation as one step (R117) -/

/-- The rest of the running operation and its end, performed at once. -/
def State.runOperation (s : State) : State :=
  let t := State.runActions (s.script.drop s.pc) s
  if t.busy then t.finish .ok 0#8 else t

/-- The lower bound on an operation's duration (R241). -/
def operationTime (c : Cfg) (s t : State) : Nat := minTime c (t.events.drop s.events.length)

end Sys2Proof.Machine
end

