-- ==== Sys2Proof/Certificates/Slice0/Obligations.lean ====
section
/-! DEFINITION. The statements for the provers. -/

open Sys2Proof Sys2Proof.Machine

/-! ### Encodings -/

/-- Decoding the encoding of a well-formed instruction gives it back, in every format and with every operand (R83, R85, R91, R96). -/
def Obligations.EncodeThenDecode : Prop :=
  ∀ (c : Cfg) (i : Instr), c.Wf → i.wf c = true → decode c (encode c i) = .ok i

/-- A word that decodes is the encoding of what it decodes to, which is well-formed: each word has one meaning (R91, R95, R96). -/
def Obligations.DecodeThenEncode : Prop :=
  ∀ (c : Cfg) (w : TableWord) (i : Instr), c.Wf → decode c w = .ok i → encode c i = w ∧ i.wf c = true

/-- A request word decodes exactly when R95 does not call it illegal, and to the operation of R91 with the operands of R92. -/
def Obligations.DecodeFollowsTheOpcodeMap : Prop :=
  ∀ (c : Cfg) (op hi lo : Nibble),
    let w : ReqWord := op ++ (hi ++ lo)
    (op = 0x1#4 ∧ hi = 0#4 → decodeReq c w = .ok (.latchCmd lo)) ∧
    (op = 0x2#4 ∧ hi = 0#4 → decodeReq c w = .ok (.latchData lo)) ∧
    (op = 0x3#4 → decodeReq c w = .ok (.sendCmd (hi ++ lo))) ∧
    (op = 0x4#4 → decodeReq c w = .ok (.sendData (hi ++ lo))) ∧
    (op = 0x5#4 ∧ 16 * hi.toNat + lo.toNat ≤ c.textMax → decodeReq c w = .ok (.render (hi ++ lo))) ∧
    (op = 0x0#4 ∨ 6 ≤ op.toNat ∨ ((op = 0x1#4 ∨ op = 0x2#4) ∧ hi ≠ 0#4) ∨
        (op = 0x5#4 ∧ c.textMax < 16 * hi.toNat + lo.toNat) ↔
      ∃ r, decodeReq c w = .error r)

/-- Words written out from the encodings of R91, R83 and R85 decode to their rows, with this hardware's parameters. -/
def Obligations.WrittenOutWordsDecode : Prop :=
  decode Config.hardware (.req 0b000100000011#12) = .ok (.latchCmd 0x3#4) ∧
  decode Config.hardware (.req 0b001000000100#12) = .ok (.latchData 0x4#4) ∧
  decode Config.hardware (.req 0b001100000001#12) = .ok (.sendCmd 0x01#8) ∧
  decode Config.hardware (.req 0b010001000001#12) = .ok (.sendData 0x41#8) ∧
  decode Config.hardware (.req 0b010100100000#12) = .ok (.render 32#8) ∧
  decode Config.hardware (.req 0b010100100001#12) = .error .renderTooLong ∧
  decode Config.hardware (.req 0b000100010011#12) = .error .latchArgument ∧
  decode Config.hardware (.req 0b011000000000#12) = .error .reservedOpcode ∧
  decode Config.hardware (.tb 0b00111100#8) = .ok (.tbCmdHi 0x3#4) ∧
  decode Config.hardware (.tb 0b00111000#8) = .ok (.tbCmdLo 0x3#4) ∧
  decode Config.hardware (.tb 0b01001101#8) = .ok (.tbDataHi 0x4#4) ∧
  decode Config.hardware (.tb 0b01001001#8) = .ok (.tbDataLo 0x4#4) ∧
  decode Config.hardware (.cmd8 0b00101000#8) = .ok .functionSet ∧
  decode Config.hardware (.cmd8 0b11000000#8) = .ok .setDdramRow2 ∧
  decode Config.hardware (.nib4 0b0011#4) = .ok .resetNibble ∧
  decode Config.hardware (.nib4 0b0010#4) = .ok .fourbitNibble ∧
  decode Config.hardware .reset = .ok .init

/-- The nibble split: the two payloads are `v & 0xF0` and `(v << 4) & 0xF0` already shifted down, and together reassemble `v`
(R84, R141). -/
def Obligations.NibbleSplitReassembles : Prop :=
  ∀ v : Byte,
    hiNibble v ++ 0#4 = v &&& 0xF0#8 ∧ loNibble v ++ 0#4 = (v <<< 4) &&& 0xF0#8 ∧
    (v &&& 0xF0#8) ||| (((v <<< 4) &&& 0xF0#8) >>> 4) = v

/-- A character code in 32..126 is sent as it is, any other as the blank 0x20 (R86). -/
def Obligations.ClassifyIsPrintableOrBlank : Prop :=
  ∀ v : Byte,
    (32 ≤ v.toNat ∧ v.toNat ≤ 126 → classify v = v) ∧ (v.toNat < 32 ∨ 126 < v.toNat → classify v = 0x20#8)

/-! ### The transport -/

/-- The four transport-byte forms when the write is acknowledged: the byte `pppp1100`, `pppp1000`, `pppp1101` or `pppp1001` is written
to LCD_ADDR, the settle delay follows, NSENT and pc count it, the environment takes the byte, and nothing else changes
(R83, R110, R112, R161). -/
def Obligations.TbFormsWriteTheirByte : Prop :=
  ∀ (s : State) (p low : Nibble) (i : Instr), s.cfg.DefaultMasks →
    (i, low) ∈ [(Instr.tbCmdHi p, 0xC#4), (.tbCmdLo p, 0x8#4), (.tbDataHi p, 0xD#4), (.tbDataLo p, 0x9#4)] →
    s.draw.answer = .ack →
    exec i s = .next { s with
      nsent := s.nsent + 1#8
      pc := s.pc + 1
      initState := if s.initState.running then InitState.atPc (s.pc + 1) else s.initState
      events := s.events ++ [.write s.cfg.lcdAddr (p ++ low) .ack, .delay .settle]
      lcd := s.lcd.write s.cfg s.draws s.draw.late (p ++ low)
      answers := s.answers.tail
      draws := s.draws + 1 }

/-- The four transport-byte forms when the write fails: the settle delay is still taken, the operation ends with BUS_ERROR and the
index of the failed byte, INIT fails, BUSY falls, pc stays, and nothing is rolled back (R110, R201, R207). -/
def Obligations.TbFormsFailWithBusError : Prop :=
  ∀ (s : State) (p low : Nibble) (i : Instr), s.cfg.DefaultMasks →
    (i, low) ∈ [(Instr.tbCmdHi p, 0xC#4), (.tbCmdLo p, 0x8#4), (.tbDataHi p, 0xD#4), (.tbDataLo p, 0x9#4)] →
    s.draw.answer = .fail →
    exec i s = .next { s with
      nsent := s.nsent + 1#8
      busy := false
      result := .busError
      errIndex := s.nsent + 1#8
      initState := if s.initState.running then .failed else s.initState
      events := s.events ++ [.write s.cfg.lcdAddr (p ++ low) .fail, .delay .settle]
      lcd := s.lcd.failedWrite s.draws
      answers := s.answers.tail
      draws := s.draws + 1 }

/-- The pulse pair of R131: the two bytes differ in the enable bit only, the enable-asserted one is written strictly first, and the
enable-cleared one only once the first was acknowledged. -/
def Obligations.PulsePairIsOrdered : Prop :=
  ∀ (s : State) (p : Nibble) (rs : Bool), s.cfg.Wf →
    let hi := transportByte s.cfg p rs true
    let lo := transportByte s.cfg p rs false
    hi ^^^ lo = 0#4 ++ s.cfg.enMask ∧ controlOf lo &&& s.cfg.enMask = 0#4 ∧
    (State.runActions (latchNibble s.cfg p rs) s).events =
      s.events ++ (writeEvents s.cfg hi s.draw.answer ++
        (if s.draw.answer = .ack then writeEvents s.cfg lo (s.drawAt 1).answer else []))

/-- Every byte any step writes goes to LCD_ADDR with the backlight bit set, the read/write bit clear and one of R83's four control
nibbles, and its settle delay follows it at once unless reset cuts the write or the delay; a step adds events and takes none back
(R50, R82, R83, R110, R231). That a cut write is an event of its own is the model's choice (log 15). -/
def Obligations.EveryWriteIsABacklitWrite : Prop :=
  ∀ s t : State, s.Inv → step s = .next t →
    ∃ blocks : List (List Event), t.events = s.events ++ blocks.flatten ∧
      ∀ bl ∈ blocks,
        (∃ d, bl = [.delay d]) ∨
        (∃ b r, (bl = [.write s.cfg.lcdAddr b r, .delay .settle] ∨
            (s.rstIn.headD .run ≠ .run ∧ (bl = [.write s.cfg.lcdAddr b r] ∨ bl = [.cutWrite s.cfg.lcdAddr b]))) ∧
          controlOf b &&& s.cfg.blMask = s.cfg.blMask ∧ controlOf b &&& s.cfg.rwMask = 0#4 ∧
          controlOf b ∈ [s.cfg.blMask, s.cfg.blMask ||| s.cfg.enMask, s.cfg.blMask ||| s.cfg.rsMask,
            s.cfg.blMask ||| s.cfg.rsMask ||| s.cfg.enMask])

/-! ### Command codes and single payloads -/

/-- The command codes when every write is acknowledged: `SendCode(code, 0)`, its four bytes in order; nothing else of the block changes
but NSENT, pc and, while INIT runs, INIT_STATE. The first four stand at pc 13, 17, 21 and 25 of the INIT script (R140, R166 to R169). -/
def Obligations.CommandCodesSendTheirBytes : Prop :=
  ∀ (s : State) (i : Instr) (bytes : List Byte), s.cfg.DefaultMasks →
    (i, bytes) ∈
      [(Instr.functionSet, [0x2C#8, 0x28#8, 0x8C#8, 0x88#8]), (.displayControl, [0x0C#8, 0x08#8, 0xCC#8, 0xC8#8]),
       (.clearDisplay, [0x0C#8, 0x08#8, 0x1C#8, 0x18#8]), (.entryMode, [0x0C#8, 0x08#8, 0x6C#8, 0x68#8]),
       (.setDdramRow2, [0xCC#8, 0xC8#8, 0x0C#8, 0x08#8])] →
    s.acks 4 →
    (∃ t, exec i s = .next t ∧ t.events = s.events ++ ackedBytes s.cfg bytes ∧
      t.nsent = s.nsent + 4#8 ∧ t.pc = s.pc + 4 ∧
      t.initState = (if s.initState.running then InitState.atPc (s.pc + 4) else s.initState) ∧
      t.answers = s.answers.drop 4 ∧ s.SameButRun t) ∧
    (∀ pos, (i, pos) ∈ [(Instr.functionSet, 13), (.displayControl, 17), (.clearDisplay, 21), (.entryMode, 25)] →
      (((initScript s.cfg).drop pos).take 4) = bytes.map .emit)

/-- The command codes when the write after the next `k` is the first that fails: the bytes up to it are written, none after it, and the
operation ends with BUS_ERROR and its index (R112, R140, R201, R207). -/
def Obligations.CommandCodesStopAtTheFirstFailure : Prop :=
  ∀ (s : State) (i : Instr) (bytes : List Byte) (k : Nat), s.cfg.DefaultMasks →
    (i, bytes) ∈
      [(Instr.functionSet, [0x2C#8, 0x28#8, 0x8C#8, 0x88#8]), (.displayControl, [0x0C#8, 0x08#8, 0xCC#8, 0xC8#8]),
       (.clearDisplay, [0x0C#8, 0x08#8, 0x1C#8, 0x18#8]), (.entryMode, [0x0C#8, 0x08#8, 0x6C#8, 0x68#8]),
       (.setDdramRow2, [0xCC#8, 0xC8#8, 0x0C#8, 0x08#8])] →
    k < 4 → s.failsAfter k →
    ∃ t, exec i s = .next t ∧ t.events = s.events ++ cutBytes s.cfg (bytes.take (k + 1)) ∧
      t.nsent = s.nsent + BitVec.ofNat 8 (k + 1) ∧ t.pc = s.pc + k ∧
      t.busy = false ∧ t.result = .busError ∧ t.errIndex = s.nsent + BitVec.ofNat 8 (k + 1) ∧
      (s.initState.running = true → t.initState = .failed) ∧
      (s.initState.running = false → t.initState = s.initState) ∧ s.SameButCut t

/-- The single payloads when both writes are acknowledged: the pulse pair, then the wait of T_RESET (R163, R164). -/
def Obligations.SinglePayloadsLatchAndWait : Prop :=
  ∀ (s : State) (i : Instr) (bytes : List Byte), s.cfg.DefaultMasks →
    (i, bytes) ∈ [(Instr.resetNibble, [0x3C#8, 0x38#8]), (.fourbitNibble, [0x2C#8, 0x28#8])] →
    s.acks 2 →
    ∃ t, exec i s = .next t ∧ t.events = s.events ++ ackedBytes s.cfg bytes ++ [.delay .reset] ∧
      t.nsent = s.nsent + 2#8 ∧ t.pc = s.pc + 3 ∧
      t.initState = (if s.initState.running then InitState.atPc (s.pc + 3) else s.initState) ∧
      t.answers = s.answers.drop 2 ∧ s.SameButRun t

/-- The single payloads when a write fails: no wait of T_RESET follows (R112, R201, R207). -/
def Obligations.SinglePayloadsStopAtTheFirstFailure : Prop :=
  ∀ (s : State) (i : Instr) (bytes : List Byte) (k : Nat), s.cfg.DefaultMasks →
    (i, bytes) ∈ [(Instr.resetNibble, [0x3C#8, 0x38#8]), (.fourbitNibble, [0x2C#8, 0x28#8])] →
    k < 2 → s.failsAfter k →
    ∃ t, exec i s = .next t ∧ t.events = s.events ++ cutBytes s.cfg (bytes.take (k + 1)) ∧
      t.nsent = s.nsent + BitVec.ofNat 8 (k + 1) ∧ t.pc = s.pc + k ∧
      t.busy = false ∧ t.result = .busError ∧ t.errIndex = s.nsent + BitVec.ofNat 8 (k + 1) ∧
      (s.initState.running = true → t.initState = .failed) ∧
      (s.initState.running = false → t.initState = s.initState) ∧ s.SameButCut t

/-- A command code is its four transport-byte forms one after the other, high nibble first, for every wiring of the control lines
(R54, R140). -/
def Obligations.CodesAreTheirByteForms : Prop :=
  ∀ (s : State) (i : Instr) (hi lo : Nibble), s.acks 3 →
    (i, hi, lo) ∈ [(Instr.functionSet, 0x2#4, 0x8#4), (.displayControl, 0x0#4, 0xC#4), (.clearDisplay, 0x0#4, 0x1#4),
      (.entryMode, 0x0#4, 0x6#4), (.setDdramRow2, 0xC#4, 0x0#4)] →
    exec i s = execAll [.tbCmdHi hi, .tbCmdLo hi, .tbCmdHi lo, .tbCmdLo lo] s

/-! ### Requests -/

/-- LATCH_CMD and LATCH_DATA offered to an idle block: accepted, the word latched in REQ, the script the pulse pair of the payload
with register-select 0 or 1, no byte written yet, everything else as before (R116, R130, R133, R134). -/
def Obligations.LatchRequestsAreAccepted : Prop :=
  ∀ (s : State) (p : Nibble), s.cfg.DefaultMasks → s.busy = false →
    exec (.latchCmd p) s = .next { s with
      req := 0x10#8 ++ p, busy := true, result := .ok, errIndex := 0#8, pc := 0, nsent := 0#8
      script := [.emit (p ++ 0xC#4), .emit (p ++ 0x8#4)] } ∧
    exec (.latchData p) s = .next { s with
      req := 0x20#8 ++ p, busy := true, result := .ok, errIndex := 0#8, pc := 0, nsent := 0#8
      script := [.emit (p ++ 0xD#4), .emit (p ++ 0x9#4)] }

/-- SEND_CMD and SEND_DATA offered to an idle block: the script is the four bytes of the code, unchanged for a command, a blank for a
character outside 32..126 (R86, R116, R140, R142, R144, R145). -/
def Obligations.SendRequestsAreAccepted : Prop :=
  ∀ (s : State) (v : Byte), s.cfg.DefaultMasks → s.busy = false →
    exec (.sendCmd v) s = .next { s with
      req := 0x3#4 ++ v, busy := true, result := .ok, errIndex := 0#8, pc := 0, nsent := 0#8
      script := (codeBytes v 0x8#4 0xC#4).map .emit } ∧
    exec (.sendData v) s = .next { s with
      req := 0x4#4 ++ v, busy := true, result := .ok, errIndex := 0#8, pc := 0, nsent := 0#8
      script := (codeBytes (if 32 ≤ v.toNat ∧ v.toNat ≤ 126 then v else 0x20#8) 0x9#4 0xD#4).map .emit }

/-- RENDER n offered to an idle block: one character write per source byte, the row-two command exactly once, before whatever is done
with TEXT[16], which is skipped when it is 0x20; COL ends at n (R181, R183, R184, R186). That COL is n from acceptance on, and the
script built there, is the model's choice (log 18). -/
def Obligations.RenderIsAccepted : Prop :=
  ∀ (s : State) (n : Byte), s.busy = false → n.toNat ≤ s.cfg.textMax →
    let vs := textBytes s.text s.draws n.toNat
    let chars := fun us : List Byte => us.flatMap (sendChar s.cfg)
    exec (.render n) s = .next { s with
      req := 0x5#4 ++ n, busy := true, result := .ok, errIndex := 0#8, pc := 0, nsent := 0#8
      col := n.toNat, draws := s.draws + n.toNat
      script :=
        if n.toNat ≤ 16 then chars vs
        else chars (vs.take 16) ++ sendCode s.cfg 0xC0#8 false ++
          (if vs[16]? = some 0x20#8 then [] else chars ((vs.drop 16).take 1)) ++ chars (vs.drop 17) }

/-- RENDER reads TEXT[0..n-1], each entry once and in that order, an entry never written since reset as a free value of its own
(R22, R63, R180). -/
def Obligations.RenderReadsEachEntry : Prop :=
  ∀ (m : Memory) (d n : Nat),
    (textBytes m d n).length = n ∧
    ∀ i, i < n →
      (∀ v, Memory.lookup i m = some v → (textBytes m d n)[i]? = some v) ∧
      (Memory.lookup i m = none → (textBytes m d n)[i]? = some (Config.freeText (d + i)))

/-- RENDER's script has `4 x (n - s + w)` EMIT actions and no DELAY, at most `4 x (TEXT_MAX + 1)`; `n = 0` writes nothing (R185). -/
def Obligations.RenderScriptLength : Prop :=
  ∀ (s t : State) (n : Byte), s.busy = false → n.toNat ≤ s.cfg.textMax → exec (.render n) s = .next t →
    let w := if 17 ≤ n.toNat then 1 else 0
    let sk := if (textBytes s.text s.draws n.toNat)[16]? = some 0x20#8 then 1 else 0
    t.script.length + 4 * sk = 4 * (n.toNat + w) ∧ (emitted t.script).length = t.script.length ∧
    t.script.length ≤ 4 * (s.cfg.textMax + 1) ∧ (n = 0#8 → t.script = [])

/-- RENDER with a length over TEXT_MAX is refused: no byte, no text read, REFUSED (R95, R181). -/
def Obligations.RenderTooLongIsRefused : Prop :=
  ∀ (s : State) (n : Byte), s.busy = false → s.cfg.textMax < n.toNat →
    exec (.render n) s = .next { s with req := 0x5#4 ++ n, busy := false, result := .refused, errIndex := 0#8 }

/-- An illegal request word offered to an idle block is accepted and ends at once: RESULT code 10, ERR_INDEX 0, no event, no free value
drawn for a text read, everything else as before (R95, R116, R202). -/
def Obligations.IllegalWordsAreRefused : Prop :=
  ∀ (s : State) (op hi lo : Nibble) (rest : List HostIn), s.released → s.busy = false →
    s.hostIn = .request (op ++ (hi ++ lo)) :: rest →
    (op = 0x0#4 ∨ 6 ≤ op.toNat ∨ ((op = 0x1#4 ∨ op = 0x2#4) ∧ hi ≠ 0#4) ∨
      (op = 0x5#4 ∧ s.cfg.textMax < 16 * hi.toNat + lo.toNat)) →
    ∃ t, step s = .next t ∧ t.status.extractLsb' 1 2 = 0b10#2 ∧
      t = { s with
        rstIn := s.rstIn.tail, hostIn := rest
        req := op ++ (hi ++ lo), busy := false, result := .refused, errIndex := 0#8 }

/-- A request or a text write offered while BUSY = 1 is not taken and waits: a step leaves the host's moves where they are (R25, R64,
R117). That exec of a request while BUSY = 1, which no step runs, changes nothing is the model's choice (log 23). -/
def Obligations.PortsWaitWhileBusy : Prop :=
  (∀ (s : State) (i : Instr), s.busy = true →
    (∃ (p : Nibble) (v : Byte), i ∈ [Instr.latchCmd p, .latchData p, .sendCmd v, .sendData v, .render v]) →
    exec i s = .next s) ∧
  (∀ s t : State, s.busy = true → s.released → step s = .next t → t.hostIn = s.hostIn ∧ t.text = s.text ∧ t.req = s.req)

/-! ### The executor -/

/-- A step is exec of what it fetches, after one sample of `rst` and, at an idle block's port, the host's move are used up: the form of
the byte `SCRIPT[pc]` emits, the request word, or INIT at the release of reset. That a step whose `grain` is form runs the whole CMD8
or NIB4 form the script stands at, and the byte's form elsewhere, is the model's choice (log 19). -/
def Obligations.StepRunsTheDecodedInstruction : Prop :=
  (∀ (s : State) (b : Byte) (rest : List Action) (i : Instr), s.released → s.busy = true →
    s.grain = .action ∨ formAt s.cfg (s.script.drop s.pc) = none →
    s.script.drop s.pc = .emit b :: rest → decode s.cfg (.tb b) = .ok i →
    step s = exec i { s with rstIn := s.rstIn.tail }) ∧
  (∀ (s : State) (v : Byte) (rest : List Action) (i : Instr), s.cfg.Wf → s.released → s.busy = true → s.grain = .form →
    s.script.drop s.pc = sendCode s.cfg v false ++ rest → decode s.cfg (.cmd8 v) = .ok i →
    step s = exec i { s with rstIn := s.rstIn.tail }) ∧
  (∀ (s : State) (p : Nibble) (rest : List Action) (i : Instr), s.cfg.Wf → s.released → s.busy = true → s.grain = .form →
    s.script.drop s.pc = latchNibble s.cfg p false ++ .delay .reset :: rest → decode s.cfg (.nib4 p) = .ok i →
    step s = exec i { s with rstIn := s.rstIn.tail }) ∧
  (∀ (s : State) (w : ReqWord) (rest : List HostIn) (i : Instr), s.released → s.busy = false →
    s.hostIn = .request w :: rest → decode s.cfg (.req w) = .ok i →
    step s = exec i { s with rstIn := s.rstIn.tail, hostIn := rest }) ∧
  (∀ s : State, s.rst = true → s.rstIn.headD .run = .run → step s = exec .init { s with rstIn := s.rstIn.tail })

/-- A DELAY action: its event, and the script goes on; no byte, no STATUS field but INIT's (R111, R112). -/
def Obligations.DelayWaitsAndGoesOn : Prop :=
  ∀ (s : State) (d : DelayId) (rest : List Action), s.released → s.busy = true →
    s.script.drop s.pc = .delay d :: rest →
    step s = .next { s with
      rstIn := s.rstIn.tail
      pc := s.pc + 1
      initState := if s.initState.running then InitState.atPc (s.pc + 1) else s.initState
      events := s.events ++ [.delay d]
      lcd := s.lcd.wait d }

/-- The end of an operation whose script is done: OK and index 0 to STATUS, BUSY falls in the same step, INIT reaches READY, and
nothing else changes (R26, R113, R161). -/
def Obligations.OperationEndsWithOk : Prop :=
  ∀ s : State, s.released → s.busy = true → s.pc = s.script.length →
    step s = .next { s with
      rstIn := s.rstIn.tail
      busy := false, result := .ok, errIndex := 0#8
      initState := if s.initState.running then .ready else s.initState }

/-- An operation is not cancellable: while it runs and `rst` stays released, a step keeps SCRIPT and either advances pc and stays busy
or ends it, with OK at the end of the script or with BUS_ERROR at a failed write (R27, R113, R118). -/
def Obligations.OnlyResetInterruptsAnOperation : Prop :=
  ∀ s t : State, s.Inv → s.released → s.busy = true → step s = .next t →
    t.script = s.script ∧ t.rst = false ∧
    ((t.busy = true ∧ s.pc < t.pc) ∨
     (t.busy = false ∧ t.result = .ok ∧ s.pc = s.script.length ∧ t.pc = s.pc) ∨
     (t.busy = false ∧ t.result = .busError ∧ ∃ k < 4, (s.drawAt k).answer = .fail))

/-- A model that performs a whole operation as one step observes the same bus events and the same final state as the small steps
(R117), however long a step's share of the script is (the model's choice, log 19). -/
def Obligations.WholeOperationAsOneStep : Prop :=
  ∀ s : State, s.Inv → s.noReset → s.busy = true →
    ∃ k ≤ s.script.length + 1 - s.pc, stepN k s = .next s.runOperation

/-- A step that takes a whole CMD8 or NIB4 form (the model's choice, log 19) does what the steps that take its actions one by one do
(R117). -/
def Obligations.FormStepsAreActionSteps : Prop :=
  ∀ (s t : State), s.Inv → s.noReset → s.busy = true → s.grain = .form → step s = .next t →
    ∃ k ≤ 4, stepN k { s with grain := .action } = .next { t with grain := .action }

/-- The bus events of an operation are a prefix of its script: all of it when every write is acknowledged, and otherwise the actions up
to and including the first failed EMIT and its settle delay, with its index reported (R114, R201). -/
def Obligations.EventsFollowTheScript : Prop :=
  ∀ s : State, s.Inv → s.busy = true →
    let todo := s.script.drop s.pc
    let t := s.runOperation
    (s.acks (emitted todo).length →
      t.events = s.events ++ todo.flatMap (Action.events s.cfg) ∧ t.busy = false ∧ t.result = .ok ∧ t.errIndex = 0#8 ∧
      t.pc = s.script.length) ∧
    (∀ (pre post : List Action) (b : Byte), todo = pre ++ .emit b :: post → s.failsAfter (emitted pre).length →
      t.events = s.events ++ pre.flatMap (Action.events s.cfg) ++ writeEvents s.cfg b .fail ∧
      t.busy = false ∧ t.result = .busError ∧ t.errIndex = s.nsent + BitVec.ofNat 8 ((emitted pre).length + 1) ∧
      t.pc = s.pc + pre.length)

/-- Every operation ends: with no reset, a busy block is idle after at most one step per action left and one for the end, whatever the
bus answers (R115). -/
def Obligations.EveryOperationEnds : Prop :=
  ∀ s : State, s.Inv → s.noReset → s.busy = true →
    ∃ k ≤ s.script.length + 1 - s.pc, ∃ t, stepN k s = .next t ∧ t.busy = false ∧
      (t.initState = .ready ∨ t.initState = .failed)

/-- SEND_CMD and SEND_DATA from the offer of the word to STATUS: with INIT in READY and four acknowledged writes, the four bytes are
written in order and STATUS reads 0x0008 (R116, R140, R144, R145). -/
def Obligations.SendRequestsRunToTheEnd : Prop :=
  ∀ (s : State) (v : Byte) (low : Nibble) (bytes : List Byte) (rest : List HostIn),
    s.cfg.DefaultMasks → s.noReset → s.busy = false → s.initState = .ready → s.grain = .action → s.acks 4 →
    s.hostIn = .request (low ++ v) :: rest →
    (low, bytes) ∈ [(0x3#4, codeBytes v 0x8#4 0xC#4), (0x4#4, codeBytes (classify v) 0x9#4 0xD#4)] →
    ∃ t, stepN 6 s = .next t ∧ t.events = s.events ++ ackedBytes s.cfg bytes ∧ t.status = 0x0008#16 ∧
      t.hostIn = rest ∧ t.text = s.text ∧ t.nsent = 4#8

/-! ### Initialisation -/

/-- INIT starts at the release of reset: SCRIPT is the INIT script, pc and NSENT 0, INIT_STATE S_POWERON, BUSY 1, RESULT and ERR_INDEX
cleared; everything else as before (R26, R160, R232). -/
def Obligations.InitStartsAtReset : Prop :=
  (∀ s : State, s.rst = true → s.rstIn.headD .run = .run → step s = exec .init { s with rstIn := s.rstIn.tail }) ∧
  (∀ s : State, exec .init s = .next { s with
    rst := false, script := initScript s.cfg, pc := 0, nsent := 0#8, initState := .sPowerOn
    busy := true, result := .ok, errIndex := 0#8 })

/-- The INIT script written out: 30 actions, 24 of them EMITs, three payloads 0x3, one payload 0x2, then 0x28, 0x0C, 0x01, 0x06
(R160, R172). -/
def Obligations.InitScriptWrittenOut : Prop :=
  ∀ c : Cfg, c.DefaultMasks →
    initScript c =
      [.delay .powerOn,
       .emit 0x3C#8, .emit 0x38#8, .delay .reset, .emit 0x3C#8, .emit 0x38#8, .delay .reset,
       .emit 0x3C#8, .emit 0x38#8, .delay .reset, .emit 0x2C#8, .emit 0x28#8, .delay .reset] ++
      [.emit 0x2C#8, .emit 0x28#8, .emit 0x8C#8, .emit 0x88#8, .emit 0x0C#8, .emit 0x08#8, .emit 0xCC#8, .emit 0xC8#8,
       .emit 0x0C#8, .emit 0x08#8, .emit 0x1C#8, .emit 0x18#8, .emit 0x0C#8, .emit 0x08#8, .emit 0x6C#8, .emit 0x68#8,
       .delay .final]

/-- INIT with every write acknowledged, from reset to STATUS: the release, 30 actions and the end give the script's events and STATUS
0x0008, READY, whatever the display was (R160, R161). -/
def Obligations.InitRunsToReady : Prop :=
  ∀ s : State, s.Inv → s.rst = true → s.rstIn = [] → s.grain = .action → s.acks 24 →
    ∃ t, stepN 32 s = .next t ∧ t.status = 0x0008#16 ∧ t.initState = .ready ∧ t.busy = false ∧
      t.events = s.events ++ (initScript s.cfg).flatMap (Action.events s.cfg)

/-- INIT with a first failed write: it ends at once in FAILED with BUS_ERROR(k), STATUS reads `(k << 8) | 0x0012`, and the events are
the script's up to that write (R161, R171). -/
def Obligations.InitAbortsAtTheFirstFailure : Prop :=
  ∀ (s : State) (k : Nat), s.Inv → s.rst = true → s.rstIn = [] → k < 24 → s.failsAfter k →
    ∃ n t pre b post, stepN n s = .next t ∧ initScript s.cfg = pre ++ .emit b :: post ∧ (emitted pre).length = k ∧
      t.status = (BitVec.ofNat 16 (k + 1) <<< 8) ||| 0x0012#16 ∧ t.initState = .failed ∧ t.busy = false ∧
      t.events = s.events ++ pre.flatMap (Action.events s.cfg) ++ writeEvents s.cfg b .fail

/-- READY and FAILED are terminal: only reset leaves them, and no step of a block out of reset enters INIT again (R28, R161, R230). -/
def Obligations.InitOutcomeIsTerminal : Prop :=
  ∀ s t : State, s.released → s.initState = .ready ∨ s.initState = .failed → step s = .next t →
    t.initState = s.initState

/-- INIT takes at least `T_POWERON + 4 x T_RESET + 24 x T_SETTLE + T_FINAL`, an acknowledged fragment of `k` bytes and no wait at least
`k x T_SETTLE` (R170, R239, R241). -/
def Obligations.OperationsTakeAtLeast : Prop :=
  ∀ s : State,
    (s.acks 24 →
      operationTime s.cfg s (State.runActions (initScript s.cfg) s) =
        s.cfg.tPowerOn + 4 * s.cfg.tReset + 24 * s.cfg.tSettle + s.cfg.tFinal) ∧
    (∀ as, (∀ a ∈ as, ∃ b, a = .emit b) → s.acks as.length →
      operationTime s.cfg s (State.runActions as s) = as.length * s.cfg.tSettle)

/-! ### Reset, STATUS and the invariant -/

/-- `rst` sampled asserted, from any state: the block takes its reset values, STATUS reads 0x0001, `req_ready` is 0, no request or text
write is taken, and TEXT's entries are unwritten (R33, R230). Before an EMIT, between two, or in a DELAY it adds no event and leaves
expander and controller alone; in a bus write the outcome is unknown and pins and controller are free values; after the write's
answer that write stands, its settle delay is abandoned and no result is written; a power-cycle leaves pins and controller at free
values (R70, R71, R231). The model's choices: COL and REQ 0, which R33 leaves open (log 7); where reset strikes is an input, and a cut
write is an event of its own (log 15). -/
def Obligations.ResetTakesEverything : Prop :=
  ∀ (s : State) (k : Strike) (p : Bool), s.rstIn.headD .run = .hold k p →
    ∃ t, step s = .next t ∧ t.rst = true ∧ t.status = 0x0001#16 ∧ t.reqReady = false ∧ t.initState = .sPowerOn ∧
      t.script = initScript s.cfg ∧ t.pc = 0 ∧ t.nsent = 0#8 ∧ t.text = [] ∧ t.col = 0 ∧ t.req = 0#12 ∧
      t.hostIn = s.hostIn ∧ t.cfg = s.cfg ∧ t.rstIn = s.rstIn.tail ∧ t.grain = s.grain ∧
      ((k = .before ∨ ∀ b, ¬ s.emitsNext b) →
        t.events = s.events ∧ t.answers = s.answers ∧ (p = false → t.lcd = s.lcd)) ∧
      (∀ b, k = .inWrite → s.emitsNext b →
        t.events = s.events ++ [.cutWrite s.cfg.lcdAddr b] ∧ t.answers = s.answers ∧
        (p = false → t.lcd.pins = Config.freePins s.draws ∧ t.lcd.ctl = Controller.free s.draws)) ∧
      (∀ b, k = .inSettle → s.emitsNext b →
        t.events = s.events ++ [.write s.cfg.lcdAddr b s.draw.answer] ∧ t.answers = s.answers.tail ∧
        (p = false → s.draw.answer = .ack → t.lcd = s.lcd.write s.cfg s.draws s.draw.late b) ∧
        (p = false → s.draw.answer = .fail → t.lcd.pins = Config.freePins s.draws ∧ t.lcd.ctl = Controller.free s.draws)) ∧
      (p = true → ∃ n, s.draws ≤ n ∧ t.lcd.pins = Config.freePins n ∧ t.lcd.ctl = Controller.free n)

/-- The machine right after reset holds the values of R33, and STATUS reads 0x0001 (R23, R33). -/
def Obligations.ResetStateValues : Prop :=
  State.reset.status = 0x0001#16 ∧ State.reset.busy = true ∧ State.reset.result = .ok ∧ State.reset.errIndex = 0#8 ∧
  State.reset.initState = .sPowerOn ∧ State.reset.script = initScript State.reset.cfg ∧ State.reset.pc = 0 ∧
  State.reset.nsent = 0#8 ∧ State.reset.text = [] ∧ State.reset.reqReady = false

/-- The invariant holds at reset (R27, R33). That COL and REQ, which R33 leaves open, are 0 under reset is the model's choice (log 7). -/
def Obligations.InvariantAtReset : Prop := State.reset.Inv

/-- Every step keeps the invariant: scripts of R83's forms with at most 252 EMITs and pc inside them, NSENT the count of EMITs executed,
RESULT and ERR_INDEX clear while BUSY, INIT_STATE following the INIT script, reset values under reset, TEXT and DDRAM in canonical form,
every bus event one the block may produce (R22 to R30, R82, R161, R185, R230). That COL and REQ are 0 under reset is the model's choice
(log 7), and DDRAM's canonical form the model's own. -/
def Obligations.EveryStepKeepsTheInvariant : Prop :=
  ∀ s t : State, s.Inv → step s = .next t → t.Inv

/-- No step faults or refuses in a state that meets the invariant: every operation and every error of the spec is a next state
(R52, R115, R203, R208). -/
def Obligations.NoStepStops : Prop :=
  ∀ s : State, s.Inv → ∀ k, s.safeFor k

/-- STATUS bit by bit: BUSY at 0, RESULT at 2:1, INIT at 4:3, zeros at 7:5, ERR_INDEX at 15:8, the codes 11 never; while BUSY = 1
RESULT and ERR_INDEX read 0 (R23, R24, R28). -/
def Obligations.StatusReadsItsFields : Prop :=
  (∀ s : State,
    s.status.extractLsb' 0 1 = BitVec.ofBool s.busy ∧
    (s.status.extractLsb' 1 2 = 0b00#2 ↔ s.result = .ok) ∧ (s.status.extractLsb' 1 2 = 0b01#2 ↔ s.result = .busError) ∧
    (s.status.extractLsb' 1 2 = 0b10#2 ↔ s.result = .refused) ∧
    (s.status.extractLsb' 3 2 = 0b00#2 ↔ s.initState.running = true) ∧
    (s.status.extractLsb' 3 2 = 0b01#2 ↔ s.initState = .ready) ∧ (s.status.extractLsb' 3 2 = 0b10#2 ↔ s.initState = .failed) ∧
    s.status.extractLsb' 5 3 = 0#3 ∧ s.status.extractLsb' 8 8 = s.errIndex) ∧
  (∀ s : State, s.Inv → s.busy = true → s.status.extractLsb' 1 2 = 0#2 ∧ s.status.extractLsb' 8 8 = 0#8)

/-! ### The text port -/

/-- A text write offered to an idle block at an index below TEXT_MAX: that entry reads as the byte, every other entry as before, and
nothing else changes but the inputs used up (R22, R64). -/
def Obligations.TextWriteIsTaken : Prop :=
  ∀ (s : State) (i : BitVec 6) (v : Byte) (rest : List HostIn), s.Inv → s.released → s.busy = false →
    s.hostIn = .text i v :: rest → i.toNat < s.cfg.textMax →
    ∃ m, step s = .next { s with rstIn := s.rstIn.tail, hostIn := rest, text := m } ∧ Memory.wf none m ∧
      Memory.lookup i.toNat m = some v ∧ ∀ j, j ≠ i.toNat → Memory.lookup j m = Memory.lookup j s.text

/-- A text write at an index of TEXT_MAX or above is taken and ignored (R64). -/
def Obligations.TextWriteOutOfRangeIsIgnored : Prop :=
  ∀ (s : State) (i : BitVec 6) (v : Byte) (rest : List HostIn), s.released → s.busy = false →
    s.hostIn = .text i v :: rest → s.cfg.textMax ≤ i.toNat →
    step s = .next { s with rstIn := s.rstIn.tail, hostIn := rest }

/-- Who writes what, over every step: the parameters and the grain never change; TEXT changes only by a text write of an idle block or
by reset; REQ only by an idle block's acceptance or by reset; no operation of the block writes TEXT (R7, R22, R30). -/
def Obligations.OnlyThePortsWriteTextAndReq : Prop :=
  ∀ s t : State, step s = .next t →
    t.cfg = s.cfg ∧ t.grain = s.grain ∧
    (t.text ≠ s.text → s.rstIn.headD .run ≠ .run ∨ (s.busy = false ∧ ∃ i v rest, s.hostIn = .text i v :: rest)) ∧
    (t.req ≠ s.req → s.rstIn.headD .run ≠ .run ∨ (s.busy = false ∧ ∃ w rest, s.hostIn = .request w :: rest))

/-! ### The environment behind the bus -/

/-- The environment never steers the block: from two states that differ only in the expander and the controller, a step stops alike or
gives two states that again differ in nothing else (R7, R32). -/
def Obligations.EnvironmentNeverSteersTheBlock : Prop :=
  ∀ (s : State) (l : Lcd),
    (∀ t, step s = .next t → ∃ l', step { s with lcd := l } = .next { t with lcd := l' }) ∧
    (∀ r, step s = .fault r → step { s with lcd := l } = .fault r)

/-- The controller latches when the enable line falls and at no other write: an enable-asserted byte and an enable-cleared one while EN is
low only set the pins. In 4-bit mode a latch that is not too early takes the payload as the high half, or executes the byte with the
register-select of this second latch; in 8-bit mode it is one whole instruction whose low lines are any value: payload 0x3 keeps 8-bit
mode, 0x2 selects 4-bit mode with PHASE high (over low lines 0x8 it is 0x28, with R75's line count and font), another command code has
its effect of R75, and register-select 1 writes a character (R71, R72, R73, R74, R75). Rests on general knowledge the spec marks (log 29); that the first latch of a byte begins no instruction is the model's choice
(log 13), as is what an 8-bit-mode latch does beyond R74 (log 14). -/
def Obligations.ControllerLatchesWhenEnableFalls : Prop :=
  ∀ (c : Cfg) (n : Nat) (late rs : Bool) (p : Nibble) (l : Lcd), c.Wf →
    l.write c n late (transportByte c p rs true) = { l with pins := transportByte c p rs true } ∧
    (lineSet c.enMask l.pins = false →
      l.write c n late (transportByte c p rs false) = { l with pins := transportByte c p rs false }) ∧
    (lineSet c.enMask l.pins = true → l.executing = false ∨ late = false →
      let t := l.write c n late (transportByte c p rs false)
      let low := Config.freeLowLines n
      t.pins = transportByte c p rs false ∧
      (l.ctl.mode = .fourBit → l.ctl.phase = .high →
        t.executing = false ∧ t.ctl = { l.ctl with hi := p, phase := .low }) ∧
      (l.ctl.mode = .fourBit → l.ctl.phase = .low →
        t.executing = true ∧ t.ctl = Controller.execByte n rs (l.ctl.hi ++ p) { l.ctl with phase := .high }) ∧
      (l.ctl.mode = .eightBit →
        t.executing = true ∧
        (rs = false → p = 0x3#4 → t.ctl = { l.ctl with twoLine := low.getLsbD 3, font5x8 := !low.getLsbD 2 }) ∧
        (rs = false → p = 0x2#4 →
          t.ctl = { l.ctl with mode := .fourBit, phase := .high, twoLine := low.getLsbD 3, font5x8 := !low.getLsbD 2 }) ∧
        (rs = false → p = 0x2#4 → low = 0x8#4 →
          t.ctl = { l.ctl with mode := .fourBit, phase := .high, twoLine := true, font5x8 := true }) ∧
        (rs = false → p ≠ 0x3#4 → p ≠ 0x2#4 → t.ctl = l.ctl.command n (p ++ low)) ∧
        (rs = true → t.ctl = l.ctl.character n (p ++ low))))

/-- A code sent whole to a controller in 4-bit mode with PHASE high, every write acknowledged and none too early, is executed as that
very code with its register-select, PHASE ending high (R54, R73, R140), and may still be executing (log 13). Rests on general knowledge
the spec marks. -/
def Obligations.CodesReachTheController : Prop :=
  ∀ (s : State) (v : Byte) (rs : Bool), s.cfg.Wf → s.acks 4 → s.prompt 4 → s.inStep →
    (State.runActions (sendCode s.cfg v rs) s).lcd.ctl =
      Controller.execByte (s.draws + 3) rs v { s.lcd.ctl with hi := hiNibble v, phase := .high } ∧
    (State.runActions (sendCode s.cfg v rs) s).lcd.executing = true

/-- The command codes executed by a controller in step with the block have the effects of R75, and any other code sent as a command leaves
the controller any value (R75, U4), if no byte comes too early (log 13). Rests on general knowledge the spec marks. -/
def Obligations.CommandCodesHaveTheirEffects : Prop :=
  ∀ s : State, s.cfg.Wf → s.acks 4 → s.prompt 4 → s.inStep →
    (∃ t, exec .functionSet s = .next t ∧
      t.lcd.ctl = { s.lcd.ctl with hi := 0x2#4, mode := .fourBit, twoLine := true, font5x8 := true }) ∧
    (∃ t, exec .displayControl s = .next t ∧
      t.lcd.ctl = { s.lcd.ctl with hi := 0x0#4, displayOn := true, cursorOn := false, blinkOn := false }) ∧
    (∃ t, exec .clearDisplay s = .next t ∧
      t.lcd.ctl = { s.lcd.ctl with hi := 0x0#4, ac := 0, fill := .byte 0x20#8, ddram := [] } ∧
      ∀ a, t.lcd.ctl.cell a = 0x20#8) ∧
    (∃ t, exec .entryMode s = .next t ∧
      t.lcd.ctl = { s.lcd.ctl with hi := 0x0#4, increment := true, shift := false }) ∧
    (∃ t, exec .setDdramRow2 s = .next t ∧ t.lcd.ctl = { s.lcd.ctl with hi := 0xC#4, ac := 0x40 }) ∧
    (∀ v : Byte, v ∉ [0x28#8, 0x0C#8, 0x01#8, 0x06#8, 0xC0#8] →
      (State.runActions (sendCode s.cfg v false) s).lcd.ctl = Controller.free (s.draws + 3))

/-- The recovery of R74 from any prior state: three reset nibbles, each with its wait, then the 4-bit-switch nibble, all acknowledged,
leave the controller in 4-bit mode with PHASE high, whatever it was and however slow it is. Rests on how the recovery latches are counted
and on the wait's effect (log 11, 12), on what payload 0x2 does in 8-bit mode (PRESUMED, log 14), and on general knowledge the spec marks
(log 29). -/
def Obligations.RecoveryReachesFourBitMode : Prop :=
  ∀ s : State, s.cfg.Wf → s.acks 8 →
    ∃ t, execAll [.resetNibble, .resetNibble, .resetNibble, .fourbitNibble] s = .next t ∧
      t.lcd.ctl.mode = .fourBit ∧ t.lcd.ctl.phase = .high ∧ t.lcd.executing = false

/-- INIT with every write acknowledged and no byte too early (log 13) brings the display from any prior state to 4-bit, 2-line, 5x8 font,
display on, cursor and blink off, increment without shift, address 0 and every cell blank (R74, R75, R234). Rests on log 11 and 12, on
what payload 0x2 does in 8-bit mode (PRESUMED, log 14), and on general knowledge the spec marks (log 29). -/
def Obligations.InitPreparesTheDisplay : Prop :=
  ∀ s : State, s.cfg.Wf → s.acks 24 → s.prompt 24 →
    let k := (State.runActions (initScript s.cfg) s).lcd.ctl
    k.mode = .fourBit ∧ k.phase = .high ∧ k.twoLine = true ∧ k.font5x8 = true ∧
    k.displayOn = true ∧ k.cursorOn = false ∧ k.blinkOn = false ∧ k.increment = true ∧ k.shift = false ∧
    k.ac = 0 ∧ ∀ row2 col, Lcd.screen (State.runActions (initScript s.cfg) s).lcd row2 col = 0x20#8

/-- Clear, then a line of at most 16 characters: the line stands at row one, column one, whatever the cursor was, the rest of both rows is
blank, and the address counter stands after it (R75, R76, R77, R186; the source's idempotence property). Takes as a premise that no byte
reaches the controller too early (R238, log 13), and rests on general knowledge the spec marks (log 29). Longer lines:
LongLinesContinueOnRowTwo. -/
def Obligations.ClearThenTextStartsAtColumnOne : Prop :=
  ∀ (s : State) (vs : List Byte), s.cfg.Wf → vs.length ≤ 16 →
    s.acks (4 + 4 * vs.length) → s.prompt (4 + 4 * vs.length) →
    s.inStep → s.lcd.ctl.increment = true → s.lcd.ctl.shift = false →
    let t := State.runActions (sendCode s.cfg 0x01#8 false ++ (renderLoop s.cfg 0 vs).1) s
    t.lcd.ctl.ac = vs.length ∧
    (∀ j (v : Byte), vs[j]? = some v → t.lcd.screen false j = classify v) ∧
    (∀ j, vs.length ≤ j → j < 16 → t.lcd.screen false j = 0x20#8) ∧
    (∀ j, j < 16 → t.lcd.screen true j = 0x20#8)

/-- A failed write leaves the expander's pins and the controller at free values, so every cell of the screen (R71, R236, U2), and the
recovery count forgets what came before (the model's choice, log 11). -/
def Obligations.FailedWriteLeavesTheDisplayUnknown : Prop :=
  ∀ (s : State) (b : Byte), s.draw.answer = .fail →
    (s.emit b).lcd.pins = Config.freePins s.draws ∧ (s.emit b).lcd.ctl = Controller.free s.draws ∧
    (s.emit b).lcd.resetRuns = 0 ∧
    ∀ row2 col, (s.emit b).lcd.screen row2 col = Config.freeDdram s.draws (screenAddr row2 col)

/-! ### An idle block -/

/-- A step of an idle block whose host makes no move changes nothing but the inputs it uses up (the model's choice of how the host's
moves are held, log 16; R117 has no step there). -/
def Obligations.IdleStepsChangeNothing : Prop :=
  ∀ s : State, s.released → s.busy = false → (∀ m rest, s.hostIn = m :: rest → m = .idle) →
    step s = .next { s with rstIn := s.rstIn.tail, hostIn := s.hostIn.tail }

/-! ### More of the environment -/

/-- A latch that reaches a controller still executing an instruction leaves it any value, its mode, phase and every column of the screen
with it, while the write itself and the pins are as ever (R78, R238). That a draw says whether a latch is so early is the model's choice
(log 13). -/
def Obligations.LateLatchLeavesTheControllerUnknown : Prop :=
  ∀ (s : State) (p : Nibble) (i : Instr) (b : Byte), s.cfg.DefaultMasks →
    (i, b) ∈ [(Instr.tbCmdLo p, p ++ 0x8#4), (.tbDataLo p, p ++ 0x9#4)] →
    lineSet s.cfg.enMask s.lcd.pins = true → s.lcd.executing = true → s.draw.answer = .ack → s.draw.late = true →
    ∃ t, exec i s = .next t ∧ t.lcd.pins = b ∧ t.lcd.ctl = Controller.free s.draws ∧ t.lcd.executing = true ∧
      t.events = s.events ++ writeEvents s.cfg b .ack ∧
      ∀ row2 col, t.lcd.screen row2 col = Config.freeDdram s.draws (screenAddr row2 col)

/-- A character code sent to a controller in step with the block, no byte too early (log 13): it is stored at `DDRAM[AC]` and, with entry
mode 0x06, AC goes up by one, whatever AC was (R76). Below address 0x50 every other byte of DDRAM stays; from 0x50 on every other byte,
and so all the screen shows, is a free value (R77, U3). The model's choices: AC has no width (log 10), the bytes beside the screen are
free too (log 27), and AC in another entry mode is a free value (log 27). How nibbles pair is general knowledge the spec marks (log 29). -/
def Obligations.CharacterWritesStoreAndAdvance : Prop :=
  ∀ (s : State) (v : Byte), s.cfg.Wf → s.LcdInv → s.acks 4 → s.prompt 4 → s.inStep →
    let k := s.lcd.ctl
    let t := (State.runActions (sendCode s.cfg v true) s).lcd.ctl
    t.cell k.ac = v ∧
    (k.increment = true → k.shift = false → t.ac = k.ac + 1) ∧
    (k.increment = false ∨ k.shift = true → t.ac = Config.freeAc (s.draws + 3)) ∧
    (k.ac < 0x50 → ∀ a, a ≠ k.ac → t.cell a = k.cell a) ∧
    (0x50 ≤ k.ac → ∀ a, a ≠ k.ac → t.cell a = Config.freeDdram (s.draws + 3) a) ∧
    t = { k with hi := hiNibble v, ac := t.ac, fill := t.fill, ddram := t.ddram }

/-- Clear, then a line of 17 characters or more: row one shows the first 16; the rest, without TEXT[16] when that is a space, stands on
row two from its first column, the columns after it blank, and the address counter stands after it. Where the rest has more than 16
characters, the columns of both rows show free values (R75, R76, R77, R183, R184, U3). Takes as a premise that no byte reaches the
controller too early (R238, log 13), and rests on general knowledge the spec marks (log 29). The model's choices: the address counter
has no width, so that it is 0x40 plus the rest's length for a rest of any length, past column 16 of row two as well (log 10); the overflow
leaves both rows any value (log 27). -/
def Obligations.LongLinesContinueOnRowTwo : Prop :=
  ∀ (s : State) (vs : List Byte), s.cfg.Wf → 17 ≤ vs.length →
    let sc := sendCode s.cfg 0x01#8 false ++ (renderLoop s.cfg 0 vs).1
    s.acks (emitted sc).length → s.prompt (emitted sc).length →
    s.inStep → s.lcd.ctl.increment = true → s.lcd.ctl.shift = false →
    let t := State.runActions sc s
    let rest := if vs[16]? = some 0x20#8 then vs.drop 17 else vs.drop 16
    t.lcd.ctl.ac = 0x40 + rest.length ∧
    (rest.length ≤ 16 →
      (∀ j (v : Byte), j < 16 → vs[j]? = some v → t.lcd.screen false j = classify v) ∧
      (∀ j (v : Byte), rest[j]? = some v → t.lcd.screen true j = classify v) ∧
      (∀ j, rest.length ≤ j → j < 16 → t.lcd.screen true j = 0x20#8)) ∧
    (16 < rest.length →
      ∃ n, s.draws ≤ n ∧ ∀ row2 j, j < 16 → t.lcd.screen row2 j = Config.freeDdram n (screenAddr row2 j))
end

