-- ==== Sys2Proof/Laws/Encoding.lean ====
section
/-! SUPPORT. What the encodings of 30_encoding.md do: the fields of a transport byte, the four forms apart, the request word's
fields. -/

namespace Sys2Proof

/-! ### Fields of a byte -/

theorem byte_eq_payload_control (b : Byte) : payloadOf b ++ controlOf b = b := by
  revert b
  decide

@[simp] theorem payloadOf_append (p q : Nibble) : payloadOf (p ++ q) = p := by
  revert p q
  decide

@[simp] theorem controlOf_append (p q : Nibble) : controlOf (p ++ q) = q := by
  revert p q
  decide

theorem transportByte_eq_append (c : Cfg) (p : Nibble) (rs en : Bool) :
    transportByte c p rs en = p ++ controlNibble c rs en := by
  unfold transportByte
  generalize controlNibble c rs en = q
  revert p q
  decide

@[simp] theorem payloadOf_transportByte (c : Cfg) (p : Nibble) (rs en : Bool) :
    payloadOf (transportByte c p rs en) = p := by
  rw [transportByte_eq_append, payloadOf_append]

@[simp] theorem controlOf_transportByte (c : Cfg) (p : Nibble) (rs en : Bool) :
    controlOf (transportByte c p rs en) = controlNibble c rs en := by
  rw [transportByte_eq_append, controlOf_append]

/-- A byte is a transport byte once its low nibble is one of R83's. -/
theorem eq_transportByte_of_control {c : Cfg} {b : Byte} {rs en : Bool}
    (h : controlOf b = controlNibble c rs en) : b = transportByte c (payloadOf b) rs en := by
  rw [transportByte_eq_append, ← h, byte_eq_payload_control]

/-! ### The four forms -/

theorem Cfg.Wf.textMax_le {c : Cfg} (h : c.Wf) : c.textMax ≤ 62 := h.2.2.1

/-- The four masks are four distinct single bits. -/
theorem Cfg.Wf.masks {c : Cfg} (h : c.Wf) {P : Nibble → Nibble → Nibble → Nibble → Prop}
    (hP : ∀ rs ∈ [1#4, 2#4, 4#4, 8#4], ∀ rw ∈ [1#4, 2#4, 4#4, 8#4], ∀ en ∈ [1#4, 2#4, 4#4, 8#4],
      ∀ bl ∈ [1#4, 2#4, 4#4, 8#4], [rs, rw, en, bl].Nodup → P rs rw en bl) :
    P c.rsMask c.rwMask c.enMask c.blMask := by
  obtain ⟨⟨h1, h2, h3, h4⟩, hd, -⟩ := h
  exact hP _ (by simpa [IsMaskBit] using h1) _ (by simpa [IsMaskBit] using h2) _ (by simpa [IsMaskBit] using h3)
    _ (by simpa [IsMaskBit] using h4) hd

/-- The low nibble tells register-select and enable apart (R83). -/
theorem controlNibble_inj {c : Cfg} (h : c.Wf) {rs en rs' en' : Bool} :
    controlNibble c rs en = controlNibble c rs' en' ↔ rs = rs' ∧ en = en' := by
  unfold controlNibble ctrl
  refine h.masks (P := fun a _ e b => ((b ||| if rs then a else 0#4) ||| if en then e else 0#4) =
    ((b ||| if rs' then a else 0#4) ||| if en' then e else 0#4) ↔ rs = rs' ∧ en = en') ?_
  cases rs <;> cases en <;> cases rs' <;> cases en' <;> decide

/-- The control lines of a transport byte (R80, R82). -/
theorem controlNibble_lines {c : Cfg} (h : c.Wf) (rs en : Bool) :
    controlNibble c rs en &&& c.blMask ≠ 0#4 ∧ controlNibble c rs en &&& c.rwMask = 0#4 ∧
    (controlNibble c rs en &&& c.enMask != 0#4) = en ∧ (controlNibble c rs en &&& c.rsMask != 0#4) = rs := by
  unfold controlNibble ctrl
  refine h.masks (P := fun a w e b =>
    ((b ||| if rs then a else 0#4) ||| if en then e else 0#4) &&& b ≠ 0#4 ∧
    ((b ||| if rs then a else 0#4) ||| if en then e else 0#4) &&& w = 0#4 ∧
    (((b ||| if rs then a else 0#4) ||| if en then e else 0#4) &&& e != 0#4) = en ∧
    (((b ||| if rs then a else 0#4) ||| if en then e else 0#4) &&& a != 0#4) = rs) ?_
  cases rs <;> cases en <;> decide

/-- With the default masks the low nibbles are 0xC, 0x8, 0xD and 0x9 (R83). -/
theorem controlNibble_default {c : Cfg} (h : c.DefaultMasks) (rs en : Bool) :
    controlNibble c rs en = (if rs then (if en then 0xD#4 else 0x9#4) else (if en then 0xC#4 else 0x8#4)) := by
  obtain ⟨h1, -, h3, h4⟩ := h
  unfold controlNibble ctrl
  rw [h1, h3, h4]
  revert rs en
  decide

/-- The form whose register-select and enable are `rs` and `en` (R83). -/
def tbForm (p : Nibble) : Bool → Bool → Instr
  | false, true => .tbCmdHi p
  | false, false => .tbCmdLo p
  | true, true => .tbDataHi p
  | true, false => .tbDataLo p

theorem decodeTb_transportByte {c : Cfg} (h : c.Wf) (p : Nibble) (rs en : Bool) :
    decodeTb c (transportByte c p rs en) = .ok (tbForm p rs en) := by
  unfold decodeTb
  simp only [controlOf_transportByte, payloadOf_transportByte, controlNibble_inj h]
  cases rs <;> cases en <;> simp [tbForm]

/-- What the transport-byte decoder accepts, it accepts as the form of that very byte. -/
theorem decodeTb_ok {c : Cfg} {b : Byte} {i : Instr} (h : decodeTb c b = .ok i) :
    ∃ p rs en, b = transportByte c p rs en ∧ i = tbForm p rs en := by
  unfold decodeTb at h
  split at h
  · exact ⟨_, false, true, eq_transportByte_of_control ‹_›, by simpa [tbForm] using h.symm⟩
  split at h
  · exact ⟨_, false, false, eq_transportByte_of_control ‹_›, by simpa [tbForm] using h.symm⟩
  split at h
  · exact ⟨_, true, true, eq_transportByte_of_control ‹_›, by simpa [tbForm] using h.symm⟩
  split at h
  · exact ⟨_, true, false, eq_transportByte_of_control ‹_›, by simpa [tbForm] using h.symm⟩
  · cases h

/-! ### The request word -/

@[simp] theorem reqWord_op (op : Nibble) (arg : Byte) : (reqWord op arg).extractLsb' 8 4 = op := by
  apply BitVec.eq_of_getLsbD_eq
  intro i hi
  rw [BitVec.getLsbD_extractLsb']
  unfold reqWord
  erw [BitVec.getLsbD_append]
  simp [hi]

@[simp] theorem reqWord_arg (op : Nibble) (arg : Byte) : (reqWord op arg).extractLsb' 0 8 = arg := by
  apply BitVec.eq_of_getLsbD_eq
  intro i hi
  rw [BitVec.getLsbD_extractLsb']
  unfold reqWord
  erw [BitVec.getLsbD_append]
  simp [hi]

/-- A request word is its opcode and argument put back together (R90). -/
theorem reqWord_fields (w : ReqWord) : reqWord (w.extractLsb' 8 4) (w.extractLsb' 0 8) = w := by
  unfold reqWord
  apply BitVec.eq_of_getLsbD_eq
  intro i hi
  rw [BitVec.getLsbD_append]
  split
  · simp [*]
  · have h8 : 8 + (i - 8) = i := by omega
    have h4 : i - 8 < 4 := by omega
    simp [h8, h4]

end Sys2Proof

namespace Sys2Proof.Machine

@[simp] theorem hiNibble_append (p q : Nibble) : hiNibble (p ++ q) = p := payloadOf_append p q

@[simp] theorem loNibble_append (p q : Nibble) : loNibble (p ++ q) = q := controlOf_append p q

/-- The two payloads together reassemble the code (R141). -/
theorem nibbles_append (v : Byte) : hiNibble v ++ loNibble v = v := byte_eq_payload_control v

end Sys2Proof.Machine
end

