-- ==== Sys2Proof/Laws/Memory.lean ====
section
/-! SUPPORT. The laws of byte memory: a read after a write, and that a write keeps the canonical form. -/

namespace Sys2Proof.Machine

theorem Memory.lookup_insert (m : Memory) (a b : Nat) (v : Byte) :
    Memory.lookup b (Memory.insert a v m) = if b = a then some v else Memory.lookup b m := by
  induction m with
  | nil =>
    by_cases h : b = a
    · simp [Memory.insert, Memory.lookup, h]
    · have h' : ¬ a = b := fun e => h e.symm
      simp [Memory.insert, Memory.lookup, h, h']
  | cons x m ih =>
    unfold Memory.insert
    split
    · by_cases h : b = a
      · simp [Memory.lookup, h]
      · have h' : ¬ a = b := fun e => h e.symm
        simp [Memory.lookup, h, h']
    · split
      · rename_i _ h
        subst h
        by_cases h : b = x.1
        · simp [Memory.lookup, h]
        · have h' : ¬ x.1 = b := fun e => h e.symm
          simp [Memory.lookup, h, h']
      · rename_i _ h
        simp only [Memory.lookup, ih]
        by_cases h1 : x.1 = b
        · have : ¬ b = a := by omega
          simp [h1, this]
        · simp [h1]

theorem Memory.lookup_eq_none_of_lt {m : Memory} {a : Nat} (h : ∀ x ∈ m, a < x.1) : Memory.lookup a m = none := by
  induction m with
  | nil => rfl
  | cons x m ih =>
    have hx : ¬ x.1 = a := by have := h x (by simp); omega
    simp only [Memory.lookup, hx, if_false]
    exact ih fun y hy => h y (by simp [hy])

theorem Memory.lookup_erase {m : Memory} (hm : m.Pairwise (fun x y => x.1 < y.1)) (a b : Nat) :
    Memory.lookup b (Memory.erase a m) = if b = a then none else Memory.lookup b m := by
  induction m with
  | nil => simp [Memory.erase, Memory.lookup]
  | cons x m ih =>
    obtain ⟨hx, hm⟩ := List.pairwise_cons.1 hm
    unfold Memory.erase
    split
    · rename_i h
      subst h
      by_cases hb : b = x.1
      · subst hb
        rw [if_pos rfl]
        exact Memory.lookup_eq_none_of_lt hx
      · have hb' : ¬ x.1 = b := fun e => hb e.symm
        simp [Memory.lookup, hb, hb']
    · rename_i h
      simp only [Memory.lookup, ih hm]
      by_cases h1 : x.1 = b
      · have : ¬ b = a := by omega
        simp [h1, this]
      · simp [h1]

/-- A read after a write: the written byte at its own address, what stood there before at every other. -/
theorem Memory.read_write {d : Option Byte} {m : Memory} (hm : Memory.wf d m) (a b : Nat) (v : Byte) :
    Memory.read d (Memory.write d m a v) b = if b = a then some v else Memory.read d m b := by
  unfold Memory.write Memory.read
  split
  · rename_i h
    rw [Memory.lookup_erase hm.1]
    by_cases hb : b = a <;> simp [hb, ← h]
  · rw [Memory.lookup_insert]
    by_cases hb : b = a <;> simp [hb]

theorem Memory.mem_insert {m : Memory} {a : Nat} {v : Byte} {x : Host.Cell} (h : x ∈ Memory.insert a v m) :
    x = (a, v) ∨ x ∈ m := by
  induction m with
  | nil => simpa [Memory.insert] using h
  | cons y m ih =>
    unfold Memory.insert at h
    split at h
    · simpa using h
    · split at h
      · simp only [List.mem_cons] at h ⊢
        tauto
      · simp only [List.mem_cons] at h ⊢
        rcases h with h | h
        · exact .inr (.inl h)
        · have := ih h
          tauto

theorem Memory.mem_erase {m : Memory} {a : Nat} {x : Host.Cell} (h : x ∈ Memory.erase a m) : x ∈ m := by
  induction m with
  | nil => simp [Memory.erase] at h
  | cons y m ih =>
    unfold Memory.erase at h
    split at h
    · simp [h]
    · simp only [List.mem_cons] at h ⊢
      rcases h with h | h
      · exact .inl h
      · exact .inr (ih h)

/-- An entry after a write is the written one or was there before. -/
theorem Memory.mem_write {d : Option Byte} {m : Memory} {a : Nat} {v : Byte} {x : Host.Cell}
    (h : x ∈ Memory.write d m a v) : x = (a, v) ∨ x ∈ m := by
  unfold Memory.write at h
  split at h
  · exact .inr (Memory.mem_erase h)
  · exact Memory.mem_insert h

theorem Memory.sorted_insert {m : Memory} (hm : m.Pairwise (fun x y => x.1 < y.1)) (a : Nat) (v : Byte) :
    (Memory.insert a v m).Pairwise (fun x y => x.1 < y.1) := by
  induction m with
  | nil => simp [Memory.insert]
  | cons y m ih =>
    obtain ⟨hy, hm⟩ := List.pairwise_cons.1 hm
    unfold Memory.insert
    split
    · rename_i h
      refine List.pairwise_cons.2 ⟨?_, List.pairwise_cons.2 ⟨hy, hm⟩⟩
      intro z hz
      rcases List.mem_cons.1 hz with rfl | hz
      · exact h
      · exact Nat.lt_trans h (hy z hz)
    · split
      · rename_i _ h
        subst h
        exact List.pairwise_cons.2 ⟨hy, hm⟩
      · refine List.pairwise_cons.2 ⟨?_, ih hm⟩
        intro z hz
        rcases Memory.mem_insert hz with rfl | hz
        · show y.1 < a
          omega
        · exact hy z hz

theorem Memory.sorted_erase {m : Memory} (hm : m.Pairwise (fun x y => x.1 < y.1)) (a : Nat) :
    (Memory.erase a m).Pairwise (fun x y => x.1 < y.1) := by
  induction m with
  | nil => simp [Memory.erase]
  | cons y m ih =>
    obtain ⟨hy, hm⟩ := List.pairwise_cons.1 hm
    unfold Memory.erase
    split
    · exact hm
    · exact List.pairwise_cons.2 ⟨fun z hz => hy z (Memory.mem_erase hz), ih hm⟩

/-- A write keeps the canonical form. -/
theorem Memory.write_wf {d : Option Byte} {m : Memory} (hm : Memory.wf d m) (a : Nat) (v : Byte) :
    Memory.wf d (Memory.write d m a v) := by
  unfold Memory.write
  split
  · exact ⟨Memory.sorted_erase hm.1 a, fun x hx => hm.2 x (Memory.mem_erase hx)⟩
  · rename_i h
    refine ⟨Memory.sorted_insert hm.1 a v, fun x hx => ?_⟩
    rcases Memory.mem_insert hx with rfl | hx
    · exact h
    · exact hm.2 x hx

/-- Two memories in canonical form that read alike everywhere are the same list. -/
theorem Memory.ext_of_lookup {m m' : Memory} (hm : m.Pairwise (fun x y => x.1 < y.1))
    (hm' : m'.Pairwise (fun x y => x.1 < y.1)) (h : ∀ a, Memory.lookup a m = Memory.lookup a m') : m = m' := by
  induction m generalizing m' with
  | nil =>
    cases m' with
    | nil => rfl
    | cons y _ => simpa [Memory.lookup] using h y.1
  | cons x m ih =>
    obtain ⟨hx, hm⟩ := List.pairwise_cons.1 hm
    cases m' with
    | nil => simpa [Memory.lookup] using h x.1
    | cons y m' =>
      obtain ⟨hy, hm''⟩ := List.pairwise_cons.1 hm'
      have hxy : x.1 = y.1 := by
        rcases Nat.lt_trichotomy x.1 y.1 with hlt | heq | hgt
        · have := h x.1
          rw [Memory.lookup_eq_none_of_lt (m := y :: m')
            (by intro z hz; rcases List.mem_cons.1 hz with rfl | hz
                · exact hlt
                · exact Nat.lt_trans hlt (hy z hz))] at this
          simp [Memory.lookup] at this
        · exact heq
        · have := h y.1
          rw [Memory.lookup_eq_none_of_lt (m := x :: m)
            (by intro z hz; rcases List.mem_cons.1 hz with rfl | hz
                · exact hgt
                · exact Nat.lt_trans hgt (hx z hz))] at this
          simp [Memory.lookup] at this
      have hv : x = y := by
        have := h x.1
        simp only [Memory.lookup, hxy, if_true, Option.some.injEq] at this
        exact Prod.ext hxy this
      subst hv
      congr 1
      refine ih hm hm'' fun a => ?_
      by_cases ha : x.1 = a
      · subst ha
        rw [Memory.lookup_eq_none_of_lt hx, Memory.lookup_eq_none_of_lt hy]
      · simpa [Memory.lookup, ha] using h a

end Sys2Proof.Machine
end

