-- ==== Sys2Proof/Laws/Lcd.lean ====
section
/-! SUPPORT. What the environment model can do: control lines of a transport byte, and that its display memory stays canonical. -/

namespace Sys2Proof.Machine

/-! ### Control lines -/

theorem lineSet_en {c : Cfg} (h : c.Wf) (p : Nibble) (rs en : Bool) :
    lineSet c.enMask (transportByte c p rs en) = en := by
  unfold lineSet
  rw [controlOf_transportByte]
  exact (controlNibble_lines h rs en).2.2.1

theorem lineSet_rs {c : Cfg} (h : c.Wf) (p : Nibble) (rs en : Bool) :
    lineSet c.rsMask (transportByte c p rs en) = rs := by
  unfold lineSet
  rw [controlOf_transportByte]
  exact (controlNibble_lines h rs en).2.2.2

/-- An enable-asserted byte latches nothing (R72). -/
theorem Lcd.write_hi {c : Cfg} (h : c.Wf) (n : Nat) (late : Bool) (p : Nibble) (rs : Bool) (l : Lcd) :
    l.write c n late (transportByte c p rs true) = { l with pins := transportByte c p rs true } := by
  simp [Lcd.write, lineSet_en h]

/-- An enable-cleared byte while EN is low latches nothing (R72). -/
theorem Lcd.write_low {c : Cfg} (n : Nat) (late : Bool) (p : Nibble) (rs : Bool) (l : Lcd)
    (hp : lineSet c.enMask l.pins = false) :
    l.write c n late (transportByte c p rs false) = { l with pins := transportByte c p rs false } := by
  simp [Lcd.write, hp]

/-- An enable-cleared byte while EN is high makes the controller latch (R71, R72). -/
theorem Lcd.write_fall {c : Cfg} (h : c.Wf) (n : Nat) (late : Bool) (p : Nibble) (rs : Bool) (l : Lcd)
    (hp : lineSet c.enMask l.pins = true) :
    l.write c n late (transportByte c p rs false) =
      ({ l with pins := transportByte c p rs false } : Lcd).latch n late rs p := by
  simp [Lcd.write, lineSet_en h, lineSet_rs h, hp]

/-- An enable-cleared byte after its enable-asserted one makes the controller latch (R71, R72). -/
theorem Lcd.write_lo {c : Cfg} (h : c.Wf) (n : Nat) (late : Bool) (p q : Nibble) (rs rs' : Bool) (l : Lcd)
    (hp : l.pins = transportByte c q rs' true) :
    l.write c n late (transportByte c p rs false) =
      ({ l with pins := transportByte c p rs false } : Lcd).latch n late rs p :=
  Lcd.write_fall h n late p rs l (by rw [hp, lineSet_en h])

/-! ### Latching -/

@[simp] theorem Lcd.countLatch_ctl (l : Lcd) (rs : Bool) (d : Nibble) : (l.countLatch rs d).ctl = l.ctl := by
  unfold Lcd.countLatch; split <;> rfl

@[simp] theorem Lcd.countLatch_pins (l : Lcd) (rs : Bool) (d : Nibble) : (l.countLatch rs d).pins = l.pins := by
  unfold Lcd.countLatch; split <;> rfl

@[simp] theorem Lcd.latch_pins (n : Nat) (late rs : Bool) (d : Nibble) (l : Lcd) : (l.latch n late rs d).pins = l.pins := by
  simp only [Lcd.latch]; split <;> simp

/-- A latch that does not come too early is the controller's own (R73). -/
theorem Lcd.latch_of_prompt {l : Lcd} {late : Bool} (h : l.executing = false ∨ late = false) (n : Nat) (rs : Bool)
    (d : Nibble) :
    (l.latch n late rs d).ctl = (l.ctl.latch n rs d).1 ∧ (l.latch n late rs d).executing = (l.ctl.latch n rs d).2 := by
  have hn : ¬ (l.executing = true ∧ late = true) := by rcases h with h | h <;> simp [h]
  simp [Lcd.latch, hn]

/-- In 8-bit mode payload 0x2 over low lines 0x8 is the byte 0x28, with the effect R75 gives that code (R73, R74). -/
theorem Controller.latch8_functionSet {n : Nat} (h : Config.freeLowLines n = 0x8#4) (k : Controller) :
    k.latch8 n false 0x2#4 = { k.functionSet with phase := .high } := by
  simp only [Controller.latch8, h]
  rfl

/-- What a latch leaves of the recovery count (R74). -/
theorem Lcd.latch_count (n : Nat) (late rs : Bool) (d : Nibble) (l : Lcd) :
    (l.latch n late rs d).resetRuns = (l.countLatch rs d).resetRuns ∧
    (l.latch n late rs d).resetWait = (l.countLatch rs d).resetWait := by
  simp only [Lcd.latch]; split <;> exact ⟨rfl, rfl⟩

/-- A latch that comes while the controller is executing leaves it any value (R78). -/
theorem Lcd.latch_of_late {l : Lcd} (h : l.executing = true) (n : Nat) (rs : Bool) (d : Nibble) :
    (l.latch n true rs d).ctl = Controller.free n ∧ (l.latch n true rs d).executing = true := by
  simp [Lcd.latch, h]

/-! ### The display memory -/

/-- DDRAM in canonical form. -/
abbrev Controller.DdramOk (k : Controller) : Prop := Memory.wf k.fill.known k.ddram

theorem Memory.wf_nil (d : Option Byte) : Memory.wf d [] := ⟨List.Pairwise.nil, by simp⟩

theorem Controller.free_ddramOk (n : Nat) : (Controller.free n).DdramOk := Memory.wf_nil _

theorem Controller.store_ddramOk {k : Controller} (h : k.DdramOk) (n : Nat) (v : Byte) : (k.store n v).DdramOk := by
  unfold Controller.store
  split
  · exact Memory.write_wf h _ _
  · exact Memory.write_wf (Memory.wf_nil _) _ _

theorem Controller.advance_ddramOk {k : Controller} (h : k.DdramOk) (n : Nat) : (k.advance n).DdramOk := by
  unfold Controller.advance
  split <;> exact h

theorem Controller.character_ddramOk {k : Controller} (h : k.DdramOk) (n : Nat) (v : Byte) :
    (k.character n v).DdramOk :=
  Controller.advance_ddramOk (Controller.store_ddramOk h n v) n

theorem Controller.command_ddramOk {k : Controller} (h : k.DdramOk) (n : Nat) (v : Byte) : (k.command n v).DdramOk := by
  unfold Controller.command
  split
  · exact h
  split
  · exact h
  split
  · exact Memory.wf_nil _
  split
  · exact h
  split
  · exact h
  · exact Controller.free_ddramOk n

theorem Controller.latch_ddramOk {k : Controller} (h : k.DdramOk) (n : Nat) (rs : Bool) (d : Nibble) :
    (k.latch n rs d).1.DdramOk := by
  unfold Controller.latch
  split
  · show (k.latch8 n rs d).DdramOk
    simp only [Controller.latch8]
    split
    · exact Controller.character_ddramOk h n _
    split
    · exact h
    split
    · exact h
    · exact Controller.command_ddramOk h n _
  · exact h
  · show Controller.DdramOk (Controller.execByte n rs (k.hi ++ d) { k with phase := .high })
    unfold Controller.execByte
    split
    · exact Controller.character_ddramOk (k := { k with phase := .high }) h n _
    · exact Controller.command_ddramOk (k := { k with phase := .high }) h n _

theorem Lcd.latch_ddramOk {l : Lcd} (h : l.ctl.DdramOk) (n : Nat) (late rs : Bool) (d : Nibble) :
    (l.latch n late rs d).ctl.DdramOk := by
  unfold Lcd.latch
  split
  · exact Controller.free_ddramOk n
  · exact Controller.latch_ddramOk h n rs d

/-- A byte of a cell listed nowhere is the fill's. -/
@[simp] theorem Controller.cell_nil (k : Controller) (a : Nat) (h : k.ddram = []) : k.cell a = k.fill.byteAt a := by
  simp [Controller.cell, h, Memory.lookup]

/-- A character write's effect on DDRAM (R76, R77): the code at `DDRAM[AC]`, every other byte as before, or any value where AC is
past column 16 of row two. -/
theorem Controller.cell_character {k : Controller} (h : k.DdramOk) (n : Nat) (v : Byte) (a : Nat) :
    (k.character n v).cell a =
      if a = k.ac then v else if k.ac < 0x50 then k.cell a else Config.freeDdram n a := by
  have key : ∀ (f : Fill) (m : Memory), Memory.wf f.known m →
      (Memory.lookup a (Memory.write f.known m k.ac v)).getD (f.byteAt a) =
        if a = k.ac then v else (Memory.lookup a m).getD (f.byteAt a) := by
    intro f m hm
    have e : ∀ m', (Memory.lookup a m').getD (f.byteAt a) = (Memory.read f.known m' a).getD (f.byteAt a) := by
      intro m'
      unfold Memory.read
      cases Memory.lookup a m' <;> cases f <;> rfl
    rw [e, e, Memory.read_write hm]
    split <;> rfl
  have hc : (k.character n v).cell a = (k.store n v).cell a := by
    simp only [Controller.character, Controller.advance]
    split <;> rfl
  rw [hc]
  simp only [Controller.store]
  split
  · exact key _ _ h
  · exact key (.free n) [] (Memory.wf_nil _)

/-- A character write's effect on AC (R76). -/
theorem Controller.ac_character (k : Controller) (n : Nat) (v : Byte) :
    (k.character n v).ac = if k.increment = true ∧ k.shift = false then k.ac + 1 else Config.freeAc n := by
  simp only [Controller.character, Controller.advance, Controller.store]
  (repeat' split) <;> simp_all

theorem Lcd.write_ddramOk {l : Lcd} (h : l.ctl.DdramOk) (c : Cfg) (n : Nat) (late : Bool) (b : Byte) :
    (l.write c n late b).ctl.DdramOk := by
  simp only [Lcd.write]
  split
  · exact Lcd.latch_ddramOk (l := { l with pins := b }) h n late _ _
  · exact h

theorem Lcd.failedWrite_ddramOk (l : Lcd) (n : Nat) : (l.failedWrite n).ctl.DdramOk := Controller.free_ddramOk n

theorem Lcd.unknown_ddramOk (n : Nat) : (Lcd.unknown n).ctl.DdramOk := Controller.free_ddramOk n

theorem Lcd.wait_ddramOk {l : Lcd} (h : l.ctl.DdramOk) (d : DelayId) : (l.wait d).ctl.DdramOk := by
  simp only [Lcd.wait]
  split
  · split <;> exact h
  · exact h

end Sys2Proof.Machine
end

