-- ==== Sys2Proof/Laws/State.lean ====
section
/-! SUPPORT. One lemma per field of State and operation on it. -/

namespace Sys2Proof.Machine

/-! ### finish: the end of an operation -/

@[simp] theorem State.finish_cfg (s : State) (r : Result) (k : Byte) : (s.finish r k).cfg = s.cfg := rfl
@[simp] theorem State.finish_rst (s : State) (r : Result) (k : Byte) : (s.finish r k).rst = s.rst := rfl
@[simp] theorem State.finish_busy (s : State) (r : Result) (k : Byte) : (s.finish r k).busy = false := rfl
@[simp] theorem State.finish_result (s : State) (r : Result) (k : Byte) : (s.finish r k).result = r := rfl
@[simp] theorem State.finish_errIndex (s : State) (r : Result) (k : Byte) : (s.finish r k).errIndex = k := rfl
@[simp] theorem State.finish_initState (s : State) (r : Result) (k : Byte) : (s.finish r k).initState = s.initState.atEnd r := rfl
@[simp] theorem State.finish_script (s : State) (r : Result) (k : Byte) : (s.finish r k).script = s.script := rfl
@[simp] theorem State.finish_pc (s : State) (r : Result) (k : Byte) : (s.finish r k).pc = s.pc := rfl
@[simp] theorem State.finish_nsent (s : State) (r : Result) (k : Byte) : (s.finish r k).nsent = s.nsent := rfl
@[simp] theorem State.finish_col (s : State) (r : Result) (k : Byte) : (s.finish r k).col = s.col := rfl
@[simp] theorem State.finish_req (s : State) (r : Result) (k : Byte) : (s.finish r k).req = s.req := rfl
@[simp] theorem State.finish_text (s : State) (r : Result) (k : Byte) : (s.finish r k).text = s.text := rfl
@[simp] theorem State.finish_lcd (s : State) (r : Result) (k : Byte) : (s.finish r k).lcd = s.lcd := rfl
@[simp] theorem State.finish_events (s : State) (r : Result) (k : Byte) : (s.finish r k).events = s.events := rfl
@[simp] theorem State.finish_rstIn (s : State) (r : Result) (k : Byte) : (s.finish r k).rstIn = s.rstIn := rfl
@[simp] theorem State.finish_hostIn (s : State) (r : Result) (k : Byte) : (s.finish r k).hostIn = s.hostIn := rfl
@[simp] theorem State.finish_answers (s : State) (r : Result) (k : Byte) : (s.finish r k).answers = s.answers := rfl
@[simp] theorem State.finish_draws (s : State) (r : Result) (k : Byte) : (s.finish r k).draws = s.draws := rfl
@[simp] theorem State.finish_grain (s : State) (r : Result) (k : Byte) : (s.finish r k).grain = s.grain := rfl

/-! ### advance: the script position moves on -/

@[simp] theorem State.advance_cfg (s : State) : (s.advance).cfg = s.cfg := rfl
@[simp] theorem State.advance_rst (s : State) : (s.advance).rst = s.rst := rfl
@[simp] theorem State.advance_busy (s : State) : (s.advance).busy = s.busy := rfl
@[simp] theorem State.advance_result (s : State) : (s.advance).result = s.result := rfl
@[simp] theorem State.advance_errIndex (s : State) : (s.advance).errIndex = s.errIndex := rfl
@[simp] theorem State.advance_initState (s : State) : (s.advance).initState = s.initState.follow (s.pc + 1) := rfl
@[simp] theorem State.advance_script (s : State) : (s.advance).script = s.script := rfl
@[simp] theorem State.advance_pc (s : State) : (s.advance).pc = s.pc + 1 := rfl
@[simp] theorem State.advance_nsent (s : State) : (s.advance).nsent = s.nsent := rfl
@[simp] theorem State.advance_col (s : State) : (s.advance).col = s.col := rfl
@[simp] theorem State.advance_req (s : State) : (s.advance).req = s.req := rfl
@[simp] theorem State.advance_text (s : State) : (s.advance).text = s.text := rfl
@[simp] theorem State.advance_lcd (s : State) : (s.advance).lcd = s.lcd := rfl
@[simp] theorem State.advance_events (s : State) : (s.advance).events = s.events := rfl
@[simp] theorem State.advance_rstIn (s : State) : (s.advance).rstIn = s.rstIn := rfl
@[simp] theorem State.advance_hostIn (s : State) : (s.advance).hostIn = s.hostIn := rfl
@[simp] theorem State.advance_answers (s : State) : (s.advance).answers = s.answers := rfl
@[simp] theorem State.advance_draws (s : State) : (s.advance).draws = s.draws := rfl
@[simp] theorem State.advance_grain (s : State) : (s.advance).grain = s.grain := rfl

/-! ### busWrite: a bus write -/

@[simp] theorem State.busWrite_cfg (s : State) (b : Byte) : (s.busWrite b).cfg = s.cfg := rfl
@[simp] theorem State.busWrite_rst (s : State) (b : Byte) : (s.busWrite b).rst = s.rst := rfl
@[simp] theorem State.busWrite_busy (s : State) (b : Byte) : (s.busWrite b).busy = s.busy := rfl
@[simp] theorem State.busWrite_result (s : State) (b : Byte) : (s.busWrite b).result = s.result := rfl
@[simp] theorem State.busWrite_errIndex (s : State) (b : Byte) : (s.busWrite b).errIndex = s.errIndex := rfl
@[simp] theorem State.busWrite_initState (s : State) (b : Byte) : (s.busWrite b).initState = s.initState := rfl
@[simp] theorem State.busWrite_script (s : State) (b : Byte) : (s.busWrite b).script = s.script := rfl
@[simp] theorem State.busWrite_pc (s : State) (b : Byte) : (s.busWrite b).pc = s.pc := rfl
@[simp] theorem State.busWrite_nsent (s : State) (b : Byte) : (s.busWrite b).nsent = s.nsent + 1#8 := rfl
@[simp] theorem State.busWrite_col (s : State) (b : Byte) : (s.busWrite b).col = s.col := rfl
@[simp] theorem State.busWrite_req (s : State) (b : Byte) : (s.busWrite b).req = s.req := rfl
@[simp] theorem State.busWrite_text (s : State) (b : Byte) : (s.busWrite b).text = s.text := rfl
@[simp] theorem State.busWrite_events (s : State) (b : Byte) : (s.busWrite b).events = s.events ++ [.write s.cfg.lcdAddr b s.draw.answer, .delay .settle] := rfl
@[simp] theorem State.busWrite_rstIn (s : State) (b : Byte) : (s.busWrite b).rstIn = s.rstIn := rfl
@[simp] theorem State.busWrite_hostIn (s : State) (b : Byte) : (s.busWrite b).hostIn = s.hostIn := rfl
@[simp] theorem State.busWrite_answers (s : State) (b : Byte) : (s.busWrite b).answers = s.answers.tail := rfl
@[simp] theorem State.busWrite_draws (s : State) (b : Byte) : (s.busWrite b).draws = s.draws + 1 := rfl
@[simp] theorem State.busWrite_grain (s : State) (b : Byte) : (s.busWrite b).grain = s.grain := rfl

/-! ### delay: a DELAY action -/

@[simp] theorem State.delay_cfg (s : State) (d : DelayId) : (s.delay d).cfg = s.cfg := rfl
@[simp] theorem State.delay_rst (s : State) (d : DelayId) : (s.delay d).rst = s.rst := rfl
@[simp] theorem State.delay_busy (s : State) (d : DelayId) : (s.delay d).busy = s.busy := rfl
@[simp] theorem State.delay_result (s : State) (d : DelayId) : (s.delay d).result = s.result := rfl
@[simp] theorem State.delay_errIndex (s : State) (d : DelayId) : (s.delay d).errIndex = s.errIndex := rfl
@[simp] theorem State.delay_initState (s : State) (d : DelayId) : (s.delay d).initState = s.initState.follow (s.pc + 1) := rfl
@[simp] theorem State.delay_script (s : State) (d : DelayId) : (s.delay d).script = s.script := rfl
@[simp] theorem State.delay_pc (s : State) (d : DelayId) : (s.delay d).pc = s.pc + 1 := rfl
@[simp] theorem State.delay_nsent (s : State) (d : DelayId) : (s.delay d).nsent = s.nsent := rfl
@[simp] theorem State.delay_col (s : State) (d : DelayId) : (s.delay d).col = s.col := rfl
@[simp] theorem State.delay_req (s : State) (d : DelayId) : (s.delay d).req = s.req := rfl
@[simp] theorem State.delay_text (s : State) (d : DelayId) : (s.delay d).text = s.text := rfl
@[simp] theorem State.delay_lcd (s : State) (d : DelayId) : (s.delay d).lcd = s.lcd.wait d := rfl
@[simp] theorem State.delay_events (s : State) (d : DelayId) : (s.delay d).events = s.events ++ [.delay d] := rfl
@[simp] theorem State.delay_rstIn (s : State) (d : DelayId) : (s.delay d).rstIn = s.rstIn := rfl
@[simp] theorem State.delay_hostIn (s : State) (d : DelayId) : (s.delay d).hostIn = s.hostIn := rfl
@[simp] theorem State.delay_answers (s : State) (d : DelayId) : (s.delay d).answers = s.answers := rfl
@[simp] theorem State.delay_draws (s : State) (d : DelayId) : (s.delay d).draws = s.draws := rfl
@[simp] theorem State.delay_grain (s : State) (d : DelayId) : (s.delay d).grain = s.grain := rfl

/-! ### startInit: the release of reset -/

@[simp] theorem State.startInit_cfg (s : State) : (s.startInit).cfg = s.cfg := rfl
@[simp] theorem State.startInit_rst (s : State) : (s.startInit).rst = false := rfl
@[simp] theorem State.startInit_busy (s : State) : (s.startInit).busy = true := rfl
@[simp] theorem State.startInit_result (s : State) : (s.startInit).result = .ok := rfl
@[simp] theorem State.startInit_errIndex (s : State) : (s.startInit).errIndex = 0#8 := rfl
@[simp] theorem State.startInit_initState (s : State) : (s.startInit).initState = .sPowerOn := rfl
@[simp] theorem State.startInit_script (s : State) : (s.startInit).script = initScript s.cfg := rfl
@[simp] theorem State.startInit_pc (s : State) : (s.startInit).pc = 0 := rfl
@[simp] theorem State.startInit_nsent (s : State) : (s.startInit).nsent = 0#8 := rfl
@[simp] theorem State.startInit_col (s : State) : (s.startInit).col = s.col := rfl
@[simp] theorem State.startInit_req (s : State) : (s.startInit).req = s.req := rfl
@[simp] theorem State.startInit_text (s : State) : (s.startInit).text = s.text := rfl
@[simp] theorem State.startInit_lcd (s : State) : (s.startInit).lcd = s.lcd := rfl
@[simp] theorem State.startInit_events (s : State) : (s.startInit).events = s.events := rfl
@[simp] theorem State.startInit_rstIn (s : State) : (s.startInit).rstIn = s.rstIn := rfl
@[simp] theorem State.startInit_hostIn (s : State) : (s.startInit).hostIn = s.hostIn := rfl
@[simp] theorem State.startInit_answers (s : State) : (s.startInit).answers = s.answers := rfl
@[simp] theorem State.startInit_draws (s : State) : (s.startInit).draws = s.draws := rfl
@[simp] theorem State.startInit_grain (s : State) : (s.startInit).grain = s.grain := rfl

/-! ### blockReset: the block's reset values -/

@[simp] theorem State.blockReset_cfg (s : State) : (s.blockReset).cfg = s.cfg := rfl
@[simp] theorem State.blockReset_rst (s : State) : (s.blockReset).rst = true := rfl
@[simp] theorem State.blockReset_busy (s : State) : (s.blockReset).busy = true := rfl
@[simp] theorem State.blockReset_result (s : State) : (s.blockReset).result = .ok := rfl
@[simp] theorem State.blockReset_errIndex (s : State) : (s.blockReset).errIndex = 0#8 := rfl
@[simp] theorem State.blockReset_initState (s : State) : (s.blockReset).initState = .sPowerOn := rfl
@[simp] theorem State.blockReset_script (s : State) : (s.blockReset).script = initScript s.cfg := rfl
@[simp] theorem State.blockReset_pc (s : State) : (s.blockReset).pc = 0 := rfl
@[simp] theorem State.blockReset_nsent (s : State) : (s.blockReset).nsent = 0#8 := rfl
@[simp] theorem State.blockReset_col (s : State) : (s.blockReset).col = 0 := rfl
@[simp] theorem State.blockReset_req (s : State) : (s.blockReset).req = 0#12 := rfl
@[simp] theorem State.blockReset_text (s : State) : (s.blockReset).text = [] := rfl
@[simp] theorem State.blockReset_lcd (s : State) : (s.blockReset).lcd = s.lcd := rfl
@[simp] theorem State.blockReset_events (s : State) : (s.blockReset).events = s.events := rfl
@[simp] theorem State.blockReset_rstIn (s : State) : (s.blockReset).rstIn = s.rstIn := rfl
@[simp] theorem State.blockReset_hostIn (s : State) : (s.blockReset).hostIn = s.hostIn := rfl
@[simp] theorem State.blockReset_answers (s : State) : (s.blockReset).answers = s.answers := rfl
@[simp] theorem State.blockReset_draws (s : State) : (s.blockReset).draws = s.draws := rfl
@[simp] theorem State.blockReset_grain (s : State) : (s.blockReset).grain = s.grain := rfl

/-! ### transact: a bus write with its answer -/

@[simp] theorem State.transact_cfg (s : State) (w : List Event) (b : Byte) : (s.transact w b).cfg = s.cfg := rfl
@[simp] theorem State.transact_rst (s : State) (w : List Event) (b : Byte) : (s.transact w b).rst = s.rst := rfl
@[simp] theorem State.transact_busy (s : State) (w : List Event) (b : Byte) : (s.transact w b).busy = s.busy := rfl
@[simp] theorem State.transact_result (s : State) (w : List Event) (b : Byte) : (s.transact w b).result = s.result := rfl
@[simp] theorem State.transact_errIndex (s : State) (w : List Event) (b : Byte) : (s.transact w b).errIndex = s.errIndex := rfl
@[simp] theorem State.transact_initState (s : State) (w : List Event) (b : Byte) : (s.transact w b).initState = s.initState := rfl
@[simp] theorem State.transact_script (s : State) (w : List Event) (b : Byte) : (s.transact w b).script = s.script := rfl
@[simp] theorem State.transact_pc (s : State) (w : List Event) (b : Byte) : (s.transact w b).pc = s.pc := rfl
@[simp] theorem State.transact_nsent (s : State) (w : List Event) (b : Byte) : (s.transact w b).nsent = s.nsent + 1#8 := rfl
@[simp] theorem State.transact_col (s : State) (w : List Event) (b : Byte) : (s.transact w b).col = s.col := rfl
@[simp] theorem State.transact_req (s : State) (w : List Event) (b : Byte) : (s.transact w b).req = s.req := rfl
@[simp] theorem State.transact_text (s : State) (w : List Event) (b : Byte) : (s.transact w b).text = s.text := rfl
@[simp] theorem State.transact_events (s : State) (w : List Event) (b : Byte) : (s.transact w b).events = s.events ++ .write s.cfg.lcdAddr b s.draw.answer :: w := rfl
@[simp] theorem State.transact_rstIn (s : State) (w : List Event) (b : Byte) : (s.transact w b).rstIn = s.rstIn := rfl
@[simp] theorem State.transact_hostIn (s : State) (w : List Event) (b : Byte) : (s.transact w b).hostIn = s.hostIn := rfl
@[simp] theorem State.transact_answers (s : State) (w : List Event) (b : Byte) : (s.transact w b).answers = s.answers.tail := rfl
@[simp] theorem State.transact_draws (s : State) (w : List Event) (b : Byte) : (s.transact w b).draws = s.draws + 1 := rfl
@[simp] theorem State.transact_grain (s : State) (w : List Event) (b : Byte) : (s.transact w b).grain = s.grain := rfl

/-! ### cutWrite: a bus write cut by reset -/

@[simp] theorem State.cutWrite_cfg (s : State) (b : Byte) : (s.cutWrite b).cfg = s.cfg := rfl
@[simp] theorem State.cutWrite_rst (s : State) (b : Byte) : (s.cutWrite b).rst = s.rst := rfl
@[simp] theorem State.cutWrite_busy (s : State) (b : Byte) : (s.cutWrite b).busy = s.busy := rfl
@[simp] theorem State.cutWrite_result (s : State) (b : Byte) : (s.cutWrite b).result = s.result := rfl
@[simp] theorem State.cutWrite_errIndex (s : State) (b : Byte) : (s.cutWrite b).errIndex = s.errIndex := rfl
@[simp] theorem State.cutWrite_initState (s : State) (b : Byte) : (s.cutWrite b).initState = s.initState := rfl
@[simp] theorem State.cutWrite_script (s : State) (b : Byte) : (s.cutWrite b).script = s.script := rfl
@[simp] theorem State.cutWrite_pc (s : State) (b : Byte) : (s.cutWrite b).pc = s.pc := rfl
@[simp] theorem State.cutWrite_nsent (s : State) (b : Byte) : (s.cutWrite b).nsent = s.nsent := rfl
@[simp] theorem State.cutWrite_col (s : State) (b : Byte) : (s.cutWrite b).col = s.col := rfl
@[simp] theorem State.cutWrite_req (s : State) (b : Byte) : (s.cutWrite b).req = s.req := rfl
@[simp] theorem State.cutWrite_text (s : State) (b : Byte) : (s.cutWrite b).text = s.text := rfl
@[simp] theorem State.cutWrite_lcd (s : State) (b : Byte) : (s.cutWrite b).lcd = s.lcd.failedWrite s.draws := rfl
@[simp] theorem State.cutWrite_events (s : State) (b : Byte) : (s.cutWrite b).events = s.events ++ [.cutWrite s.cfg.lcdAddr b] := rfl
@[simp] theorem State.cutWrite_rstIn (s : State) (b : Byte) : (s.cutWrite b).rstIn = s.rstIn := rfl
@[simp] theorem State.cutWrite_hostIn (s : State) (b : Byte) : (s.cutWrite b).hostIn = s.hostIn := rfl
@[simp] theorem State.cutWrite_answers (s : State) (b : Byte) : (s.cutWrite b).answers = s.answers := rfl
@[simp] theorem State.cutWrite_draws (s : State) (b : Byte) : (s.cutWrite b).draws = s.draws + 1 := rfl
@[simp] theorem State.cutWrite_grain (s : State) (b : Byte) : (s.cutWrite b).grain = s.grain := rfl

/-! ### cutAction: what of an action happens before reset strikes -/

@[simp] theorem State.cutAction_cfg (s : State) (k : Strike) : (s.cutAction k).cfg = s.cfg := by unfold State.cutAction; split <;> rfl
@[simp] theorem State.cutAction_rst (s : State) (k : Strike) : (s.cutAction k).rst = s.rst := by unfold State.cutAction; split <;> rfl
@[simp] theorem State.cutAction_busy (s : State) (k : Strike) : (s.cutAction k).busy = s.busy := by unfold State.cutAction; split <;> rfl
@[simp] theorem State.cutAction_result (s : State) (k : Strike) : (s.cutAction k).result = s.result := by unfold State.cutAction; split <;> rfl
@[simp] theorem State.cutAction_errIndex (s : State) (k : Strike) : (s.cutAction k).errIndex = s.errIndex := by unfold State.cutAction; split <;> rfl
@[simp] theorem State.cutAction_initState (s : State) (k : Strike) : (s.cutAction k).initState = s.initState := by unfold State.cutAction; split <;> rfl
@[simp] theorem State.cutAction_script (s : State) (k : Strike) : (s.cutAction k).script = s.script := by unfold State.cutAction; split <;> rfl
@[simp] theorem State.cutAction_pc (s : State) (k : Strike) : (s.cutAction k).pc = s.pc := by unfold State.cutAction; split <;> rfl
@[simp] theorem State.cutAction_col (s : State) (k : Strike) : (s.cutAction k).col = s.col := by unfold State.cutAction; split <;> rfl
@[simp] theorem State.cutAction_req (s : State) (k : Strike) : (s.cutAction k).req = s.req := by unfold State.cutAction; split <;> rfl
@[simp] theorem State.cutAction_text (s : State) (k : Strike) : (s.cutAction k).text = s.text := by unfold State.cutAction; split <;> rfl
@[simp] theorem State.cutAction_rstIn (s : State) (k : Strike) : (s.cutAction k).rstIn = s.rstIn := by unfold State.cutAction; split <;> rfl
@[simp] theorem State.cutAction_hostIn (s : State) (k : Strike) : (s.cutAction k).hostIn = s.hostIn := by unfold State.cutAction; split <;> rfl
@[simp] theorem State.cutAction_grain (s : State) (k : Strike) : (s.cutAction k).grain = s.grain := by unfold State.cutAction; split <;> rfl

/-! ### assertReset: the assertion of reset -/

@[simp] theorem State.assertReset_cfg (s : State) (k : Strike) (p : Bool) : (s.assertReset k p).cfg = s.cfg := by simp [State.assertReset, State.blockReset]
@[simp] theorem State.assertReset_rst (s : State) (k : Strike) (p : Bool) : (s.assertReset k p).rst = true := rfl
@[simp] theorem State.assertReset_busy (s : State) (k : Strike) (p : Bool) : (s.assertReset k p).busy = true := rfl
@[simp] theorem State.assertReset_result (s : State) (k : Strike) (p : Bool) : (s.assertReset k p).result = .ok := rfl
@[simp] theorem State.assertReset_errIndex (s : State) (k : Strike) (p : Bool) : (s.assertReset k p).errIndex = 0#8 := rfl
@[simp] theorem State.assertReset_initState (s : State) (k : Strike) (p : Bool) : (s.assertReset k p).initState = .sPowerOn := rfl
@[simp] theorem State.assertReset_script (s : State) (k : Strike) (p : Bool) : (s.assertReset k p).script = initScript s.cfg := by simp [State.assertReset, State.blockReset]
@[simp] theorem State.assertReset_pc (s : State) (k : Strike) (p : Bool) : (s.assertReset k p).pc = 0 := rfl
@[simp] theorem State.assertReset_nsent (s : State) (k : Strike) (p : Bool) : (s.assertReset k p).nsent = 0#8 := rfl
@[simp] theorem State.assertReset_col (s : State) (k : Strike) (p : Bool) : (s.assertReset k p).col = 0 := rfl
@[simp] theorem State.assertReset_req (s : State) (k : Strike) (p : Bool) : (s.assertReset k p).req = 0#12 := rfl
@[simp] theorem State.assertReset_text (s : State) (k : Strike) (p : Bool) : (s.assertReset k p).text = [] := rfl
@[simp] theorem State.assertReset_lcd (s : State) (k : Strike) (p : Bool) : (s.assertReset k p).lcd = if p then Lcd.unknown (s.cutAction k).draws else (s.cutAction k).lcd := rfl
@[simp] theorem State.assertReset_events (s : State) (k : Strike) (p : Bool) : (s.assertReset k p).events = (s.cutAction k).events := rfl
@[simp] theorem State.assertReset_rstIn (s : State) (k : Strike) (p : Bool) : (s.assertReset k p).rstIn = s.rstIn := by simp [State.assertReset, State.blockReset]
@[simp] theorem State.assertReset_hostIn (s : State) (k : Strike) (p : Bool) : (s.assertReset k p).hostIn = s.hostIn := by simp [State.assertReset, State.blockReset]
@[simp] theorem State.assertReset_answers (s : State) (k : Strike) (p : Bool) : (s.assertReset k p).answers = (s.cutAction k).answers := rfl
@[simp] theorem State.assertReset_draws (s : State) (k : Strike) (p : Bool) : (s.assertReset k p).draws = (s.cutAction k).draws + 1 := rfl
@[simp] theorem State.assertReset_grain (s : State) (k : Strike) (p : Bool) : (s.assertReset k p).grain = s.grain := by simp [State.assertReset, State.blockReset]

/-! ### taken: the inputs a step uses up -/

@[simp] theorem State.taken_cfg (s : State) : (s.taken).cfg = s.cfg := rfl
@[simp] theorem State.taken_rst (s : State) : (s.taken).rst = s.rst := rfl
@[simp] theorem State.taken_busy (s : State) : (s.taken).busy = s.busy := rfl
@[simp] theorem State.taken_result (s : State) : (s.taken).result = s.result := rfl
@[simp] theorem State.taken_errIndex (s : State) : (s.taken).errIndex = s.errIndex := rfl
@[simp] theorem State.taken_initState (s : State) : (s.taken).initState = s.initState := rfl
@[simp] theorem State.taken_script (s : State) : (s.taken).script = s.script := rfl
@[simp] theorem State.taken_pc (s : State) : (s.taken).pc = s.pc := rfl
@[simp] theorem State.taken_nsent (s : State) : (s.taken).nsent = s.nsent := rfl
@[simp] theorem State.taken_col (s : State) : (s.taken).col = s.col := rfl
@[simp] theorem State.taken_req (s : State) : (s.taken).req = s.req := rfl
@[simp] theorem State.taken_text (s : State) : (s.taken).text = s.text := rfl
@[simp] theorem State.taken_lcd (s : State) : (s.taken).lcd = s.lcd := rfl
@[simp] theorem State.taken_events (s : State) : (s.taken).events = s.events := rfl
@[simp] theorem State.taken_rstIn (s : State) : (s.taken).rstIn = s.rstIn.tail := rfl
@[simp] theorem State.taken_answers (s : State) : (s.taken).answers = s.answers := rfl
@[simp] theorem State.taken_draws (s : State) : (s.taken).draws = s.draws := rfl
@[simp] theorem State.taken_grain (s : State) : (s.taken).grain = s.grain := rfl

/-! ### emit: an EMIT action -/

@[simp] theorem State.emit_cfg (s : State) (b : Byte) : (s.emit b).cfg = s.cfg := by unfold State.emit; split <;> rfl
@[simp] theorem State.emit_rst (s : State) (b : Byte) : (s.emit b).rst = s.rst := by unfold State.emit; split <;> rfl
@[simp] theorem State.emit_script (s : State) (b : Byte) : (s.emit b).script = s.script := by unfold State.emit; split <;> rfl
@[simp] theorem State.emit_col (s : State) (b : Byte) : (s.emit b).col = s.col := by unfold State.emit; split <;> rfl
@[simp] theorem State.emit_req (s : State) (b : Byte) : (s.emit b).req = s.req := by unfold State.emit; split <;> rfl
@[simp] theorem State.emit_text (s : State) (b : Byte) : (s.emit b).text = s.text := by unfold State.emit; split <;> rfl
@[simp] theorem State.emit_rstIn (s : State) (b : Byte) : (s.emit b).rstIn = s.rstIn := by unfold State.emit; split <;> rfl
@[simp] theorem State.emit_hostIn (s : State) (b : Byte) : (s.emit b).hostIn = s.hostIn := by unfold State.emit; split <;> rfl
@[simp] theorem State.emit_grain (s : State) (b : Byte) : (s.emit b).grain = s.grain := by unfold State.emit; split <;> rfl

/-! ### accept: acceptance -/

@[simp] theorem State.accept_cfg (s : State) (w : ReqWord) (sc : List Action) : (s.accept w sc).cfg = s.cfg := by unfold State.accept; (repeat' split) <;> rfl
@[simp] theorem State.accept_rst (s : State) (w : ReqWord) (sc : List Action) : (s.accept w sc).rst = s.rst := by unfold State.accept; (repeat' split) <;> rfl
@[simp] theorem State.accept_initState (s : State) (w : ReqWord) (sc : List Action) : (s.accept w sc).initState = s.initState := by unfold State.accept; (repeat' split) <;> rfl
@[simp] theorem State.accept_col (s : State) (w : ReqWord) (sc : List Action) : (s.accept w sc).col = s.col := by unfold State.accept; (repeat' split) <;> rfl
@[simp] theorem State.accept_text (s : State) (w : ReqWord) (sc : List Action) : (s.accept w sc).text = s.text := by unfold State.accept; (repeat' split) <;> rfl
@[simp] theorem State.accept_lcd (s : State) (w : ReqWord) (sc : List Action) : (s.accept w sc).lcd = s.lcd := by unfold State.accept; (repeat' split) <;> rfl
@[simp] theorem State.accept_events (s : State) (w : ReqWord) (sc : List Action) : (s.accept w sc).events = s.events := by unfold State.accept; (repeat' split) <;> rfl
@[simp] theorem State.accept_rstIn (s : State) (w : ReqWord) (sc : List Action) : (s.accept w sc).rstIn = s.rstIn := by unfold State.accept; (repeat' split) <;> rfl
@[simp] theorem State.accept_hostIn (s : State) (w : ReqWord) (sc : List Action) : (s.accept w sc).hostIn = s.hostIn := by unfold State.accept; (repeat' split) <;> rfl
@[simp] theorem State.accept_answers (s : State) (w : ReqWord) (sc : List Action) : (s.accept w sc).answers = s.answers := by unfold State.accept; (repeat' split) <;> rfl
@[simp] theorem State.accept_draws (s : State) (w : ReqWord) (sc : List Action) : (s.accept w sc).draws = s.draws := by unfold State.accept; (repeat' split) <;> rfl
@[simp] theorem State.accept_grain (s : State) (w : ReqWord) (sc : List Action) : (s.accept w sc).grain = s.grain := by unfold State.accept; (repeat' split) <;> rfl

/-! ### acceptRender: acceptance of RENDER -/

@[simp] theorem State.acceptRender_cfg (s : State) (w : ReqWord) (n : Nat) : (s.acceptRender w n).cfg = s.cfg := by unfold State.acceptRender; split <;> simp [State.accept, *]
@[simp] theorem State.acceptRender_rst (s : State) (w : ReqWord) (n : Nat) : (s.acceptRender w n).rst = s.rst := by unfold State.acceptRender; split <;> simp [State.accept, *]
@[simp] theorem State.acceptRender_initState (s : State) (w : ReqWord) (n : Nat) : (s.acceptRender w n).initState = s.initState := by unfold State.acceptRender; split <;> simp [State.accept, *]
@[simp] theorem State.acceptRender_text (s : State) (w : ReqWord) (n : Nat) : (s.acceptRender w n).text = s.text := by unfold State.acceptRender; split <;> simp [State.accept, *]
@[simp] theorem State.acceptRender_lcd (s : State) (w : ReqWord) (n : Nat) : (s.acceptRender w n).lcd = s.lcd := by unfold State.acceptRender; split <;> simp [State.accept, *]
@[simp] theorem State.acceptRender_events (s : State) (w : ReqWord) (n : Nat) : (s.acceptRender w n).events = s.events := by unfold State.acceptRender; split <;> simp [State.accept, *]
@[simp] theorem State.acceptRender_rstIn (s : State) (w : ReqWord) (n : Nat) : (s.acceptRender w n).rstIn = s.rstIn := by unfold State.acceptRender; split <;> simp [State.accept, *]
@[simp] theorem State.acceptRender_hostIn (s : State) (w : ReqWord) (n : Nat) : (s.acceptRender w n).hostIn = s.hostIn := by unfold State.acceptRender; split <;> simp [State.accept, *]
@[simp] theorem State.acceptRender_answers (s : State) (w : ReqWord) (n : Nat) : (s.acceptRender w n).answers = s.answers := by unfold State.acceptRender; split <;> simp [State.accept, *]
@[simp] theorem State.acceptRender_grain (s : State) (w : ReqWord) (n : Nat) : (s.acceptRender w n).grain = s.grain := by unfold State.acceptRender; split <;> simp [State.accept, *]

/-! ### refuse: a refusal -/

@[simp] theorem State.refuse_cfg (s : State) (w : ReqWord) : (s.refuse w).cfg = s.cfg := by unfold State.refuse; (repeat' split) <;> rfl
@[simp] theorem State.refuse_rst (s : State) (w : ReqWord) : (s.refuse w).rst = s.rst := by unfold State.refuse; (repeat' split) <;> rfl
@[simp] theorem State.refuse_initState (s : State) (w : ReqWord) : (s.refuse w).initState = s.initState := by unfold State.refuse; (repeat' split) <;> rfl
@[simp] theorem State.refuse_script (s : State) (w : ReqWord) : (s.refuse w).script = s.script := by unfold State.refuse; (repeat' split) <;> rfl
@[simp] theorem State.refuse_pc (s : State) (w : ReqWord) : (s.refuse w).pc = s.pc := by unfold State.refuse; (repeat' split) <;> rfl
@[simp] theorem State.refuse_nsent (s : State) (w : ReqWord) : (s.refuse w).nsent = s.nsent := by unfold State.refuse; (repeat' split) <;> rfl
@[simp] theorem State.refuse_col (s : State) (w : ReqWord) : (s.refuse w).col = s.col := by unfold State.refuse; (repeat' split) <;> rfl
@[simp] theorem State.refuse_text (s : State) (w : ReqWord) : (s.refuse w).text = s.text := by unfold State.refuse; (repeat' split) <;> rfl
@[simp] theorem State.refuse_lcd (s : State) (w : ReqWord) : (s.refuse w).lcd = s.lcd := by unfold State.refuse; (repeat' split) <;> rfl
@[simp] theorem State.refuse_events (s : State) (w : ReqWord) : (s.refuse w).events = s.events := by unfold State.refuse; (repeat' split) <;> rfl
@[simp] theorem State.refuse_rstIn (s : State) (w : ReqWord) : (s.refuse w).rstIn = s.rstIn := by unfold State.refuse; (repeat' split) <;> rfl
@[simp] theorem State.refuse_hostIn (s : State) (w : ReqWord) : (s.refuse w).hostIn = s.hostIn := by unfold State.refuse; (repeat' split) <;> rfl
@[simp] theorem State.refuse_answers (s : State) (w : ReqWord) : (s.refuse w).answers = s.answers := by unfold State.refuse; (repeat' split) <;> rfl
@[simp] theorem State.refuse_draws (s : State) (w : ReqWord) : (s.refuse w).draws = s.draws := by unfold State.refuse; (repeat' split) <;> rfl
@[simp] theorem State.refuse_grain (s : State) (w : ReqWord) : (s.refuse w).grain = s.grain := by unfold State.refuse; (repeat' split) <;> rfl

/-! ### writeText: a text write -/

@[simp] theorem State.writeText_cfg (s : State) (i : BitVec 6) (v : Byte) : (s.writeText i v).cfg = s.cfg := by unfold State.writeText; (repeat' split) <;> rfl
@[simp] theorem State.writeText_rst (s : State) (i : BitVec 6) (v : Byte) : (s.writeText i v).rst = s.rst := by unfold State.writeText; (repeat' split) <;> rfl
@[simp] theorem State.writeText_busy (s : State) (i : BitVec 6) (v : Byte) : (s.writeText i v).busy = s.busy := by unfold State.writeText; (repeat' split) <;> rfl
@[simp] theorem State.writeText_result (s : State) (i : BitVec 6) (v : Byte) : (s.writeText i v).result = s.result := by unfold State.writeText; (repeat' split) <;> rfl
@[simp] theorem State.writeText_errIndex (s : State) (i : BitVec 6) (v : Byte) : (s.writeText i v).errIndex = s.errIndex := by unfold State.writeText; (repeat' split) <;> rfl
@[simp] theorem State.writeText_initState (s : State) (i : BitVec 6) (v : Byte) : (s.writeText i v).initState = s.initState := by unfold State.writeText; (repeat' split) <;> rfl
@[simp] theorem State.writeText_script (s : State) (i : BitVec 6) (v : Byte) : (s.writeText i v).script = s.script := by unfold State.writeText; (repeat' split) <;> rfl
@[simp] theorem State.writeText_pc (s : State) (i : BitVec 6) (v : Byte) : (s.writeText i v).pc = s.pc := by unfold State.writeText; (repeat' split) <;> rfl
@[simp] theorem State.writeText_nsent (s : State) (i : BitVec 6) (v : Byte) : (s.writeText i v).nsent = s.nsent := by unfold State.writeText; (repeat' split) <;> rfl
@[simp] theorem State.writeText_col (s : State) (i : BitVec 6) (v : Byte) : (s.writeText i v).col = s.col := by unfold State.writeText; (repeat' split) <;> rfl
@[simp] theorem State.writeText_req (s : State) (i : BitVec 6) (v : Byte) : (s.writeText i v).req = s.req := by unfold State.writeText; (repeat' split) <;> rfl
@[simp] theorem State.writeText_lcd (s : State) (i : BitVec 6) (v : Byte) : (s.writeText i v).lcd = s.lcd := by unfold State.writeText; (repeat' split) <;> rfl
@[simp] theorem State.writeText_events (s : State) (i : BitVec 6) (v : Byte) : (s.writeText i v).events = s.events := by unfold State.writeText; (repeat' split) <;> rfl
@[simp] theorem State.writeText_rstIn (s : State) (i : BitVec 6) (v : Byte) : (s.writeText i v).rstIn = s.rstIn := by unfold State.writeText; (repeat' split) <;> rfl
@[simp] theorem State.writeText_hostIn (s : State) (i : BitVec 6) (v : Byte) : (s.writeText i v).hostIn = s.hostIn := by unfold State.writeText; (repeat' split) <;> rfl
@[simp] theorem State.writeText_answers (s : State) (i : BitVec 6) (v : Byte) : (s.writeText i v).answers = s.answers := by unfold State.writeText; (repeat' split) <;> rfl
@[simp] theorem State.writeText_draws (s : State) (i : BitVec 6) (v : Byte) : (s.writeText i v).draws = s.draws := by unfold State.writeText; (repeat' split) <;> rfl
@[simp] theorem State.writeText_grain (s : State) (i : BitVec 6) (v : Byte) : (s.writeText i v).grain = s.grain := by unfold State.writeText; (repeat' split) <;> rfl

end Sys2Proof.Machine
end

