-- ==== Sys2Proof/Laws/Ops.lean ====
section
/-! SUPPORT. What the shared operations can do: one lemma per operation and outcome, cited instead of unfolding. -/

namespace Sys2Proof.Machine

/-! ### Draws -/

/-- The coming draws depend on the coming answers and the draw counter alone. -/
theorem State.drawAt_congr {s t : State} (ha : s.answers = t.answers) (hd : s.draws = t.draws) (j : Nat) :
    s.drawAt j = t.drawAt j := by
  unfold State.drawAt; rw [ha, hd]

/-- A bus write uses up one draw. -/
@[simp] theorem State.drawAt_busWrite (s : State) (b : Byte) (j : Nat) :
    (s.busWrite b).drawAt j = s.drawAt (j + 1) := by
  unfold State.drawAt
  simp only [State.busWrite_answers, State.busWrite_draws, List.getElem?_tail]
  rw [Nat.add_assoc, Nat.add_comm 1 j]

@[simp] theorem State.drawAt_advance (s : State) (j : Nat) : s.advance.drawAt j = s.drawAt j := rfl

@[simp] theorem State.drawAt_finish (s : State) (r : Result) (k : Byte) (j : Nat) :
    (s.finish r k).drawAt j = s.drawAt j := rfl

@[simp] theorem State.drawAt_delay (s : State) (d : DelayId) (j : Nat) : (s.delay d).drawAt j = s.drawAt j := rfl

@[simp] theorem State.drawAt_taken (s : State) (j : Nat) : s.taken.drawAt j = s.drawAt j := rfl

@[simp] theorem State.draw_taken (s : State) : s.taken.draw = s.draw := rfl

/-! ### EMIT (R110) -/

theorem State.emit_of_ack {s : State} (h : s.draw.answer = .ack) (b : Byte) : s.emit b = (s.busWrite b).advance := by
  unfold State.emit; rw [h]

theorem State.emit_of_fail {s : State} (h : s.draw.answer = .fail) (b : Byte) :
    s.emit b = (s.busWrite b).finish .busError (s.nsent + 1#8) := by
  unfold State.emit; rw [h]

@[simp] theorem State.drawAt_emit (s : State) (b : Byte) (j : Nat) : (s.emit b).drawAt j = s.drawAt (j + 1) := by
  unfold State.emit; split <;> simp

@[simp] theorem State.emit_nsent (s : State) (b : Byte) : (s.emit b).nsent = s.nsent + 1#8 := by
  unfold State.emit; split <;> rfl

@[simp] theorem State.emit_events (s : State) (b : Byte) :
    (s.emit b).events = s.events ++ writeEvents s.cfg b s.draw.answer := by
  unfold State.emit; split <;> rfl

@[simp] theorem State.emit_draws (s : State) (b : Byte) : (s.emit b).draws = s.draws + 1 := by
  unfold State.emit; split <;> rfl

@[simp] theorem State.emit_answers (s : State) (b : Byte) : (s.emit b).answers = s.answers.tail := by
  unfold State.emit; split <;> rfl

@[simp] theorem State.emit_lcd (s : State) (b : Byte) : (s.emit b).lcd = (s.busWrite b).lcd := by
  unfold State.emit; split <;> rfl

theorem State.transact_lcd_of_ack {s : State} (h : s.draw.answer = .ack) (w : List Event) (b : Byte) :
    (s.transact w b).lcd = s.lcd.write s.cfg s.draws s.draw.late b := by
  unfold State.transact; simp only [h]

theorem State.transact_lcd_of_fail {s : State} (h : s.draw.answer = .fail) (w : List Event) (b : Byte) :
    (s.transact w b).lcd = s.lcd.failedWrite s.draws := by
  unfold State.transact; simp only [h]

theorem State.busWrite_lcd_of_ack {s : State} (h : s.draw.answer = .ack) (b : Byte) :
    (s.busWrite b).lcd = s.lcd.write s.cfg s.draws s.draw.late b := State.transact_lcd_of_ack h _ b

theorem State.busWrite_lcd_of_fail {s : State} (h : s.draw.answer = .fail) (b : Byte) :
    (s.busWrite b).lcd = s.lcd.failedWrite s.draws := State.transact_lcd_of_fail h _ b

/-! ### Scripts -/

@[simp] theorem emitted_nil : emitted [] = [] := rfl

@[simp] theorem emitted_emit (b : Byte) (as : List Action) : emitted (.emit b :: as) = b :: emitted as := rfl

@[simp] theorem emitted_delay (d : DelayId) (as : List Action) : emitted (.delay d :: as) = emitted as := rfl

@[simp] theorem emitted_append (as bs : List Action) : emitted (as ++ bs) = emitted as ++ emitted bs := by
  simp [emitted]

/-! ### Running a fragment (R112) -/

theorem State.acks_succ {s : State} {k : Nat} : s.acks (k + 1) ↔ s.draw.answer = .ack ∧ ∀ b, (s.emit b).acks k := by
  constructor
  · intro h
    refine ⟨h 0 (by omega), fun b j hj => ?_⟩
    rw [State.drawAt_emit]
    exact h (j + 1) (by omega)
  · rintro ⟨h0, h⟩ j hj
    cases j with
    | zero => exact h0
    | succ j =>
      have := h 0#8 j (by omega)
      rwa [State.drawAt_emit] at this

/-- A fragment whose writes are all acknowledged runs whole, and what follows it runs after it. -/
theorem State.runActions_append {s : State} {as : List Action} (h : s.acks (emitted as).length) (bs : List Action) :
    State.runActions (as ++ bs) s = State.runActions bs (State.runActions as s) := by
  induction as generalizing s with
  | nil => rfl
  | cons a as ih =>
    cases a with
    | delay d => exact ih (s := s.delay d) h
    | emit b =>
      obtain ⟨h0, h1⟩ := State.acks_succ.1 (by simpa using h)
      simp only [List.cons_append, State.runActions, h0]
      exact ih (h1 b)

/-- A fragment run whole: what it changes, and what it leaves (R110, R111, R112). -/
structure State.RanWhole (as : List Action) (s t : State) : Prop where
  pc        : t.pc = s.pc + as.length
  nsent     : t.nsent = s.nsent + BitVec.ofNat 8 (emitted as).length
  events    : t.events = s.events ++ as.flatMap (Action.events s.cfg)
  drawAt    : ∀ j, t.drawAt j = s.drawAt ((emitted as).length + j)
  draws     : t.draws = s.draws + (emitted as).length
  answers   : t.answers = s.answers.drop (emitted as).length
  initState : t.initState = if as = [] then s.initState else s.initState.follow (s.pc + as.length)
  cfg       : t.cfg = s.cfg
  rst       : t.rst = s.rst
  busy      : t.busy = s.busy
  result    : t.result = s.result
  errIndex  : t.errIndex = s.errIndex
  script    : t.script = s.script
  col       : t.col = s.col
  req       : t.req = s.req
  text      : t.text = s.text
  rstIn     : t.rstIn = s.rstIn
  hostIn    : t.hostIn = s.hostIn
  grain     : t.grain = s.grain

@[simp] theorem InitState.atPc_running (p : Nat) : (InitState.atPc p).running = true := by
  unfold InitState.atPc
  (repeat' split) <;> rfl

theorem InitState.follow_follow (i : InitState) (p q : Nat) : (i.follow p).follow q = i.follow q := by
  unfold InitState.follow
  cases h : i.running <;> simp [h]

theorem State.ranWhole {s : State} {as : List Action} (h : s.acks (emitted as).length) :
    State.RanWhole as s (State.runActions as s) := by
  induction as generalizing s with
  | nil => constructor <;> simp [State.runActions]
  | cons a as ih =>
    cases a with
    | delay d =>
      have r := ih (s := s.delay d) h
      have e : State.runActions (.delay d :: as) s = State.runActions as (s.delay d) := rfl
      rw [e]
      constructor
      · rw [r.pc]; simp; omega
      · rw [r.nsent]; simp
      · rw [r.events]; simp [Action.events]
      · intro j; rw [r.drawAt]; simp
      · rw [r.draws]; simp
      · rw [r.answers]; simp
      · rw [r.initState]
        by_cases has : as = []
        · simp [has]
        · simp [has, InitState.follow_follow]; congr 1; omega
      · rw [r.cfg]; simp
      · rw [r.rst]; simp
      · rw [r.busy]; simp
      · rw [r.result]; simp
      · rw [r.errIndex]; simp
      · rw [r.script]; simp
      · rw [r.col]; simp
      · rw [r.req]; simp
      · rw [r.text]; simp
      · rw [r.rstIn]; simp
      · rw [r.hostIn]; simp
      · rw [r.grain]; simp
    | emit b =>
      obtain ⟨h0, h1⟩ := State.acks_succ.1 (by simpa using h)
      have r := ih (h1 b)
      have e : State.runActions (.emit b :: as) s = State.runActions as (s.emit b) := by
        simp only [State.runActions, h0]
      have hpc : (s.emit b).pc = s.pc + 1 := by rw [State.emit_of_ack h0]; rfl
      have hi : (s.emit b).initState = s.initState.follow (s.pc + 1) := by rw [State.emit_of_ack h0]; rfl
      have hb : (s.emit b).busy = s.busy := by rw [State.emit_of_ack h0]; rfl
      have hr : (s.emit b).result = s.result := by rw [State.emit_of_ack h0]; rfl
      have he : (s.emit b).errIndex = s.errIndex := by rw [State.emit_of_ack h0]; rfl
      rw [e]
      constructor
      · rw [r.pc, hpc]; simp; omega
      · rw [r.nsent]
        apply BitVec.eq_of_toNat_eq
        simp [BitVec.toNat_add]; omega
      · rw [r.events]; simp [Action.events, h0]
      · intro j; rw [r.drawAt, State.drawAt_emit]; simp; congr 1; omega
      · rw [r.draws]; simp; omega
      · rw [r.answers]; simp
      · rw [r.initState, hi]
        by_cases has : as = []
        · simp [has]
        · simp [has, InitState.follow_follow, hpc]; congr 1; omega
      · rw [r.cfg]; simp
      · rw [r.rst]; simp
      · rw [r.busy, hb]
      · rw [r.result, hr]
      · rw [r.errIndex, he]
      · rw [r.script]; simp
      · rw [r.col]; simp
      · rw [r.req]; simp
      · rw [r.text]; simp
      · rw [r.rstIn]; simp
      · rw [r.hostIn]; simp
      · rw [r.grain]; simp

/-- A fragment cut by its first failed write: the actions before it ran whole, the failing EMIT ended it, and nothing after it was
performed (R112, R207). -/
theorem State.runActions_cut {s : State} {as : List Action} (h : s.failsAfter (emitted as).length) (b : Byte)
    (bs : List Action) :
    State.runActions (as ++ .emit b :: bs) s = (State.runActions as s).emit b ∧
      (State.runActions as s).draw.answer = .fail := by
  have hd : (State.runActions as s).draw.answer = .fail := by
    have := (State.ranWhole h.1).drawAt 0
    unfold State.draw
    rw [this]
    simpa using h.2
  refine ⟨?_, hd⟩
  rw [State.runActions_append h.1]
  simp only [State.runActions, hd]

/-- Either every write of the next `n` is acknowledged or one of them is the first that fails. -/
theorem State.acks_or_fails (s : State) (n : Nat) : s.acks n ∨ ∃ k < n, s.failsAfter k := by
  induction n with
  | zero => exact .inl (by intro j hj; omega)
  | succ n ih =>
    rcases ih with h | ⟨k, hk, h⟩
    · cases hd : (s.drawAt n).answer with
      | ack =>
        refine .inl fun j hj => ?_
        rcases Nat.lt_succ_iff_lt_or_eq.1 hj with hj | rfl
        · exact h j hj
        · exact hd
      | fail => exact .inr ⟨n, by omega, h, hd⟩
    · exact .inr ⟨k, by omega, h⟩

/-- Splitting a script at the EMIT after its first `k` ones. -/
theorem exists_split_of_lt_emitted {as : List Action} {k : Nat} (h : k < (emitted as).length) :
    ∃ pre b post, as = pre ++ .emit b :: post ∧ (emitted pre).length = k := by
  induction as generalizing k with
  | nil => simp at h
  | cons a as ih =>
    cases a with
    | delay d =>
      obtain ⟨pre, b, post, rfl, hk⟩ := ih (by simpa using h)
      exact ⟨.delay d :: pre, b, post, rfl, by simpa using hk⟩
    | emit b =>
      cases k with
      | zero => exact ⟨[], b, as, rfl, rfl⟩
      | succ k =>
        obtain ⟨pre, b', post, rfl, hk⟩ := ih (k := k) (by simpa using h)
        exact ⟨.emit b :: pre, b', post, rfl, by simpa using hk⟩

/-- Everything running a fragment can do: it runs whole, or it is cut at its first failed write. -/
theorem State.runActions_cases (as : List Action) (s : State) :
    (s.acks (emitted as).length ∧ State.RanWhole as s (State.runActions as s)) ∨
    (∃ pre b post, as = pre ++ .emit b :: post ∧ s.failsAfter (emitted pre).length ∧
      State.RanWhole pre s (State.runActions pre s) ∧
      (State.runActions pre s).draw.answer = .fail ∧
      State.runActions as s = (State.runActions pre s).emit b) := by
  rcases s.acks_or_fails (emitted as).length with h | ⟨k, hk, h⟩
  · exact .inl ⟨h, State.ranWhole h⟩
  · obtain ⟨pre, b, post, rfl, rfl⟩ := exists_split_of_lt_emitted hk
    obtain ⟨h1, h2⟩ := State.runActions_cut h b post
    exact .inr ⟨pre, b, post, rfl, h, State.ranWhole h.1, h2, h1⟩

/-- A fragment cut at `EMIT(b)` after the actions `pre`: what it changes, and what it leaves (R201, R207). -/
structure State.RanCut (pre : List Action) (b : Byte) (s t : State) : Prop where
  pc        : t.pc = s.pc + pre.length
  nsent     : t.nsent = s.nsent + BitVec.ofNat 8 ((emitted pre).length + 1)
  events    : t.events = s.events ++ pre.flatMap (Action.events s.cfg) ++ writeEvents s.cfg b .fail
  busy      : t.busy = false
  result    : t.result = .busError
  errIndex  : t.errIndex = s.nsent + BitVec.ofNat 8 ((emitted pre).length + 1)
  initState : t.initState = s.initState.atEnd .busError
  same      : s.SameButCut t

theorem InitState.follow_atEnd (i : InitState) (p : Nat) (r : Result) : (i.follow p).atEnd r = i.atEnd r := by
  unfold InitState.follow InitState.atEnd
  cases h : i.running <;> simp [h]

theorem State.ranCut {s : State} {pre : List Action} (h : s.failsAfter (emitted pre).length) (b : Byte)
    (post : List Action) : State.RanCut pre b s (State.runActions (pre ++ .emit b :: post) s) := by
  obtain ⟨e, hd⟩ := State.runActions_cut h b post
  have r := State.ranWhole h.1
  have hn : (State.runActions pre s).nsent + 1#8 = s.nsent + BitVec.ofNat 8 ((emitted pre).length + 1) := by
    rw [r.nsent]
    apply BitVec.eq_of_toNat_eq
    simp [BitVec.toNat_add]; omega
  rw [e, State.emit_of_fail hd]
  refine ⟨r.pc, hn, ?_, rfl, rfl, hn, ?_, r.cfg, r.rst, r.script, r.col, r.req, r.text, r.rstIn, r.hostIn, r.grain⟩
  · have := State.emit_events (State.runActions pre s) b
    rw [State.emit_of_fail hd] at this
    rw [this, r.events, r.cfg, hd]
  · show (State.runActions pre s).initState.atEnd .busError = _
    rw [r.initState]
    split
    · rfl
    · exact InitState.follow_atEnd _ _ _

/-! ### Reset (R231) -/

theorem State.nextEmit_eq_some {s : State} {b : Byte} : s.nextEmit = some b ↔ s.emitsNext b := by
  unfold State.nextEmit State.emitsNext
  rw [List.head?_drop]
  by_cases h : s.rst = false ∧ s.busy = true
  · rw [if_pos h]
    cases hs : s.script[s.pc]? with
    | none => simp
    | some a => cases a <;> simp [h]
  · rw [if_neg h]
    exact ⟨nofun, fun e => absurd ⟨e.1, e.2.1⟩ h⟩

/-- Everything the running operation can do before reset strikes: nothing, a cut bus write, or a bus write whose settle delay is
abandoned. -/
theorem State.cutAction_cases (k : Strike) (s : State) :
    ((k = .before ∨ ∀ b, ¬ s.emitsNext b) ∧ s.cutAction k = s) ∨
    (∃ b, k = .inWrite ∧ s.emitsNext b ∧ s.cutAction k = s.cutWrite b) ∨
    (∃ b, k = .inSettle ∧ s.emitsNext b ∧ s.cutAction k = s.transact [] b) := by
  cases he : s.nextEmit with
  | none =>
    have hn : ∀ b, ¬ s.emitsNext b := fun b h => by rw [State.nextEmit_eq_some.2 h] at he; cases he
    exact .inl ⟨.inr hn, by unfold State.cutAction; rw [he]; cases k <;> rfl⟩
  | some b =>
    have h := State.nextEmit_eq_some.1 he
    cases k with
    | before => exact .inl ⟨.inl rfl, by unfold State.cutAction; rw [he]⟩
    | inWrite => exact .inr (.inl ⟨b, rfl, h, by unfold State.cutAction; rw [he]⟩)
    | inSettle => exact .inr (.inr ⟨b, rfl, h, by unfold State.cutAction; rw [he]⟩)

theorem State.emitsNext_unique {s : State} {b b' : Byte} (h : s.emitsNext b) (h' : s.emitsNext b') : b = b' := by
  have := h.2.2.symm.trans h'.2.2
  simpa using this

/-! ### Requests, the text port -/

theorem State.accept_of_ready {s : State} (h : s.busy = false) (w : ReqWord) (sc : List Action) :
    s.accept w sc =
      { s with
        req := w, busy := true, result := .ok, errIndex := 0#8
        script := sc, pc := 0, nsent := 0#8 } := by
  simp [State.accept, State.reqReady, h]

theorem State.accept_of_busy {s : State} (h : s.busy = true) (w : ReqWord) (sc : List Action) : s.accept w sc = s := by
  simp [State.accept, State.reqReady, h]

theorem State.refuse_of_ready {s : State} (h : s.busy = false) (w : ReqWord) :
    s.refuse w = { s with req := w, busy := false, result := .refused, errIndex := 0#8 } := by
  simp [State.refuse, State.reqReady, h]

theorem State.refuse_of_busy {s : State} (h : s.busy = true) (w : ReqWord) : s.refuse w = s := by
  simp [State.refuse, State.reqReady, h]

theorem State.acceptRender_of_ready {s : State} (h : s.busy = false) (w : ReqWord) (n : Nat) :
    s.acceptRender w n =
      { s with
        req := w, busy := true, result := .ok, errIndex := 0#8
        script := (renderLoop s.cfg 0 (textBytes s.text s.draws n)).1, pc := 0, nsent := 0#8
        col := (renderLoop s.cfg 0 (textBytes s.text s.draws n)).2, draws := s.draws + n } := by
  simp [State.acceptRender, State.accept, State.reqReady, h]

theorem State.acceptRender_of_busy {s : State} (h : s.busy = true) (w : ReqWord) (n : Nat) : s.acceptRender w n = s := by
  simp [State.acceptRender, State.reqReady, h]

theorem State.writeText_of_busy {s : State} (h : s.busy = true) (i : BitVec 6) (v : Byte) : s.writeText i v = s := by
  simp [State.writeText, h]

theorem State.writeText_of_lt {s : State} (h : s.busy = false) {i : BitVec 6} (hi : i.toNat < s.cfg.textMax) (v : Byte) :
    s.writeText i v = { s with text := Memory.write none s.text i.toNat v } := by
  simp [State.writeText, h, hi]

theorem State.writeText_of_ge {s : State} (h : s.busy = false) {i : BitVec 6} (hi : s.cfg.textMax ≤ i.toNat) (v : Byte) :
    s.writeText i v = s := by
  simp [State.writeText, h, Nat.not_lt.2 hi]

end Sys2Proof.Machine
end

