-- ==== Sys2Proof/Laws/PerInstr.lean ====
section
/-! SUPPORT. Per instruction: the word the encoder writes matches that instruction's row of spec/opcode_table.json. -/

namespace Sys2Proof.Laws

/-- A row's width, mask and match, as spec/opcode_table.json gives them (30_encoding R100). -/
structure Row where
  bits  : Nat
  mask  : Nat
  value : Nat
  deriving DecidableEq, Repr

/-- The row of an instruction; INIT's row has no word. -/
def rowOf : Instr → Option Row
  | .latchCmd _ => some ⟨12, 0xFF0, 0x100⟩
  | .latchData _ => some ⟨12, 0xFF0, 0x200⟩
  | .sendCmd _ => some ⟨12, 0xF00, 0x300⟩
  | .sendData _ => some ⟨12, 0xF00, 0x400⟩
  | .render _ => some ⟨12, 0xF00, 0x500⟩
  | .tbCmdHi _ => some ⟨8, 0x0F, 0x0C⟩
  | .tbCmdLo _ => some ⟨8, 0x0F, 0x08⟩
  | .tbDataHi _ => some ⟨8, 0x0F, 0x0D⟩
  | .tbDataLo _ => some ⟨8, 0x0F, 0x09⟩
  | .functionSet => some ⟨8, 0xFF, 0x28⟩
  | .displayControl => some ⟨8, 0xFF, 0x0C⟩
  | .clearDisplay => some ⟨8, 0xFF, 0x01⟩
  | .entryMode => some ⟨8, 0xFF, 0x06⟩
  | .setDdramRow2 => some ⟨8, 0xFF, 0xC0⟩
  | .resetNibble => some ⟨4, 0xF, 0x3⟩
  | .fourbitNibble => some ⟨4, 0xF, 0x2⟩
  | .init => none

/-- A word as a width and a number. -/
def numbered : TableWord → Option (Nat × Nat)
  | .req w => some (12, w.toNat)
  | .tb b => some (8, b.toNat)
  | .cmd8 v => some (8, v.toNat)
  | .nib4 p => some (4, p.toNat)
  | .reset => none

/-- The encoder's word has the width of the row, and the row's fixed bits. -/
def TableMatch.Statement (i : Instr) : Prop :=
  ∀ c : Cfg, c.DefaultMasks →
    match rowOf i with
    | none => numbered (encode c i) = none
    | some r => ∃ w, numbered (encode c i) = some (r.bits, w) ∧ w &&& r.mask = r.value

theorem TableMatch.latchCmd (p : Nibble) : TableMatch.Statement (.latchCmd p) :=
  fun _ _ => ⟨_, rfl, by revert p; decide⟩

theorem TableMatch.latchData (p : Nibble) : TableMatch.Statement (.latchData p) :=
  fun _ _ => ⟨_, rfl, by revert p; decide⟩

theorem TableMatch.sendCmd (c : Byte) : TableMatch.Statement (.sendCmd c) :=
  fun _ _ => ⟨_, rfl, by revert c; decide⟩

theorem TableMatch.sendData (c : Byte) : TableMatch.Statement (.sendData c) :=
  fun _ _ => ⟨_, rfl, by revert c; decide⟩

theorem TableMatch.render (n : Byte) : TableMatch.Statement (.render n) :=
  fun _ _ => ⟨_, rfl, by revert n; decide⟩

theorem TableMatch.tbCmdHi (p : Nibble) : TableMatch.Statement (.tbCmdHi p) :=
  fun _ h => ⟨_, rfl, by rw [transportByte_eq_append, controlNibble_default h]; revert p; decide⟩

theorem TableMatch.tbCmdLo (p : Nibble) : TableMatch.Statement (.tbCmdLo p) :=
  fun _ h => ⟨_, rfl, by rw [transportByte_eq_append, controlNibble_default h]; revert p; decide⟩

theorem TableMatch.tbDataHi (p : Nibble) : TableMatch.Statement (.tbDataHi p) :=
  fun _ h => ⟨_, rfl, by rw [transportByte_eq_append, controlNibble_default h]; revert p; decide⟩

theorem TableMatch.tbDataLo (p : Nibble) : TableMatch.Statement (.tbDataLo p) :=
  fun _ h => ⟨_, rfl, by rw [transportByte_eq_append, controlNibble_default h]; revert p; decide⟩

theorem TableMatch.functionSet : TableMatch.Statement .functionSet := fun _ _ => ⟨_, rfl, rfl⟩

theorem TableMatch.displayControl : TableMatch.Statement .displayControl := fun _ _ => ⟨_, rfl, rfl⟩

theorem TableMatch.clearDisplay : TableMatch.Statement .clearDisplay := fun _ _ => ⟨_, rfl, rfl⟩

theorem TableMatch.entryMode : TableMatch.Statement .entryMode := fun _ _ => ⟨_, rfl, rfl⟩

theorem TableMatch.setDdramRow2 : TableMatch.Statement .setDdramRow2 := fun _ _ => ⟨_, rfl, rfl⟩

theorem TableMatch.resetNibble : TableMatch.Statement .resetNibble := fun _ _ => ⟨_, rfl, rfl⟩

theorem TableMatch.fourbitNibble : TableMatch.Statement .fourbitNibble := fun _ _ => ⟨_, rfl, rfl⟩

theorem TableMatch.init : TableMatch.Statement .init := fun _ _ => rfl

end Sys2Proof.Laws
end

