-- ==== Sys2Proof/Laws/Script.lean ====
section
/-! SUPPORT. What the script fragments hold: their bytes, their lengths, and that every action of theirs is one a script may hold. -/

namespace Sys2Proof.Machine

/-! ### Bytes and lengths -/

@[simp] theorem emitted_latchNibble (c : Cfg) (p : Nibble) (rs : Bool) :
    emitted (latchNibble c p rs) = [transportByte c p rs true, transportByte c p rs false] := rfl

@[simp] theorem emitted_sendCode (c : Cfg) (v : Byte) (rs : Bool) :
    emitted (sendCode c v rs) =
      [transportByte c (hiNibble v) rs true, transportByte c (hiNibble v) rs false,
       transportByte c (loNibble v) rs true, transportByte c (loNibble v) rs false] := rfl

@[simp] theorem length_latchNibble (c : Cfg) (p : Nibble) (rs : Bool) : (latchNibble c p rs).length = 2 := rfl

@[simp] theorem length_sendCode (c : Cfg) (v : Byte) (rs : Bool) : (sendCode c v rs).length = 4 := rfl

@[simp] theorem length_sendChar (c : Cfg) (v : Byte) : (sendChar c v).length = 4 := rfl

@[simp] theorem length_initScript (c : Cfg) : (initScript c).length = 30 := rfl

@[simp] theorem length_emitted_initScript (c : Cfg) : (emitted (initScript c)).length = 24 := rfl

/-! ### Actions a script may hold -/

theorem actionOk_emit {c : Cfg} (h : c.Wf) (p : Nibble) (rs en : Bool) :
    actionOk c (.emit (transportByte c p rs en)) = true := by
  simp [actionOk, decodeTb_transportByte h, Except.toOption]

theorem actionOk_latchNibble {c : Cfg} (h : c.Wf) (p : Nibble) (rs : Bool) :
    ∀ a ∈ latchNibble c p rs, actionOk c a = true := by
  intro a ha
  simp only [latchNibble, List.mem_cons, List.not_mem_nil, or_false] at ha
  rcases ha with rfl | rfl <;> exact actionOk_emit h _ _ _

theorem actionOk_sendCode {c : Cfg} (h : c.Wf) (v : Byte) (rs : Bool) :
    ∀ a ∈ sendCode c v rs, actionOk c a = true := by
  intro a ha
  rcases List.mem_append.1 ha with ha | ha <;> exact actionOk_latchNibble h _ _ a ha

theorem actionOk_sendChar {c : Cfg} (h : c.Wf) (v : Byte) : ∀ a ∈ sendChar c v, actionOk c a = true :=
  actionOk_sendCode h _ _

theorem actionOk_resetNibbleScript {c : Cfg} (h : c.Wf) : ∀ a ∈ resetNibbleScript c, actionOk c a = true := by
  intro a ha
  rcases List.mem_append.1 ha with ha | ha
  · exact actionOk_latchNibble h _ _ a ha
  · rw [List.mem_singleton.1 ha]; rfl

theorem actionOk_fourbitNibbleScript {c : Cfg} (h : c.Wf) : ∀ a ∈ fourbitNibbleScript c, actionOk c a = true := by
  intro a ha
  rcases List.mem_append.1 ha with ha | ha
  · exact actionOk_latchNibble h _ _ a ha
  · rw [List.mem_singleton.1 ha]; rfl

theorem actionOk_initScript {c : Cfg} (h : c.Wf) : ∀ a ∈ initScript c, actionOk c a = true := by
  intro a ha
  simp only [initScript, List.mem_append] at ha
  rcases ha with ((((((((ha | ha) | ha) | ha) | ha) | ha) | ha) | ha) | ha) | ha
  · rw [List.mem_singleton.1 ha]; rfl
  · exact actionOk_resetNibbleScript h a ha
  · exact actionOk_resetNibbleScript h a ha
  · exact actionOk_resetNibbleScript h a ha
  · exact actionOk_fourbitNibbleScript h a ha
  · exact actionOk_sendCode h _ _ a ha
  · exact actionOk_sendCode h _ _ a ha
  · exact actionOk_sendCode h _ _ a ha
  · exact actionOk_sendCode h _ _ a ha
  · rw [List.mem_singleton.1 ha]; rfl

theorem actionOk_renderLoop {c : Cfg} (h : c.Wf) (col : Nat) (vs : List Byte) :
    ∀ a ∈ (renderLoop c col vs).1, actionOk c a = true := by
  induction vs generalizing col with
  | nil => intro a ha; simp [renderLoop] at ha
  | cons v vs ih =>
    intro a ha
    simp only [renderLoop, List.mem_append] at ha
    rcases ha with ha | ha
    · unfold renderByte at ha
      split at ha
      · rcases List.mem_append.1 ha with ha | ha
        · exact actionOk_sendCode h _ _ a ha
        · split at ha
          · simp at ha
          · exact actionOk_sendChar h _ a ha
      · exact actionOk_sendChar h _ a ha
    · exact ih _ a ha

/-- A byte a script may hold is a transport byte. -/
theorem eq_transportByte_of_actionOk {c : Cfg} {b : Byte} (h : actionOk c (.emit b) = true) :
    ∃ p rs en, b = transportByte c p rs en ∧ decodeTb c b = .ok (tbForm p rs en) := by
  unfold actionOk at h
  cases hd : decodeTb c b with
  | error e => simp [hd, Except.toOption] at h
  | ok i =>
    obtain ⟨p, rs, en, hb, rfl⟩ := decodeTb_ok hd
    exact ⟨p, rs, en, hb, rfl⟩

/-! ### The renderer's loop -/

@[simp] theorem renderLoop_nil (c : Cfg) (col : Nat) : renderLoop c col [] = ([], col) := rfl

theorem renderLoop_cons (c : Cfg) (col : Nat) (v : Byte) (vs : List Byte) :
    renderLoop c col (v :: vs) = (renderByte c col v ++ (renderLoop c (col + 1) vs).1, (renderLoop c (col + 1) vs).2) := rfl

/-- COL counts every source byte, the skipped one too (R29, R184). -/
theorem renderLoop_col (c : Cfg) (col : Nat) (vs : List Byte) : (renderLoop c col vs).2 = col + vs.length := by
  induction vs generalizing col with
  | nil => rfl
  | cons v vs ih => rw [renderLoop_cons, ih]; simp; omega

/-- Away from column 16 the loop body is one character write (R181). -/
theorem renderByte_of_ne {c : Cfg} {col : Nat} (h : col ≠ 16) (v : Byte) : renderByte c col v = sendChar c v := by
  simp [renderByte, h]

@[simp] theorem length_textBytes (m : Memory) (d n : Nat) : (textBytes m d n).length = n := by simp [textBytes]

/-- RENDER never emits more than four bytes for each source byte and four for the row-two command (R185). -/
theorem length_emitted_renderLoop_le (c : Cfg) (col : Nat) (vs : List Byte) :
    (emitted (renderLoop c col vs).1).length ≤ 4 * vs.length + (if col ≤ 16 then 4 else 0) := by
  induction vs generalizing col with
  | nil => simp
  | cons v vs ih =>
    rw [renderLoop_cons]
    have h := ih (col + 1)
    have hc : (emitted (sendChar c (v : Byte))).length = 4 := rfl
    rw [emitted_append, List.length_append, List.length_cons]
    rcases Nat.lt_trichotomy col 16 with hlt | heq | hgt
    · rw [renderByte_of_ne (by omega), hc]
      split at h <;> split <;> omega
    · subst heq
      have : (emitted (renderByte c 16 v)).length ≤ 8 := by
        unfold renderByte
        split
        · split <;> simp [sendChar]
        · simp [sendChar]
      split at h <;> split <;> omega
    · rw [renderByte_of_ne (by omega), hc]
      split at h <;> split <;> omega

end Sys2Proof.Machine
end

