-- ==== Sys2Proof/Laws/Step.lean ====
section
/-! SUPPORT. What one instruction and one step can do, said once. -/

namespace Sys2Proof.Machine

/-! ### Instructions -/

/-- The fragment a TB, CMD8 or NIB4 form performs (R83, R85). -/
def fragmentOf (c : Cfg) : Instr → Option (List Action)
  | .tbCmdHi p => some [.emit (transportByte c p false true)]
  | .tbCmdLo p => some [.emit (transportByte c p false false)]
  | .tbDataHi p => some [.emit (transportByte c p true true)]
  | .tbDataLo p => some [.emit (transportByte c p true false)]
  | .functionSet => some (sendCode c 0x28#8 false)
  | .displayControl => some (sendCode c 0x0C#8 false)
  | .clearDisplay => some (sendCode c 0x01#8 false)
  | .entryMode => some (sendCode c 0x06#8 false)
  | .setDdramRow2 => some (sendCode c 0xC0#8 false)
  | .resetNibble => some (resetNibbleScript c)
  | .fourbitNibble => some (fourbitNibbleScript c)
  | .latchCmd _ | .latchData _ | .sendCmd _ | .sendData _ | .render _ | .init => none

theorem State.runActions_emit (b : Byte) (s : State) : State.runActions [.emit b] s = s.emit b := by
  unfold State.runActions
  split <;> rfl

/-- Every emitted form runs its fragment. -/
theorem exec_of_fragment {i : Instr} {s : State} {as : List Action} (h : fragmentOf s.cfg i = some as) :
    exec i s = .next (State.runActions as s) := by
  cases i <;> simp only [fragmentOf, Option.some.injEq, reduceCtorEq] at h <;> subst h <;>
    first
    | rfl
    | exact congrArg _ (State.runActions_emit _ s).symm

/-- The script of a request other than RENDER (R133, R134, R144, R145), with its word. -/
def requestOf (c : Cfg) : Instr → Option (ReqWord × List Action)
  | .latchCmd p => some (reqWord 0x1#4 (0#4 ++ p), latchNibble c p false)
  | .latchData p => some (reqWord 0x2#4 (0#4 ++ p), latchNibble c p true)
  | .sendCmd v => some (reqWord 0x3#4 v, sendCode c v false)
  | .sendData v => some (reqWord 0x4#4 v, sendChar c v)
  | .render _ | .tbCmdHi _ | .tbCmdLo _ | .tbDataHi _ | .tbDataLo _ | .functionSet | .displayControl => none
  | .clearDisplay | .entryMode | .setDdramRow2 | .resetNibble | .fourbitNibble | .init => none

theorem exec_of_request {i : Instr} {s : State} {w : ReqWord} {sc : List Action}
    (h : requestOf s.cfg i = some (w, sc)) : exec i s = .next (s.accept w sc) := by
  cases i <;> simp only [requestOf, Option.some.injEq, Prod.mk.injEq, reduceCtorEq] at h <;>
    obtain ⟨rfl, rfl⟩ := h <;> rfl

/-- Everything an instruction can do: run a fragment, be accepted, be accepted as a RENDER, be refused, start INIT. -/
theorem exec_cases (i : Instr) (s : State) :
    (∃ as, fragmentOf s.cfg i = some as ∧ exec i s = .next (State.runActions as s)) ∨
    (∃ w sc, requestOf s.cfg i = some (w, sc) ∧ exec i s = .next (s.accept w sc)) ∨
    (∃ n, i = .render n ∧ n.toNat ≤ s.cfg.textMax ∧
      exec i s = .next (s.acceptRender (reqWord 0x5#4 n) n.toNat)) ∨
    (∃ n, i = .render n ∧ s.cfg.textMax < n.toNat ∧ exec i s = .next (s.refuse (reqWord 0x5#4 n))) ∨
    (i = .init ∧ exec i s = .next s.startInit) := by
  cases hf : fragmentOf s.cfg i with
  | some as => exact .inl ⟨as, rfl, exec_of_fragment hf⟩
  | none =>
    cases hr : requestOf s.cfg i with
    | some r => exact .inr (.inl ⟨r.1, r.2, rfl, exec_of_request hr⟩)
    | none =>
      cases i <;> simp [fragmentOf, requestOf] at hf hr
      case render n =>
        by_cases hn : n.toNat ≤ s.cfg.textMax
        · exact .inr (.inr (.inl ⟨n, rfl, hn, if_pos hn⟩))
        · exact .inr (.inr (.inr (.inl ⟨n, rfl, Nat.lt_of_not_le hn, if_neg hn⟩)))
      case init => exact .inr (.inr (.inr (.inr ⟨rfl, rfl⟩)))

/-- A fragment's actions are ones a script may hold. -/
theorem fragmentOf_ok {c : Cfg} (h : c.Wf) {i : Instr} {as : List Action} (hi : fragmentOf c i = some as) :
    ∀ a ∈ as, actionOk c a = true := by
  cases i <;> simp only [fragmentOf, Option.some.injEq, reduceCtorEq] at hi <;> subst hi
  case tbCmdHi | tbCmdLo | tbDataHi | tbDataLo =>
    intro a ha
    rw [List.mem_singleton.1 ha]
    exact actionOk_emit h _ _ _
  case functionSet | displayControl | clearDisplay | entryMode | setDdramRow2 => exact actionOk_sendCode h _ _
  case resetNibble => exact actionOk_resetNibbleScript h
  case fourbitNibble => exact actionOk_fourbitNibbleScript h

/-! ### Fetching -/

/-- A transport-byte form fetched at an EMIT performs that very action. -/
theorem fragmentOf_of_decodeTb {c : Cfg} {b : Byte} {i : Instr} (h : decodeTb c b = .ok i) :
    fragmentOf c i = some [.emit b] := by
  obtain ⟨p, rs, en, rfl, rfl⟩ := decodeTb_ok h
  cases rs <;> cases en <;> rfl

theorem decodeNib4_ok {p : Nibble} {i : Instr} (h : (decodeNib4 p).toOption = some i) :
    (p = 0x3#4 ∧ i = .resetNibble) ∨ (p = 0x2#4 ∧ i = .fourbitNibble) := by
  unfold decodeNib4 at h
  split at h
  · exact .inl ⟨‹_›, by simpa [Except.toOption] using h.symm⟩
  split at h
  · exact .inr ⟨‹_›, by simpa [Except.toOption] using h.symm⟩
  · simp [Except.toOption] at h

theorem fragmentOf_of_decodeCmd8 {v : Byte} {i : Instr} (h : (decodeCmd8 v).toOption = some i) (c : Cfg) :
    fragmentOf c i = some (sendCode c v false) := by
  unfold decodeCmd8 at h
  split at h
  · subst v; simp only [Except.toOption, Option.some.injEq] at h; subst h; rfl
  split at h
  · subst v; simp only [Except.toOption, Option.some.injEq] at h; subst h; rfl
  split at h
  · subst v; simp only [Except.toOption, Option.some.injEq] at h; subst h; rfl
  split at h
  · subst v; simp only [Except.toOption, Option.some.injEq] at h; subst h; rfl
  split at h
  · subst v; simp only [Except.toOption, Option.some.injEq] at h; subst h; rfl
  · simp [Except.toOption] at h

theorem tbForm_eq_cmdHi {p q : Nibble} {rs en : Bool} (h : tbForm p rs en = .tbCmdHi q) :
    p = q ∧ rs = false ∧ en = true := by
  cases rs <;> cases en <;> simp_all [tbForm]

theorem tbForm_eq_cmdLo {p q : Nibble} {rs en : Bool} (h : tbForm p rs en = .tbCmdLo q) :
    p = q ∧ rs = false ∧ en = false := by
  cases rs <;> cases en <;> simp_all [tbForm]

theorem decodeTb_cmdHi {c : Cfg} {b : Byte} {p : Nibble} (h : decodeTb c b = .ok (.tbCmdHi p)) :
    b = transportByte c p false true := by
  obtain ⟨q, rs, en, hb, hi⟩ := decodeTb_ok h
  obtain ⟨rfl, rfl, rfl⟩ := tbForm_eq_cmdHi hi.symm
  exact hb

theorem decodeTb_cmdLo {c : Cfg} {b : Byte} {p : Nibble} (h : decodeTb c b = .ok (.tbCmdLo p)) :
    b = transportByte c p false false := by
  obtain ⟨q, rs, en, hb, hi⟩ := decodeTb_ok h
  obtain ⟨rfl, rfl, rfl⟩ := tbForm_eq_cmdLo hi.symm
  exact hb

theorem nibbleForm_spec {c : Cfg} {a b : Byte} {i : Instr} (h : nibbleForm c a b = some i) :
    fragmentOf c i = some [.emit a, .emit b, .delay .reset] := by
  unfold nibbleForm at h
  split at h
  · rename_i p q ha hb
    split at h
    · subst q
      rcases decodeNib4_ok h with ⟨rfl, rfl⟩ | ⟨rfl, rfl⟩ <;> rw [decodeTb_cmdHi ha, decodeTb_cmdLo hb] <;> rfl
    · cases h
  · cases h

theorem codeForm_spec {c : Cfg} {a b d e : Byte} {i : Instr} (h : codeForm c a b d e = some i) :
    fragmentOf c i = some [.emit a, .emit b, .emit d, .emit e] := by
  unfold codeForm at h
  split at h
  · rename_i p q p' q' ha hb hd he
    split at h
    · rename_i heq
      obtain ⟨rfl, rfl⟩ := heq
      rw [fragmentOf_of_decodeCmd8 h c, decodeTb_cmdHi ha, decodeTb_cmdLo hb, decodeTb_cmdHi hd, decodeTb_cmdLo he]
      simp [sendCode, latchNibble]
    · cases h
  · cases h

/-- A form fetched from a script performs the actions the script begins with there. -/
theorem formAt_spec {c : Cfg} {as : List Action} {i : Instr} (h : formAt c as = some i) :
    ∃ frag rest, as = frag ++ rest ∧ fragmentOf c i = some frag := by
  unfold formAt at h
  split at h
  · exact ⟨_, _, rfl, nibbleForm_spec h⟩
  · exact ⟨_, _, rfl, codeForm_spec h⟩
  · cases h

/-- What the executor fetches: the end, a delay, or an instruction that performs the actions the script stands at;
a bad byte only where the script holds one. -/
theorem fetchScript_cases (s : State) :
    (s.script.drop s.pc = [] ∧ s.fetchScript = .finish) ∨
    (∃ d rest, s.script.drop s.pc = .delay d :: rest ∧ s.fetchScript = .delay d) ∨
    (∃ frag rest i, s.script.drop s.pc = frag ++ rest ∧ fragmentOf s.cfg i = some frag ∧ s.fetchScript = .run i) ∨
    (∃ b rest, s.script.drop s.pc = .emit b :: rest ∧ actionOk s.cfg (.emit b) = false ∧ s.fetchScript = .badByte) := by
  have key : ∀ as : List Action,
      (as = [] ∧ fetchAction s.cfg as = .finish) ∨
      (∃ d rest, as = .delay d :: rest ∧ fetchAction s.cfg as = .delay d) ∨
      (∃ frag rest i, as = frag ++ rest ∧ fragmentOf s.cfg i = some frag ∧ fetchAction s.cfg as = .run i) ∨
      (∃ b rest, as = .emit b :: rest ∧ actionOk s.cfg (.emit b) = false ∧ fetchAction s.cfg as = .badByte) := by
    intro as
    unfold fetchAction
    split
    · exact .inl ⟨rfl, rfl⟩
    · exact .inr (.inl ⟨_, _, rfl, rfl⟩)
    · rename_i b rest
      split
      · rename_i i hi
        exact .inr (.inr (.inl ⟨[.emit b], rest, i, rfl, fragmentOf_of_decodeTb hi, rfl⟩))
      · rename_i e he
        exact .inr (.inr (.inr ⟨b, rest, rfl, by simp [actionOk, he, Except.toOption], rfl⟩))
  unfold State.fetchScript
  split
  · exact key _
  · split
    · rename_i i hi
      obtain ⟨frag, rest, h1, h2⟩ := formAt_spec hi
      exact .inr (.inr (.inl ⟨frag, rest, i, h1, h2, rfl⟩))
    · exact key _

/-- A CMD8 fragment is fetched as its row where a step takes whole forms (R140). -/
theorem formAt_sendCode {c : Cfg} (hc : c.Wf) {v : Byte} {i : Instr} (h : decodeCmd8 v = .ok i) (rest : List Action) :
    formAt c (sendCode c v false ++ rest) = some i := by
  simp only [sendCode, latchNibble, List.cons_append, List.nil_append, formAt, codeForm, decodeTb_transportByte hc, tbForm]
  simp [nibbles_append, h, Except.toOption]

/-- A NIB4 fragment is fetched as its row where a step takes whole forms (R163, R164). -/
theorem formAt_latchNibble {c : Cfg} (hc : c.Wf) {p : Nibble} {i : Instr} (h : decodeNib4 p = .ok i)
    (rest : List Action) : formAt c (latchNibble c p false ++ .delay .reset :: rest) = some i := by
  simp only [latchNibble, List.cons_append, List.nil_append, formAt, nibbleForm, decodeTb_transportByte hc, tbForm]
  simp [h, Except.toOption]

/-- Out of reset a busy block fetches from its script. -/
theorem State.fetch_of_busy {s : State} (h : s.released) (hb : s.busy = true) : s.fetch = s.fetchScript := by
  unfold State.fetch
  rw [h.2, h.1, hb]
  rfl

/-- Out of reset an idle block fetches at its ports. -/
theorem State.fetch_of_idle {s : State} (h : s.released) (hb : s.busy = false) : s.fetch = s.fetchHost := by
  unfold State.fetch
  rw [h.2, h.1, hb]
  rfl

/-- A busy block uses up one sample of `rst` and no move of the host. -/
theorem State.taken_of_busy {s : State} (hb : s.busy = true) : s.taken = { s with rstIn := s.rstIn.tail } := by
  simp [State.taken, hb]

/-- An idle block out of reset uses up one sample of `rst` and one move of the host. -/
theorem State.taken_of_idle {s : State} (h : s.released) (hb : s.busy = false) :
    s.taken = { s with rstIn := s.rstIn.tail, hostIn := s.hostIn.tail } := by
  unfold State.taken
  rw [h.1, h.2, hb]
  rfl

/-- A fragment of an emitted form is not empty and has at most four actions. -/
theorem fragmentOf_length {c : Cfg} {i : Instr} {as : List Action} (h : fragmentOf c i = some as) :
    as ≠ [] ∧ as.length ≤ 4 := by
  cases i <;> simp only [fragmentOf, Option.some.injEq, reduceCtorEq] at h <;> subst h <;>
    simp [sendCode, latchNibble, resetNibbleScript, fourbitNibbleScript]

/-! ### One step -/

/-- Everything a step can do (R117): assert reset; release it; perform the actions the script stands at, a delay or the end;
at the ports of an idle block take a text write, run or refuse a request word, or do nothing; or stop at a bad byte. -/
theorem step_cases (s : State) :
    (∃ k p, s.rstIn.headD .run = .hold k p ∧ step s = .next (s.taken.assertReset k p)) ∨
    (s.rstIn.headD .run = .run ∧ s.rst = true ∧ step s = exec .init s.taken) ∨
    (s.released ∧ s.busy = true ∧
      ((s.script.drop s.pc = [] ∧ step s = .next (s.taken.finish .ok 0#8)) ∨
       (∃ d rest, s.script.drop s.pc = .delay d :: rest ∧ step s = .next (s.taken.delay d)) ∨
       (∃ frag rest i, s.script.drop s.pc = frag ++ rest ∧ fragmentOf s.cfg i = some frag ∧
         step s = exec i s.taken) ∨
       (∃ b rest, s.script.drop s.pc = .emit b :: rest ∧ actionOk s.cfg (.emit b) = false ∧
         step s = .fault .notATransportByte))) ∨
    (s.released ∧ s.busy = false ∧
      ((∃ i v rest, s.hostIn = .text i v :: rest ∧ step s = .next (s.taken.writeText i v)) ∨
       (∃ w rest i, s.hostIn = .request w :: rest ∧ decodeReq s.cfg w = .ok i ∧ step s = exec i s.taken) ∨
       (∃ w rest r, s.hostIn = .request w :: rest ∧ decodeReq s.cfg w = .error r ∧ step s = .next (s.taken.refuse w)) ∨
       ((∀ m rest, s.hostIn = m :: rest → m = .idle) ∧ step s = .next s.taken))) := by
  cases hr : s.rstIn.headD .run with
  | hold k p => exact .inl ⟨k, p, rfl, by simp only [step, State.fetch, hr]⟩
  | run =>
    refine .inr ?_
    cases hrst : s.rst with
    | true => exact .inl ⟨rfl, rfl, by simp only [step, State.fetch, hr, hrst, if_true]⟩
    | false =>
      refine .inr ?_
      cases hb : s.busy with
      | true =>
        refine .inl ⟨⟨hrst, hr⟩, rfl, ?_⟩
        have e : s.fetch = s.fetchScript := by simp only [State.fetch, hr, hrst, hb, Bool.false_eq_true, if_false, if_true]
        rcases fetchScript_cases s with ⟨h, hf⟩ | ⟨d, rest, h, hf⟩ | ⟨frag, rest, i, h, hi, hf⟩ | ⟨b, rest, h, ho, hf⟩
        · exact .inl ⟨h, by simp only [step, e, hf]⟩
        · exact .inr (.inl ⟨d, rest, h, by simp only [step, e, hf]⟩)
        · exact .inr (.inr (.inl ⟨frag, rest, i, h, hi, by simp only [step, e, hf]⟩))
        · exact .inr (.inr (.inr ⟨b, rest, h, ho, by simp only [step, e, hf]⟩))
      | false =>
        refine .inr ⟨⟨hrst, hr⟩, rfl, ?_⟩
        have e : s.fetch = s.fetchHost := by simp only [State.fetch, hr, hrst, hb, Bool.false_eq_true, if_false]
        cases hh : s.hostIn with
        | nil => exact .inr (.inr (.inr ⟨by simp, by simp only [step, e, State.fetchHost, hh]⟩))
        | cons m rest =>
          cases m with
          | idle =>
            refine .inr (.inr (.inr ⟨?_, by simp only [step, e, State.fetchHost, hh]⟩))
            intro m r hm
            exact (List.cons.inj hm).1.symm
          | text i v => exact .inl ⟨i, v, rest, rfl, by simp only [step, e, State.fetchHost, hh]⟩
          | request w =>
            cases hd : decodeReq s.cfg w with
            | ok i => exact .inr (.inl ⟨w, rest, i, rfl, hd, by simp only [step, e, State.fetchHost, hh, hd]⟩)
            | error r => exact .inr (.inr (.inl ⟨w, rest, r, rfl, hd, by simp only [step, e, State.fetchHost, hh, hd]⟩))

end Sys2Proof.Machine
end

