-- ==== Sys2Proof/Laws/Run.lean ====
section
/-! SUPPORT. Runs of steps, what a busy step uses up, what a decoded request word is, and what a pulse pair does to the environment. -/

namespace Sys2Proof.Machine

/-- A run goes on from where a shorter one stands. -/
theorem stepN_add {m : Nat} {s t : State} (h : stepN m s = .next t) (n : Nat) : stepN (m + n) s = stepN n t := by
  induction m generalizing s with
  | zero =>
    simp only [stepN, Host.Outcome.next.injEq] at h
    subst h
    simp
  | succ m ih =>
    rw [Nat.succ_add]
    simp only [stepN] at h ⊢
    cases hs : step s with
    | next u => rw [hs] at h; exact ih h
    | fault r => rw [hs] at h; cases h
    | refused r => rw [hs] at h; cases h

theorem State.noReset.released {s : State} (h : s.noReset) : s.released := ⟨h.1, by rw [h.2]; rfl⟩

/-- A busy block whose reset input stays released uses nothing up. -/
theorem State.taken_of_noReset {s : State} (h : s.noReset) (hb : s.busy = true) : s.taken = s := by
  rw [State.taken_of_busy hb, h.2]
  show { s with rstIn := [] } = s
  rw [← h.2]

/-- The rest of a script after a fragment of it. -/
theorem drop_script {s t : State} {frag rest : List Action} (h : s.script.drop s.pc = frag ++ rest)
    (h1 : t.script = s.script) (h2 : t.pc = s.pc + frag.length) : t.script.drop t.pc = rest := by
  rw [h1, h2, ← List.drop_drop, h]
  simp

/-- A legal request word is a request: no emitted form, not INIT (R100). -/
theorem decodeReq_request {c : Cfg} {w : ReqWord} {i : Instr} (h : decodeReq c w = .ok i) :
    fragmentOf c i = none ∧ i ≠ .init := by
  unfold decodeReq at h
  simp only at h
  (repeat' split at h) <;> cases h <;> simp [fragmentOf]

/-- A request's script is one a block may run (R83, R185). -/
theorem requestOf_ok {c : Cfg} (h : c.Wf) {i : Instr} {w : ReqWord} {sc : List Action}
    (hi : requestOf c i = some (w, sc)) : (∀ a ∈ sc, actionOk c a = true) ∧ (emitted sc).length ≤ 4 := by
  cases i <;> simp only [requestOf, Option.some.injEq, Prod.mk.injEq, reduceCtorEq] at hi <;> obtain ⟨rfl, rfl⟩ := hi
  · exact ⟨actionOk_latchNibble h _ _, by simp⟩
  · exact ⟨actionOk_latchNibble h _ _, by simp⟩
  · exact ⟨actionOk_sendCode h _ _, by simp⟩
  · exact ⟨actionOk_sendChar h _, by simp [sendChar]⟩

/-- Up to column 16 the renderer's loop is one character write per byte (R183). -/
theorem renderLoop_of_le (c : Cfg) {vs : List Byte} {col : Nat} (h : col + vs.length ≤ 16) :
    (renderLoop c col vs).1 = vs.flatMap (sendChar c) := by
  induction vs generalizing col with
  | nil => rfl
  | cons v vs ih =>
    simp only [List.length_cons] at h
    rw [renderLoop_cons, renderByte_of_ne (by omega)]
    simp only [List.flatMap_cons]
    rw [ih (by omega)]

/-- Past column 16 the renderer's loop is one character write per byte again (R183). -/
theorem renderLoop_of_gt (c : Cfg) {vs : List Byte} {col : Nat} (h : 17 ≤ col) :
    (renderLoop c col vs).1 = vs.flatMap (sendChar c) := by
  induction vs generalizing col with
  | nil => rfl
  | cons v vs ih =>
    rw [renderLoop_cons, renderByte_of_ne (by omega)]
    simp only [List.flatMap_cons]
    rw [ih (by omega)]

/-- The renderer's loop over a line that reaches column 16: the row-two command between the bytes before it and the rest, whose first
byte is skipped when it is a space (R183, R184). -/
theorem renderLoop_append_cons (c : Cfg) (us vs : List Byte) (w : Byte) {col : Nat} (h : col + us.length = 16) :
    (renderLoop c col (us ++ w :: vs)).1 =
      us.flatMap (sendChar c) ++ sendCode c 0xC0#8 false ++
        (if w = 0x20#8 then vs else w :: vs).flatMap (sendChar c) := by
  induction us generalizing col with
  | nil =>
    obtain rfl : col = 16 := by simpa using h
    rw [List.nil_append, renderLoop_cons]
    simp only [renderByte, if_true]
    rw [renderLoop_of_gt c (by omega)]
    split <;> simp
  | cons u us ih =>
    simp only [List.length_cons] at h
    rw [List.cons_append, renderLoop_cons, renderByte_of_ne (by omega)]
    simp only [List.flatMap_cons]
    rw [ih (by omega)]
    simp

/-- An acknowledged pulse pair makes the controller latch its payload once, whatever the pins were (R71, R72, R130). -/
theorem State.runActions_latchNibble_lcd {s : State} (hc : s.cfg.Wf) (h : s.acks 2) (p : Nibble) (rs : Bool) :
    (State.runActions (latchNibble s.cfg p rs) s).lcd =
      ({ s.lcd with pins := transportByte s.cfg p rs false } : Lcd).latch (s.draws + 1) (s.drawAt 1).late rs p := by
  have h0 : s.draw.answer = .ack := h 0 (by omega)
  have h1 : (s.emit (transportByte s.cfg p rs true)).draw.answer = .ack := by
    unfold State.draw; rw [State.drawAt_emit]; exact h 1 (by omega)
  have hl : (s.emit (transportByte s.cfg p rs true)).draw.late = (s.drawAt 1).late := by
    unfold State.draw; rw [State.drawAt_emit]
  have hcfg : (s.emit (transportByte s.cfg p rs true)).cfg = s.cfg := by simp
  simp only [latchNibble, State.runActions, h0, h1]
  rw [State.emit_lcd, State.busWrite_lcd_of_ack h1, State.emit_lcd, State.busWrite_lcd_of_ack h0, hcfg, Lcd.write_hi hc,
    State.emit_draws, hl, Lcd.write_lo hc _ _ p p rs rs _ rfl]

end Sys2Proof.Machine
end

