-- ==== Sys2Proof/Tests/Slice0.lean ====
section
/-! SUPPORT. Tests whose expected values come from spec/95_test_vectors.md or from the encodings, each about one step, and for every
statement with hypotheses a concrete state that meets them. -/

open Sys2Proof Sys2Proof.Machine

namespace Sys2Proof.Tests

set_option synthInstance.maxSize 2000

/-! ### Small states -/

/-- The parameters of the test vectors, LCD_ADDR 0x27. -/
def cfg : Cfg := { Config.hardware with lcdAddr := 0x27#7 }

/-- A controller in step with the block after INIT, both rows blank. -/
def lcd : Lcd where
  pins := 0x68#8
  ctl :=
    { mode := .fourBit, phase := .high, hi := 0#4, ac := 0, fill := .byte 0x20#8, ddram := []
      twoLine := true, font5x8 := true, displayOn := true, cursorOn := false, blinkOn := false
      increment := true, shift := false }
  executing := false
  resetRuns := 0
  resetWait := false

/-- `n` acknowledged draws. -/
def ack (n : Nat) : List BusDraw := List.replicate n ⟨.ack, false⟩

/-- An idle block after INIT reached READY. -/
def idle : State :=
  { State.reset with
    cfg := cfg, rst := false, busy := false, initState := .ready, script := [], lcd := lcd, answers := ack 40 }

/-- An idle block offered a request word. -/
def offered (w : ReqWord) : State := { idle with hostIn := [.request w] }

/-- A running operation with script `sc`. -/
def running (sc : List Action) : State := { idle with busy := true, script := sc }

/-- A running operation whose write after the next `k` fails. -/
def failing (k : Nat) (sc : List Action) : State := { running sc with answers := ack k ++ [⟨.fail, false⟩] }

/-- The block under reset, every write of INIT to be acknowledged. -/
def held : State := { State.reset with cfg := cfg, lcd := lcd, answers := ack 40 }

/-- A running latch of payload 0x3: the state most witnesses use. -/
def latching : State := running (latchNibble cfg 0x3#4 false)

/-- The state an outcome answers. -/
def after : Host.Outcome State Fault Refusal → Option State
  | .next t => some t
  | .fault _ | .refused _ => none

/-- Sixteen 'A's and the given bytes as TEXT. -/
def textAfter16 (vs : List Byte) : Memory := ((List.replicate 16 0x41#8) ++ vs).zipIdx.map (fun x => (x.2, x.1))

/-! ### WellFormed smoke: the one check, and an ill-formed term it refuses -/

theorem test_wf_render_32 : (Instr.render 32#8).wf cfg = true := by decide

theorem test_wf_refuses_render_33 : (Instr.render 33#8).wf cfg = false := by decide

/-! ### Decoding, words written out from R91, R83, R85 and the vectors V-DEC -/

theorem test_decode_req :
    decodeReq cfg 0b000100001111#12 = .ok (.latchCmd 0xF#4) ∧
    decodeReq cfg 0b001000000100#12 = .ok (.latchData 0x4#4) ∧
    decodeReq cfg 0b001111111111#12 = .ok (.sendCmd 0xFF#8) ∧
    decodeReq cfg 0b010000000000#12 = .ok (.sendData 0x00#8) ∧
    decodeReq cfg 0b010100100000#12 = .ok (.render 32#8) := by decide

theorem test_decode_req_illegal :
    decodeReq cfg 0x000#12 = .error .reservedOpcode ∧ decodeReq cfg 0x0FF#12 = .error .reservedOpcode ∧
    decodeReq cfg 0x110#12 = .error .latchArgument ∧ decodeReq cfg 0x1F0#12 = .error .latchArgument ∧
    decodeReq cfg 0x230#12 = .error .latchArgument ∧ decodeReq cfg 0x521#12 = .error .renderTooLong ∧
    decodeReq cfg 0x600#12 = .error .reservedOpcode ∧ decodeReq cfg 0xFFF#12 = .error .reservedOpcode := by decide

/-- With TEXT_MAX 62 (V-DEC, last line). -/
theorem test_decode_textMax_62 :
    decodeReq { cfg with textMax := 62 } 0x53E#12 = .ok (.render 62#8) ∧
    decodeReq { cfg with textMax := 62 } 0x53F#12 = .error .renderTooLong := by decide

theorem test_decode_tb :
    decodeTb cfg 0b00111100#8 = .ok (.tbCmdHi 0x3#4) ∧ decodeTb cfg 0b00111000#8 = .ok (.tbCmdLo 0x3#4) ∧
    decodeTb cfg 0b01001101#8 = .ok (.tbDataHi 0x4#4) ∧ decodeTb cfg 0b01001001#8 = .ok (.tbDataLo 0x4#4) ∧
    decodeTb cfg 0b00110100#8 = .error .notATransportByte ∧ decodeTb cfg 0b00111110#8 = .error .notATransportByte := by
  decide

theorem test_decode_cmd8_nib4 :
    decodeCmd8 0b00101000#8 = .ok .functionSet ∧ decodeCmd8 0b00001100#8 = .ok .displayControl ∧
    decodeCmd8 0b00000001#8 = .ok .clearDisplay ∧ decodeCmd8 0b00000110#8 = .ok .entryMode ∧
    decodeCmd8 0b11000000#8 = .ok .setDdramRow2 ∧ decodeNib4 0b0011#4 = .ok .resetNibble ∧
    decodeNib4 0b0010#4 = .ok .fourbitNibble ∧ decodeNib4 0b0001#4 = .error .notAPayloadRow := by decide

theorem test_decodeTableWord :
    decodeTableWord 12 0x103 = some (.latchCmd 0x3#4) ∧ decodeTableWord 16 0x441 = some (.sendData 0x41#8) ∧
    decodeTableWord 8 0x3C = some (.tbCmdHi 0x3#4) ∧ decodeTableWord 8 0x28 = some .functionSet ∧
    decodeTableWord 8 0x3 = some .resetNibble ∧ decodeTableWord 0 0 = some .init ∧ decodeTableWord 12 0x600 = none := by
  decide

/-! ### Where a word is placed, the next step runs it -/

theorem test_place_request :
    (after (step (State.reset.withFetchWord 12 0x103))).map (fun t => (t.req, t.busy)) = some (0x103#12, true) := by decide

theorem test_place_code :
    step (State.reset.withFetchWord 8 0x28) = exec .functionSet (State.reset.withFetchWord 8 0x28).taken := rfl

theorem test_place_nibble :
    step (State.reset.withFetchWord 8 0x3) = exec .resetNibble (State.reset.withFetchWord 8 0x3).taken := rfl

theorem test_place_byte :
    step (State.reset.withFetchWord 8 0x3C) = exec (.tbCmdHi 0x3#4) (State.reset.withFetchWord 8 0x3C).taken := rfl

theorem test_place_reset :
    step (State.reset.withFetchWord 0 0) = exec .init (State.reset.withFetchWord 0 0).taken := rfl

/-! ### Requests (V-LAT, V-ENC, V-CHR, V-REN, V-DEC) -/

theorem test_latchCmd : (after (exec (.latchCmd 0x3#4) idle)).map (fun t => emitted t.script) = some [0x3C#8, 0x38#8] := by
  decide

theorem test_latchData : (after (exec (.latchData 0xF#4) idle)).map (fun t => emitted t.script) = some [0xFD#8, 0xF9#8] := by
  decide

/-- V-ENC-5. -/
theorem test_sendCmd :
    (after (exec (.sendCmd 0x28#8) idle)).map (fun t => emitted t.script) = some [0x2C#8, 0x28#8, 0x8C#8, 0x88#8] := by
  decide

/-- V-CHR-4 and V-CHR-6: the upper end of the printable range, and the code after it. -/
theorem test_sendData :
    (after (exec (.sendData 0x7E#8) idle)).map (fun t => emitted t.script) = some [0x7D#8, 0x79#8, 0xED#8, 0xE9#8] ∧
    (after (exec (.sendData 0x7F#8) idle)).map (fun t => emitted t.script) = some [0x2D#8, 0x29#8, 0x0D#8, 0x09#8] := by
  decide

/-- V-REN-7: only the first space of the run is skipped, after the row-two command; COL counts it. -/
theorem test_render_wrap :
    (after (exec (.render 19#8) { idle with text := textAfter16 [0x20#8, 0x20#8, 0x42#8] })).map
        (fun t => ((emitted t.script).drop 64, t.col)) =
      some ([0xCC#8, 0xC8#8, 0x0C#8, 0x08#8, 0x2D#8, 0x29#8, 0x0D#8, 0x09#8, 0x4D#8, 0x49#8, 0x2D#8, 0x29#8], 19) := by
  decide

/-- V-REN-3 and V-REN-1: a line of 16 sends no row-two command; RENDER 0 sends nothing. -/
theorem test_render_no_wrap :
    (after (exec (.render 16#8) { idle with text := textAfter16 [] })).map (fun t => t.script.length) = some 64 ∧
    (after (exec (.render 0#8) idle)).map (fun t => t.script) = some [] := by decide

/-- V-ERR-7 and V-ERR-8. -/
theorem test_refused :
    (after (step (offered 0x600#12))).map State.status = some 0x000C#16 ∧
    (after (step (offered 0x521#12))).map State.status = some 0x000C#16 := by decide

/-! ### Emitted forms (V-INIT, V-ERR) -/

/-- V-ERR-1: the first byte of LATCH_CMD 0x3 fails. -/
theorem test_tbCmdHi_fail :
    (after (exec (.tbCmdHi 0x3#4) (failing 0 (latchNibble cfg 0x3#4 false)))).map (fun t => (t.status, t.events)) =
      some (0x010A#16, [.write 0x27#7 0x3C#8 .fail, .delay .settle]) := by decide

theorem test_tbCmdLo :
    (after (exec (.tbCmdLo 0x3#4) (running []))).map (fun t => (t.status, t.events)) =
      some (0x0009#16, [.write 0x27#7 0x38#8 .ack, .delay .settle]) := by decide

theorem test_tbDataHi : (after (exec (.tbDataHi 0x4#4) (running []))).map (fun t => t.lcd.pins) = some 0x4D#8 := by decide

theorem test_tbDataLo : (after (exec (.tbDataLo 0x4#4) (running []))).map (fun t => t.lcd.pins) = some 0x49#8 := by decide

theorem test_functionSet : (after (exec .functionSet (running []))).map (fun t => t.nsent) = some 4#8 := by decide

/-- The bytes of R167. -/
theorem test_displayControl :
    (after (exec .displayControl (running []))).map State.events =
      some (ackedBytes cfg [0x0C#8, 0x08#8, 0xCC#8, 0xC8#8]) := by decide

/-- V-ERR-3: 0C 08, then 1C fails. -/
theorem test_clearDisplay_fail :
    (after (exec .clearDisplay (failing 2 []))).map (fun t => (t.status, t.events)) =
      some (0x030A#16, cutBytes cfg [0x0C#8, 0x08#8, 0x1C#8]) := by decide

theorem test_entryMode : (after (exec .entryMode (running []))).map (fun t => t.lcd.pins) = some 0x68#8 := by decide

theorem test_setDdramRow2 : (after (exec .setDdramRow2 (running []))).map (fun t => t.lcd.ctl.ac) = some 0x40 := by decide

/-- R163: 3C, 38, then the wait. -/
theorem test_resetNibble :
    (after (exec .resetNibble (running []))).map State.events =
      some (ackedBytes cfg [0x3C#8, 0x38#8] ++ [.delay .reset]) := by decide

/-- V-INIT-4, the 7th write of INIT: no wait follows the failed byte. -/
theorem test_fourbitNibble_fail :
    (after (exec .fourbitNibble { failing 0 [] with initState := .sFourBit, nsent := 6#8 })).map
        (fun t => (t.status, t.events)) =
      some (0x0712#16, [.write 0x27#7 0x2C#8 .fail, .delay .settle]) := by decide

set_option maxRecDepth 8192 in
/-- R232: the release of reset starts INIT at S_POWERON, STATUS 0x0001. -/
theorem test_init :
    (after (step held)).map (fun t => (t.status, t.rst, t.pc)) = some (0x0001#16, false, 0) := by decide

/-- R76: with entry mode 0x06 a character past column 16 of row two is stored at AC and AC goes up by one too. -/
theorem test_character_past_the_end :
    ((lcd.ctl.setDdramRow2.character 9 0x41#8).ac, (lcd.ctl.setDdramRow2.character 9 0x41#8).cell 0x40) = (0x41, 0x41#8) ∧
    (({ lcd.ctl with ac := 0x50 } : Controller).character 9 0x41#8).ac = 0x51 ∧
    (({ lcd.ctl with ac := 0x50 } : Controller).character 9 0x41#8).cell 0x50 = 0x41#8 := by decide

/-- R75: the low half of 0x28 selects two lines and the 5x8 font. -/
theorem test_lineAndFont :
    (({ lcd.ctl with twoLine := false, font5x8 := false } : Controller).lineAndFont 0x8#4) = lcd.ctl := by decide

/-! ### Reset, STATUS, the text port -/

theorem test_status_codes :
    (running []).status = 0x0009#16 ∧ ({ running [] with initState := .failed } : State).status = 0x0011#16 ∧
    idle.status = 0x0008#16 ∧ State.reset.status = 0x0001#16 := by decide

/-- V-TXT-2 to V-TXT-4: the last entry, and indices past it. -/
theorem test_text_write :
    (after (step { idle with hostIn := [.text 31#6 0x5A#8] })).map State.text = some [(31, 0x5A#8)] ∧
    (after (step { idle with hostIn := [.text 32#6 0x5A#8] })).map State.text = some [] ∧
    (after (step { idle with hostIn := [.text 63#6 0x5A#8] })).map State.text = some [] := by decide

/-- V-TXT-5: offered while BUSY = 1 it waits. -/
theorem test_text_waits :
    (after (step { running [.delay .final] with hostIn := [.text 0#6 0x51#8] })).map (fun t => (t.text, t.hostIn)) =
      some ([], [.text 0#6 0x51#8]) := by decide

/-- R231: reset during an operation ends it with no result. -/
theorem test_reset_strikes :
    (after (step { running (latchNibble cfg 0x3#4 false) with rstIn := [.hold .before false] })).map (fun t => (t.status, t.rst)) =
      some (0x0001#16, true) := by decide

/-- R231: in a bus write the outcome is unknown; after its answer, FAIL here, the write stands with no settle delay and no result. -/
theorem test_reset_cuts_a_write :
    (after (step { latching with rstIn := [.hold .inWrite false] })).map State.events =
      some [.cutWrite 0x27#7 0x3C#8] ∧
    (after (step { failing 0 (latchNibble cfg 0x3#4 false) with rstIn := [.hold .inSettle false] })).map
        (fun t => (t.status, t.events)) = some (0x0001#16, [.write 0x27#7 0x3C#8 .fail]) := by decide

theorem test_memory_wf_at_reset :
    Memory.wf none State.reset.text ∧ Memory.wf State.reset.lcd.ctl.fill.known State.reset.lcd.ctl.ddram := by
  decide

/-! ### Witnesses: for each statement with hypotheses, a state and operands that meet them -/

theorem latching_inv : latching.Inv := by decide

theorem idle_inv : idle.Inv := by decide

set_option maxRecDepth 8192 in
theorem held_inv : held.Inv := by decide

theorem witness_EncodeThenDecode : ∃ c i, Cfg.Wf c ∧ Instr.wf c i = true := ⟨cfg, .render 32#8, by decide⟩

theorem witness_DecodeThenEncode : ∃ c w i, Cfg.Wf c ∧ decode c w = .ok i := ⟨cfg, .tb 0x3C#8, .tbCmdHi 0x3#4, by decide⟩

/-- A value for each clause, at the ends of its range. -/
theorem witness_DecodeFollowsTheOpcodeMap :
    decodeReq cfg (0x1#4 ++ (0x0#4 ++ 0xF#4)) = .ok (.latchCmd 0xF#4) ∧
    decodeReq cfg (0x2#4 ++ (0x0#4 ++ 0x0#4)) = .ok (.latchData 0x0#4) ∧
    decodeReq cfg (0x3#4 ++ (0xF#4 ++ 0xF#4)) = .ok (.sendCmd 0xFF#8) ∧
    decodeReq cfg (0x4#4 ++ (0x0#4 ++ 0x0#4)) = .ok (.sendData 0x00#8) ∧
    decodeReq cfg (0x5#4 ++ (0x2#4 ++ 0x0#4)) = .ok (.render 32#8) ∧
    decodeReq cfg (0x5#4 ++ (0x2#4 ++ 0x1#4)) = .error .renderTooLong ∧
    decodeReq cfg (0x0#4 ++ (0xF#4 ++ 0xF#4)) = .error .reservedOpcode ∧
    decodeReq cfg (0x6#4 ++ (0x0#4 ++ 0x0#4)) = .error .reservedOpcode ∧
    decodeReq cfg (0x2#4 ++ (0x1#4 ++ 0x0#4)) = .error .latchArgument := by decide

theorem witness_ClassifyIsPrintableOrBlank :
    classify 32#8 = 32#8 ∧ classify 126#8 = 126#8 ∧ classify 31#8 = 0x20#8 ∧ classify 127#8 = 0x20#8 := by decide

theorem witness_TbFormsWriteTheirByte : ∃ s : State, s.cfg.DefaultMasks ∧ s.draw.answer = .ack := ⟨latching, by decide⟩

theorem witness_TbFormsFailWithBusError : ∃ s : State, s.cfg.DefaultMasks ∧ s.draw.answer = .fail :=
  ⟨failing 0 [], by decide⟩

theorem witness_PulsePairIsOrdered : ∃ s : State, s.cfg.Wf := ⟨latching, by decide⟩

/-- A plain write, a write cut by reset, and one whose settle delay is abandoned. -/
theorem witness_EveryWriteIsABacklitWrite :
    (latching.Inv ∧ (after (step latching)).map State.events = some [.write 0x27#7 0x3C#8 .ack, .delay .settle]) ∧
    (∃ s : State, s.Inv ∧ s.rstIn.headD .run ≠ .run ∧
      (after (step s)).map State.events = some [.cutWrite 0x27#7 0x3C#8]) ∧
    (∃ s : State, s.Inv ∧ s.rstIn.headD .run ≠ .run ∧
      (after (step s)).map State.events = some [.write 0x27#7 0x3C#8 .ack]) :=
  ⟨⟨latching_inv, by decide⟩, ⟨{ latching with rstIn := [.hold .inWrite false] }, by decide⟩,
    ⟨{ latching with rstIn := [.hold .inSettle false] }, by decide⟩⟩

theorem witness_CommandCodesSendTheirBytes : ∃ s : State, s.cfg.DefaultMasks ∧ s.acks 4 := ⟨running [], by decide⟩

theorem witness_CommandCodesStopAtTheFirstFailure :
    (∃ s : State, s.cfg.DefaultMasks ∧ s.failsAfter 0) ∧ (∃ s : State, s.cfg.DefaultMasks ∧ s.failsAfter 3) :=
  ⟨⟨failing 0 [], by decide⟩, ⟨failing 3 [], by decide⟩⟩

theorem witness_SinglePayloadsLatchAndWait : ∃ s : State, s.cfg.DefaultMasks ∧ s.acks 2 := ⟨running [], by decide⟩

theorem witness_SinglePayloadsStopAtTheFirstFailure :
    (∃ s : State, s.cfg.DefaultMasks ∧ s.failsAfter 0) ∧ (∃ s : State, s.cfg.DefaultMasks ∧ s.failsAfter 1) :=
  ⟨⟨failing 0 [], by decide⟩, ⟨failing 1 [], by decide⟩⟩

theorem witness_CodesAreTheirByteForms : ∃ s : State, s.acks 3 := ⟨running [], by decide⟩

theorem witness_LatchRequestsAreAccepted : ∃ s : State, s.cfg.DefaultMasks ∧ s.busy = false := ⟨idle, by decide⟩

theorem witness_SendRequestsAreAccepted : ∃ s : State, s.cfg.DefaultMasks ∧ s.busy = false := ⟨idle, by decide⟩

theorem witness_RenderIsAccepted : ∃ (s : State) (n : Byte), s.busy = false ∧ n.toNat ≤ s.cfg.textMax :=
  ⟨idle, 32#8, by decide⟩

theorem witness_RenderReadsEachEntry :
    Memory.lookup 16 (textAfter16 [0x20#8]) = some 0x20#8 ∧ Memory.lookup 17 (textAfter16 [0x20#8]) = none := by decide

theorem witness_RenderScriptLength :
    ∃ (s t : State) (n : Byte), s.busy = false ∧ n.toNat ≤ s.cfg.textMax ∧ exec (.render n) s = .next t ∧ n ≠ 0#8 :=
  ⟨{ idle with text := textAfter16 [0x20#8] }, _, 17#8, by decide, by decide, rfl, by decide⟩

theorem witness_RenderTooLongIsRefused : ∃ (s : State) (n : Byte), s.busy = false ∧ s.cfg.textMax < n.toNat :=
  ⟨idle, 33#8, by decide⟩

/-- The premises of IllegalWordsAreRefused about a word `op hi lo` offered to an idle block. -/
def illegalOffered (op hi lo : Nibble) : Bool :=
  let s := offered (op ++ (hi ++ lo))
  decide (s.released ∧ s.busy = false ∧ s.hostIn = .request (op ++ (hi ++ lo)) :: []) &&
  decide (op = 0x0#4 ∨ 6 ≤ op.toNat ∨ ((op = 0x1#4 ∨ op = 0x2#4) ∧ hi ≠ 0#4) ∨
    (op = 0x5#4 ∧ s.cfg.textMax < 16 * hi.toNat + lo.toNat))

/-- A word for each of the four kinds of illegal word. -/
theorem witness_IllegalWordsAreRefused :
    illegalOffered 0x0#4 0xF#4 0xF#4 = true ∧ illegalOffered 0x6#4 0x0#4 0x0#4 = true ∧
    illegalOffered 0x1#4 0x1#4 0x3#4 = true ∧ illegalOffered 0x5#4 0x2#4 0x1#4 = true := by decide

theorem witness_PortsWaitWhileBusy :
    ∃ s t : State, s.busy = true ∧ s.released ∧ step s = .next t ∧ s.hostIn ≠ [] :=
  ⟨{ latching with hostIn := [.request 0x301#12] }, _, by decide, by decide, rfl, by decide⟩

/-- One state for each of the ways an instruction is fetched. -/
theorem witness_StepRunsTheDecodedInstruction :
    (latching.released ∧ latching.busy = true ∧ latching.grain = .action ∧
      latching.script.drop latching.pc = .emit 0x3C#8 :: [.emit 0x38#8] ∧
      decode latching.cfg (.tb 0x3C#8) = .ok (.tbCmdHi 0x3#4)) ∧
    (∃ s : State, s.released ∧ s.busy = true ∧ s.grain = .form ∧ formAt s.cfg (s.script.drop s.pc) = none ∧
      s.script.drop s.pc = .emit 0x3C#8 :: [.emit 0x38#8]) ∧
    (∃ s : State, s.cfg.Wf ∧ s.released ∧ s.busy = true ∧ s.grain = .form ∧
      s.script.drop s.pc = sendCode s.cfg 0xC0#8 false ++ [] ∧ decode s.cfg (.cmd8 0xC0#8) = .ok .setDdramRow2) ∧
    (∃ s : State, s.cfg.Wf ∧ s.released ∧ s.busy = true ∧ s.grain = .form ∧
      s.script.drop s.pc = latchNibble s.cfg 0x3#4 false ++ .delay .reset :: [] ∧
      decode s.cfg (.nib4 0x3#4) = .ok .resetNibble) ∧
    (∃ s : State, s.released ∧ s.busy = false ∧ s.hostIn = .request 0x520#12 :: [] ∧
      decode s.cfg (.req 0x520#12) = .ok (.render 32#8)) ∧
    (held.rst = true ∧ held.rstIn.headD .run = .run) :=
  ⟨by decide, ⟨{ latching with grain := .form }, by decide⟩,
    ⟨{ running (sendCode cfg 0xC0#8 false) with grain := .form }, by decide⟩,
    ⟨{ running (resetNibbleScript cfg) with grain := .form }, by decide⟩, ⟨offered 0x520#12, by decide⟩, by decide⟩

theorem witness_DelayWaitsAndGoesOn :
    ∃ (s : State) (d : DelayId) (rest : List Action), s.released ∧ s.busy = true ∧ s.script.drop s.pc = .delay d :: rest :=
  ⟨running [.delay .final], .final, [], by decide⟩

theorem witness_OperationEndsWithOk : ∃ s : State, s.released ∧ s.busy = true ∧ s.pc = s.script.length :=
  ⟨{ latching with pc := 2 }, by decide⟩

/-- A step of each of the three kinds. -/
theorem witness_OnlyResetInterruptsAnOperation :
    (latching.Inv ∧ latching.released ∧ latching.busy = true ∧
      (after (step latching)).map (fun t => t.busy) = some true) ∧
    (∃ s : State, s.Inv ∧ s.released ∧ s.busy = true ∧ (after (step s)).map (fun t => t.result) = some .busError) ∧
    (∃ s : State, s.Inv ∧ s.released ∧ s.busy = true ∧ (after (step s)).map (fun t => (t.busy, t.result)) = some (false, .ok)) :=
  ⟨by decide, ⟨failing 0 (latchNibble cfg 0x3#4 false), by decide⟩, ⟨running [], by decide⟩⟩

theorem witness_WholeOperationAsOneStep : ∃ s : State, s.Inv ∧ s.noReset ∧ s.busy = true := ⟨latching, by decide⟩

theorem witness_FormStepsAreActionSteps :
    ∃ s t : State, s.Inv ∧ s.noReset ∧ s.busy = true ∧ s.grain = .form ∧ step s = .next t :=
  ⟨{ running (sendCode cfg 0x28#8 false) with grain := .form }, _, by decide, by decide, rfl, rfl, rfl⟩

theorem witness_EventsFollowTheScript :
    (∃ s : State, s.Inv ∧ s.busy = true ∧ s.acks (emitted (s.script.drop s.pc)).length) ∧
    (∃ (s : State) (pre post : List Action) (b : Byte), s.Inv ∧ s.busy = true ∧
      s.script.drop s.pc = pre ++ .emit b :: post ∧ s.failsAfter (emitted pre).length) :=
  ⟨⟨latching, by decide⟩,
    ⟨failing 1 (latchNibble cfg 0x3#4 false), [.emit 0x3C#8], [], 0x38#8, by decide⟩⟩

theorem witness_EveryOperationEnds : ∃ s : State, s.Inv ∧ s.noReset ∧ s.busy = true := ⟨latching, by decide⟩

theorem witness_SendRequestsRunToTheEnd :
    ∀ low ∈ [0x3#4, 0x4#4],
      let s := offered (low ++ 0x41#8)
      s.cfg.DefaultMasks ∧ s.noReset ∧ s.busy = false ∧ s.initState = .ready ∧ s.grain = .action ∧ s.acks 4 ∧
      s.hostIn = .request (low ++ 0x41#8) :: [] := by decide

theorem witness_InitStartsAtReset : ∃ s : State, s.rst = true ∧ s.rstIn.headD .run = .run := ⟨held, by decide⟩

theorem witness_InitScriptWrittenOut : ∃ c : Cfg, c.DefaultMasks := ⟨cfg, by decide⟩

theorem witness_InitRunsToReady :
    ∃ s : State, s.Inv ∧ s.rst = true ∧ s.rstIn = [] ∧ s.grain = .action ∧ s.acks 24 :=
  ⟨held, held_inv, by decide⟩

theorem witness_InitAbortsAtTheFirstFailure :
    (∃ s : State, s.Inv ∧ s.rst = true ∧ s.rstIn = [] ∧ s.failsAfter 0) ∧
    (∃ s : State, s.Inv ∧ s.rst = true ∧ s.rstIn = [] ∧ s.failsAfter 23) :=
  ⟨⟨{ held with answers := [⟨.fail, false⟩] }, held_inv, by decide⟩,
    ⟨{ held with answers := ack 23 ++ [⟨.fail, false⟩] }, held_inv, by decide⟩⟩

theorem witness_InitOutcomeIsTerminal :
    ∃ s t : State, s.released ∧ (s.initState = .ready ∨ s.initState = .failed) ∧ step s = .next t :=
  ⟨latching, _, by decide, by decide, rfl⟩

theorem witness_OperationsTakeAtLeast :
    ∃ (s : State) (as : List Action), s.acks 24 ∧ (∀ a ∈ as, ∃ b, a = .emit b) ∧ s.acks as.length ∧ as ≠ [] :=
  ⟨held, [.emit 0x3C#8], by decide, by simp, by decide, by simp⟩

/-- A state for each clause: between two EMITs, in a DELAY, in a write, after its answer of either kind, a power-cycle. -/
theorem witness_ResetTakesEverything :
    (∃ s : State, s.rstIn.headD .run = .hold .before false ∧ s.emitsNext 0x38#8) ∧
    (∃ s : State, s.rstIn.headD .run = .hold .inWrite false ∧ s.busy = true ∧ ∀ b, ¬ s.emitsNext b) ∧
    (∃ s : State, s.rstIn.headD .run = .hold .inWrite false ∧ s.emitsNext 0x3C#8) ∧
    (∃ s : State, s.rstIn.headD .run = .hold .inSettle false ∧ s.emitsNext 0x3C#8 ∧ s.draw.answer = .ack) ∧
    (∃ s : State, s.rstIn.headD .run = .hold .inSettle false ∧ s.emitsNext 0x3C#8 ∧ s.draw.answer = .fail) ∧
    (∃ s : State, s.rstIn.headD .run = .hold .before true) :=
  ⟨⟨{ latching with pc := 1, rstIn := [.hold .before false] }, by decide⟩,
    ⟨{ running [.delay .final] with rstIn := [.hold .inWrite false] }, rfl, rfl, by rintro b ⟨-, -, h⟩; cases h⟩,
    ⟨{ latching with rstIn := [.hold .inWrite false] }, by decide⟩,
    ⟨{ latching with rstIn := [.hold .inSettle false] }, by decide⟩,
    ⟨{ failing 0 (latchNibble cfg 0x3#4 false) with rstIn := [.hold .inSettle false] }, by decide⟩,
    ⟨{ latching with rstIn := [.hold .before true] }, rfl⟩⟩

theorem witness_EveryStepKeepsTheInvariant : ∃ s t : State, s.Inv ∧ step s = .next t :=
  ⟨latching, _, latching_inv, rfl⟩

theorem witness_NoStepStops : ∃ s : State, s.Inv := ⟨latching, latching_inv⟩

theorem witness_StatusReadsItsFields : ∃ s : State, s.Inv ∧ s.busy = true := ⟨latching, by decide⟩

theorem witness_TextWriteIsTaken :
    ∃ (s : State) (i : BitVec 6) (v : Byte) (rest : List HostIn), s.Inv ∧ s.released ∧ s.busy = false ∧
      s.hostIn = .text i v :: rest ∧ i.toNat < s.cfg.textMax :=
  ⟨{ idle with hostIn := [.text 31#6 0x5A#8] }, 31#6, 0x5A#8, [], by decide⟩

theorem witness_TextWriteOutOfRangeIsIgnored :
    ∃ (s : State) (i : BitVec 6) (v : Byte) (rest : List HostIn), s.released ∧ s.busy = false ∧
      s.hostIn = .text i v :: rest ∧ s.cfg.textMax ≤ i.toNat :=
  ⟨{ idle with hostIn := [.text 32#6 0x5A#8] }, 32#6, 0x5A#8, [], by decide⟩

/-- With no move of the host left, and with an idle one. -/
theorem witness_IdleStepsChangeNothing :
    (∃ s : State, s.released ∧ s.busy = false ∧ s.hostIn = []) ∧
    (∃ s : State, s.released ∧ s.busy = false ∧ s.hostIn = .idle :: [.request 0x301#12]) :=
  ⟨⟨idle, by decide⟩, ⟨{ idle with hostIn := [.idle, .request 0x301#12] }, by decide⟩⟩

/-- A step that changes TEXT, and one that changes REQ. -/
theorem witness_OnlyThePortsWriteTextAndReq :
    (∃ s t : State, step s = .next t ∧ t.text ≠ s.text) ∧ (∃ s t : State, step s = .next t ∧ t.req ≠ s.req) :=
  ⟨⟨{ idle with hostIn := [.text 31#6 0x5A#8] }, _, rfl, by decide⟩, ⟨offered 0x301#12, _, rfl, by decide⟩⟩

theorem witness_EnvironmentNeverSteersTheBlock : ∃ s t : State, step s = .next t := ⟨latching, _, rfl⟩

/-- EN low; EN high in 4-bit mode with PHASE high and low; EN high in 8-bit mode. -/
theorem witness_ControllerLatchesWhenEnableFalls :
    cfg.Wf ∧ (∃ l : Lcd, lineSet cfg.enMask l.pins = false) ∧
    (∃ l : Lcd, lineSet cfg.enMask l.pins = true ∧ l.executing = false ∧ l.ctl.mode = .fourBit ∧ l.ctl.phase = .high) ∧
    (∃ l : Lcd, lineSet cfg.enMask l.pins = true ∧ l.executing = false ∧ l.ctl.mode = .fourBit ∧ l.ctl.phase = .low) ∧
    (∃ l : Lcd, lineSet cfg.enMask l.pins = true ∧ l.executing = false ∧ l.ctl.mode = .eightBit) :=
  ⟨by decide, ⟨lcd, by decide⟩, ⟨{ lcd with pins := 0x3D#8 }, by decide⟩,
    ⟨{ lcd with pins := 0x3D#8, ctl := { lcd.ctl with phase := .low } }, by decide⟩,
    ⟨{ lcd with pins := 0x3D#8, ctl := { lcd.ctl with mode := .eightBit } }, by decide⟩⟩

theorem witness_LateLatchLeavesTheControllerUnknown :
    ∃ s : State, s.cfg.DefaultMasks ∧ lineSet s.cfg.enMask s.lcd.pins = true ∧ s.lcd.executing = true ∧
      s.draw.answer = .ack ∧ s.draw.late = true :=
  ⟨{ latching with lcd := { lcd with pins := 0x3C#8, executing := true }, answers := [⟨.ack, true⟩] }, by decide⟩

theorem witness_CodesReachTheController : ∃ s : State, s.cfg.Wf ∧ s.acks 4 ∧ s.prompt 4 ∧ s.inStep := ⟨latching, by decide⟩

theorem witness_CommandCodesHaveTheirEffects :
    (∃ s : State, s.cfg.Wf ∧ s.acks 4 ∧ s.prompt 4 ∧ s.inStep) ∧ 0x80#8 ∉ [0x28#8, 0x0C#8, 0x01#8, 0x06#8, 0xC0#8] :=
  ⟨⟨latching, by decide⟩, by decide⟩

/-- The last address of row two's columns, the one past it, and another entry mode. -/
theorem witness_CharacterWritesStoreAndAdvance :
    ∀ k ∈ [{ lcd.ctl with ac := 0x4F }, { lcd.ctl with ac := 0x50 }, { lcd.ctl with increment := false }],
      let s : State := { latching with lcd := { lcd with ctl := k } }
      s.cfg.Wf ∧ s.LcdInv ∧ s.acks 4 ∧ s.prompt 4 ∧ s.inStep := by decide

theorem witness_RecoveryReachesFourBitMode : ∃ s : State, s.cfg.Wf ∧ s.acks 8 := ⟨held, by decide⟩

theorem witness_InitPreparesTheDisplay : ∃ s : State, s.cfg.Wf ∧ s.acks 24 ∧ s.prompt 24 := ⟨held, by decide⟩

theorem witness_ClearThenTextStartsAtColumnOne :
    ∃ (s : State) (vs : List Byte), s.cfg.Wf ∧ vs.length ≤ 16 ∧ s.acks (4 + 4 * vs.length) ∧
      s.prompt (4 + 4 * vs.length) ∧ s.inStep ∧ s.lcd.ctl.increment = true ∧ s.lcd.ctl.shift = false :=
  ⟨latching, [0x48#8, 0x49#8], by decide⟩

/-- The premises of LongLinesContinueOnRowTwo about a line, every write acknowledged and none too early. -/
abbrev longLine (vs : List Byte) : Prop :=
  let s : State := { latching with answers := ack 200 }
  let n := (emitted (sendCode s.cfg 0x01#8 false ++ (renderLoop s.cfg 0 vs).1)).length
  s.cfg.Wf ∧ 17 ≤ vs.length ∧ s.acks n ∧ s.prompt n ∧ s.inStep ∧ s.lcd.ctl.increment = true ∧ s.lcd.ctl.shift = false

set_option maxRecDepth 8192 in
/-- Lines whose rest, what stands on row two, has no character, the 16 that fill it, with and without a skipped space, and one more. -/
theorem witness_LongLinesContinueOnRowTwo :
    longLine (List.replicate 17 0x20#8) ∧ longLine (List.replicate 32 0x41#8) ∧
    longLine (List.replicate 16 0x41#8 ++ 0x20#8 :: List.replicate 16 0x42#8) ∧
    longLine (List.replicate 33 0x41#8) := by decide

theorem witness_FailedWriteLeavesTheDisplayUnknown : ∃ s : State, s.draw.answer = .fail := ⟨failing 0 [], by decide⟩

end Sys2Proof.Tests
end

section
/-! PROOFS. The family of 00_scope: the environment behind the bus never steers the block, and who writes TEXT, REQ and the
parameters. -/

namespace Sys2Proof.Machine

/-! ### Same block, any environment (R7, R32) -/

/-- Two states that differ in the expander and the controller only. -/
def State.SameBlock (s t : State) : Prop := ∃ l : Lcd, t = { s with lcd := l }

/-- Two outcomes that stop alike or go on with the same block. A step never refuses, so there is no case for it. -/
inductive SameOutcome : Host.Outcome State Fault Refusal → Host.Outcome State Fault Refusal → Prop where
  | next {s t : State} (h : s.SameBlock t) : SameOutcome (.next s) (.next t)
  | fault (r : Fault) : SameOutcome (.fault r) (.fault r)

namespace State.SameBlock

variable {s t : State}

theorem cfg (h : s.SameBlock t) : t.cfg = s.cfg := by
  obtain ⟨l, rfl⟩ := h
  rfl

theorem busy (h : s.SameBlock t) : t.busy = s.busy := by
  obtain ⟨l, rfl⟩ := h
  rfl

theorem nsent (h : s.SameBlock t) : t.nsent = s.nsent := by
  obtain ⟨l, rfl⟩ := h
  rfl

/-- The draws come from the coming answers and the counter, whatever the environment is (R52). -/
theorem draw (h : s.SameBlock t) : t.draw = s.draw := by
  obtain ⟨l, rfl⟩ := h
  rfl

theorem nextEmit (h : s.SameBlock t) : t.nextEmit = s.nextEmit := by
  obtain ⟨l, rfl⟩ := h
  rfl

theorem fetch (h : s.SameBlock t) : t.fetch = s.fetch := by
  obtain ⟨l, rfl⟩ := h
  rfl

theorem taken (h : s.SameBlock t) : s.taken.SameBlock t.taken := by
  obtain ⟨l, rfl⟩ := h
  exact ⟨l, rfl⟩

theorem finish (h : s.SameBlock t) (r : Result) (k : Byte) : (s.finish r k).SameBlock (t.finish r k) := by
  obtain ⟨l, rfl⟩ := h
  exact ⟨l, rfl⟩

theorem advance (h : s.SameBlock t) : s.advance.SameBlock t.advance := by
  obtain ⟨l, rfl⟩ := h
  exact ⟨l, rfl⟩

theorem delay (h : s.SameBlock t) (d : DelayId) : (s.delay d).SameBlock (t.delay d) := by
  obtain ⟨l, rfl⟩ := h
  exact ⟨l.wait d, rfl⟩

theorem transact (h : s.SameBlock t) (w : List Event) (b : Byte) : (s.transact w b).SameBlock (t.transact w b) := by
  obtain ⟨l, rfl⟩ := h
  exact ⟨_, rfl⟩

theorem cutWrite (h : s.SameBlock t) (b : Byte) : (s.cutWrite b).SameBlock (t.cutWrite b) := by
  obtain ⟨l, rfl⟩ := h
  exact ⟨_, rfl⟩

theorem startInit (h : s.SameBlock t) : s.startInit.SameBlock t.startInit := by
  obtain ⟨l, rfl⟩ := h
  exact ⟨l, rfl⟩

theorem emit (h : s.SameBlock t) (b : Byte) : (s.emit b).SameBlock (t.emit b) := by
  have hw : (s.busWrite b).SameBlock (t.busWrite b) := h.transact _ b
  cases ha : s.draw.answer with
  | ack =>
    rw [State.emit_of_ack ha, State.emit_of_ack (h.draw ▸ ha)]
    exact hw.advance
  | fail =>
    rw [State.emit_of_fail ha, State.emit_of_fail (h.draw ▸ ha), h.nsent]
    exact hw.finish _ _

/-- A fragment is cut at the same write or at none, since the answers are the same (R112). -/
theorem runActions (h : s.SameBlock t) (as : List Action) :
    (State.runActions as s).SameBlock (State.runActions as t) := by
  induction as generalizing s t with
  | nil => exact h
  | cons a as ih =>
    cases a with
    | delay d => exact ih (h.delay d)
    | emit b =>
      simp only [State.runActions, h.draw]
      cases s.draw.answer with
      | ack => exact ih (h.emit b)
      | fail => exact h.emit b

theorem cutAction (h : s.SameBlock t) (k : Strike) : (s.cutAction k).SameBlock (t.cutAction k) := by
  unfold State.cutAction
  rw [h.nextEmit]
  cases s.nextEmit with
  | none => cases k <;> exact h
  | some b =>
    cases k with
    | before => exact h
    | inWrite => exact h.cutWrite b
    | inSettle => exact h.transact [] b

theorem assertReset (h : s.SameBlock t) (k : Strike) (p : Bool) :
    (s.assertReset k p).SameBlock (t.assertReset k p) := by
  obtain ⟨l, hl⟩ := h.cutAction k
  unfold State.assertReset
  rw [hl]
  exact ⟨_, rfl⟩

theorem accept (h : s.SameBlock t) (w : ReqWord) (sc : List Action) : (s.accept w sc).SameBlock (t.accept w sc) := by
  cases hb : s.busy with
  | true => rwa [State.accept_of_busy hb, State.accept_of_busy (h.busy.trans hb)]
  | false =>
    rw [State.accept_of_ready hb, State.accept_of_ready (h.busy.trans hb)]
    obtain ⟨l, rfl⟩ := h
    exact ⟨l, rfl⟩

theorem refuse (h : s.SameBlock t) (w : ReqWord) : (s.refuse w).SameBlock (t.refuse w) := by
  cases hb : s.busy with
  | true => rwa [State.refuse_of_busy hb, State.refuse_of_busy (h.busy.trans hb)]
  | false =>
    rw [State.refuse_of_ready hb, State.refuse_of_ready (h.busy.trans hb)]
    obtain ⟨l, rfl⟩ := h
    exact ⟨l, rfl⟩

theorem acceptRender (h : s.SameBlock t) (w : ReqWord) (n : Nat) :
    (s.acceptRender w n).SameBlock (t.acceptRender w n) := by
  cases hb : s.busy with
  | true => rwa [State.acceptRender_of_busy hb, State.acceptRender_of_busy (h.busy.trans hb)]
  | false =>
    rw [State.acceptRender_of_ready hb, State.acceptRender_of_ready (h.busy.trans hb)]
    obtain ⟨l, rfl⟩ := h
    exact ⟨l, rfl⟩

theorem writeText (h : s.SameBlock t) (i : BitVec 6) (v : Byte) : (s.writeText i v).SameBlock (t.writeText i v) := by
  obtain ⟨l, rfl⟩ := h
  unfold State.writeText
  split
  · exact ⟨l, rfl⟩
  · split <;> exact ⟨l, rfl⟩

theorem exec (h : s.SameBlock t) (i : Instr) : SameOutcome (Machine.exec i s) (Machine.exec i t) := by
  rcases exec_cases i s with ⟨as, hi, e⟩ | ⟨w, sc, hi, e⟩ | ⟨n, rfl, hn, e⟩ | ⟨n, rfl, hn, e⟩ | ⟨rfl, e⟩
  · rw [e, exec_of_fragment (h.cfg ▸ hi)]
    exact .next (h.runActions as)
  · rw [e, exec_of_request (h.cfg ▸ hi)]
    exact .next (h.accept w sc)
  · have et : Machine.exec (.render n) t = .next (t.acceptRender (reqWord 0x5#4 n) n.toNat) := if_pos (h.cfg ▸ hn)
    rw [e, et]
    exact .next (h.acceptRender _ _)
  · have et : Machine.exec (.render n) t = .next (t.refuse (reqWord 0x5#4 n)) := if_neg (h.cfg ▸ Nat.not_le.2 hn)
    rw [e, et]
    exact .next (h.refuse _)
  · exact .next h.startInit

/-- The move is fetched without a look at the environment, and each move keeps the blocks the same. -/
theorem step (h : s.SameBlock t) : SameOutcome (Machine.step s) (Machine.step t) := by
  unfold Machine.step
  rw [h.fetch]
  cases s.fetch with
  | assertReset k p => exact .next (h.taken.assertReset k p)
  | run i => exact h.taken.exec i
  | delay d => exact .next (h.taken.delay d)
  | finish => exact .next (h.taken.finish _ _)
  | text i v => exact .next (h.taken.writeText i v)
  | refuse w => exact .next (h.taken.refuse w)
  | idle => exact .next h.taken
  | badByte => exact .fault _

end State.SameBlock

theorem SameOutcome.of_next {s : State} {o : Host.Outcome State Fault Refusal} (h : SameOutcome (.next s) o) :
    ∃ l : Lcd, o = .next { s with lcd := l } := by
  cases h with
  | next hs =>
    obtain ⟨l, rfl⟩ := hs
    exact ⟨l, rfl⟩

theorem SameOutcome.of_fault {r : Fault} {o : Host.Outcome State Fault Refusal} (h : SameOutcome (.fault r) o) :
    o = .fault r := by
  cases h
  rfl

/-- Settles O48: every operation keeps "same block" between two states, so a step does. -/
theorem environmentNeverSteersTheBlock : Obligations.EnvironmentNeverSteersTheBlock := by
  unfold Obligations.EnvironmentNeverSteersTheBlock
  intro s l
  have hstep : SameOutcome (step s) (step { s with lcd := l }) := State.SameBlock.step ⟨l, rfl⟩
  exact ⟨fun t ht => (ht ▸ hstep).of_next, fun r hr => (hr ▸ hstep).of_fault⟩

/-! ### Who writes TEXT, REQ and the parameters (R7, R22, R30) -/

/-- Running a fragment keeps what even a cut operation leaves alone. -/
theorem State.runActions_sameButCut (as : List Action) (s : State) : s.SameButCut (State.runActions as s) := by
  rcases State.runActions_cases as s with ⟨-, r⟩ | ⟨pre, b, post, rfl, hf, -⟩
  · exact ⟨r.cfg, r.rst, r.script, r.col, r.req, r.text, r.rstIn, r.hostIn, r.grain⟩
  · exact (State.ranCut hf b post).same

/-- No instruction writes the parameters, the grain or TEXT. -/
theorem exec_keeps_cfg_grain_text {i : Instr} {s t : State} (h : exec i s = .next t) :
    t.cfg = s.cfg ∧ t.grain = s.grain ∧ t.text = s.text := by
  rcases exec_cases i s with ⟨as, -, e⟩ | ⟨w, sc, -, e⟩ | ⟨n, -, -, e⟩ | ⟨n, -, -, e⟩ | ⟨-, e⟩ <;>
    (rw [e] at h; cases h)
  · obtain ⟨hcfg, -, -, -, -, htext, -, -, hgrain⟩ := State.runActions_sameButCut as s
    exact ⟨hcfg, hgrain, htext⟩
  all_goals simp

/-- An emitted form and the release of reset leave REQ: only a request writes it. -/
theorem exec_keeps_req {i : Instr} {s t : State} (hi : (fragmentOf s.cfg i).isSome ∨ i = .init)
    (h : exec i s = .next t) : t.req = s.req := by
  rcases hi with hi | rfl
  · obtain ⟨as, ha⟩ := Option.isSome_iff_exists.1 hi
    rw [exec_of_fragment ha] at h
    cases h
    obtain ⟨-, -, -, -, hreq, -⟩ := State.runActions_sameButCut as s
    exact hreq
  · cases h
    rfl

/-- Settles O47, by the cases of a step: each keeps the parameters and the grain, and only reset and the ports of an idle block
reach TEXT and REQ. -/
theorem onlyThePortsWriteTextAndReq : Obligations.OnlyThePortsWriteTextAndReq := by
  unfold Obligations.OnlyThePortsWriteTextAndReq
  intro s t h
  rcases step_cases s with ⟨k, p, hr, e⟩ | ⟨-, -, e⟩ | ⟨-, -, hbusy⟩ | ⟨-, hb, hidle⟩
  · rw [e] at h
    cases h
    have hreset : s.rstIn.headD .run ≠ .run := by
      rw [hr]
      nofun
    exact ⟨by simp, by simp, fun _ => .inl hreset, fun _ => .inl hreset⟩
  · rw [e] at h
    obtain ⟨hcfg, hgrain, htext⟩ := exec_keeps_cfg_grain_text h
    exact ⟨hcfg, hgrain, fun hne => absurd htext hne, fun hne => absurd (exec_keeps_req (.inr rfl) h) hne⟩
  · rcases hbusy with ⟨-, e⟩ | ⟨d, -, -, e⟩ | ⟨frag, -, i, -, hi, e⟩ | ⟨-, -, -, -, e⟩ <;> rw [e] at h
    · cases h
      simp
    · cases h
      simp
    · obtain ⟨hcfg, hgrain, htext⟩ := exec_keeps_cfg_grain_text h
      have hreq : t.req = s.req := exec_keeps_req (s := s.taken) (.inl (Option.isSome_of_eq_some hi)) h
      exact ⟨hcfg, hgrain, fun hne => absurd htext hne, fun hne => absurd hreq hne⟩
    · cases h
  · rcases hidle with ⟨i, v, rest, hh, e⟩ | ⟨w, rest, i, hh, -, e⟩ | ⟨w, rest, -, hh, -, e⟩ | ⟨-, e⟩ <;> rw [e] at h
    · cases h
      exact ⟨by simp, by simp, fun _ => .inr ⟨hb, i, v, rest, hh⟩, by simp⟩
    · obtain ⟨hcfg, hgrain, htext⟩ := exec_keeps_cfg_grain_text h
      exact ⟨hcfg, hgrain, fun hne => absurd htext hne, fun _ => .inr ⟨hb, w, rest, hh⟩⟩
    · cases h
      exact ⟨by simp, by simp, by simp, fun _ => .inr ⟨hb, w, rest, hh⟩⟩
    · cases h
      simp

end Sys2Proof.Machine
end

section
/-! PROOFS. The family of 10_state: the invariant at reset and over every step, what reset takes, what the ports do while the block
is busy and while it is idle, and what STATUS reads. -/

namespace Sys2Proof.Machine

/-! ### What a step of a busy block and a request at its port can do -/

/-- A step of a busy block out of reset that goes on ends the operation, its script done, or performs the actions the script stands at
(R112, R113, R117). -/
theorem step_cases_of_busy {s t : State} (hrel : s.released) (hb : s.busy = true) (hstep : step s = .next t) :
    (s.script.drop s.pc = [] ∧ t = s.taken.finish .ok 0#8) ∨
    (∃ frag rest, s.script.drop s.pc = frag ++ rest ∧ t = State.runActions frag s.taken) := by
  rcases step_cases s with ⟨k, p, hr, -⟩ | ⟨-, hrst, -⟩ | ⟨-, -, hbusy⟩ | ⟨-, hidle, -⟩
  · rw [hrel.2] at hr
    cases hr
  · simp [hrel.1] at hrst
  · rcases hbusy with ⟨hd, e⟩ | ⟨d, rest, hd, e⟩ | ⟨frag, rest, i, hd, hi, e⟩ | ⟨-, -, -, -, e⟩ <;> rw [e] at hstep
    · cases hstep
      exact .inl ⟨hd, rfl⟩
    · cases hstep
      exact .inr ⟨[.delay d], rest, hd, rfl⟩
    · rw [exec_of_fragment (s := s.taken) hi] at hstep
      cases hstep
      exact .inr ⟨frag, rest, hd, rfl⟩
    · cases hstep
  · simp [hb] at hidle

/-- A legal request word is accepted, accepted as a RENDER, or refused for its length (R116). -/
theorem exec_cases_of_decodeReq {s t : State} {w : ReqWord} {i : Instr} (hd : decodeReq s.cfg w = .ok i)
    (ht : exec i s = .next t) :
    (∃ v sc, requestOf s.cfg i = some (v, sc) ∧ t = s.accept v sc) ∨
    (∃ (v : ReqWord) (n : Nat), n ≤ s.cfg.textMax ∧ t = s.acceptRender v n) ∨
    (∃ v, t = s.refuse v) := by
  obtain ⟨hnofrag, hnoinit⟩ := decodeReq_request hd
  rcases exec_cases i s with ⟨as, hi, -⟩ | ⟨v, sc, hi, e⟩ | ⟨n, -, hn, e⟩ | ⟨n, -, -, e⟩ | ⟨hi, -⟩
  · simp [hnofrag] at hi
  · rw [e] at ht
    cases ht
    exact .inl ⟨v, sc, hi, rfl⟩
  · rw [e] at ht
    cases ht
    exact .inr (.inl ⟨_, _, hn, rfl⟩)
  · rw [e] at ht
    cases ht
    exact .inr (.inr ⟨_, rfl⟩)
  · exact absurd hi hnoinit

/-! ### The parts of the invariant -/

/-- The part of the invariant about what lies outside the block's own registers: the parameters, the display memory behind the bus,
and the events so far. -/
structure State.WorldInv (s : State) : Prop where
  wf     : s.cfg.Wf
  lcd    : s.LcdInv
  events : s.EventsInv

theorem State.Inv.world {s : State} (h : s.Inv) : s.WorldInv := by
  obtain ⟨hwf, -, -, -, -, -, hlcd, hevents⟩ := h
  exact ⟨hwf, hlcd, hevents⟩

theorem State.Inv.script {s : State} (h : s.Inv) : s.ScriptInv := by
  obtain ⟨-, hs, -⟩ := h
  exact hs

theorem State.Inv.status {s : State} (h : s.Inv) : s.StatusInv := by
  obtain ⟨-, -, hs, -⟩ := h
  exact hs

theorem State.Inv.init {s : State} (h : s.Inv) : s.InitInv := by
  obtain ⟨-, -, -, hi, -⟩ := h
  exact hi

theorem State.Inv.text {s : State} (h : s.Inv) : s.TextInv := by
  obtain ⟨-, -, -, -, -, ht, -⟩ := h
  exact ht

/-- While BUSY = 1, RESULT and ERR_INDEX are clear (R24). -/
theorem State.Inv.clear_of_busy {s : State} (h : s.Inv) (hb : s.busy = true) : s.result = .ok ∧ s.errIndex = 0#8 := by
  obtain ⟨hrun, herr⟩ := h.status
  have hok := (hrun hb).1
  exact ⟨hok, by simpa [hok] using herr⟩

/-- While BUSY = 1, NSENT counts the EMITs before the script position (R27). -/
theorem State.Inv.nsent_of_busy {s : State} (h : s.Inv) (hb : s.busy = true) :
    s.nsent.toNat = (emitted (s.script.take s.pc)).length := by
  obtain ⟨hrun, -⟩ := h.status
  exact (hrun hb).2

/-- INIT does not run in an idle block (R28). -/
theorem State.Inv.init_over_of_idle {s : State} (h : s.Inv) (hb : s.busy = false) : s.initState.running = false := by
  cases hr : s.initState.running with
  | false => rfl
  | true => exact absurd (h.init hr).1 (by simp [hb])

theorem State.resetInv_of_not_rst {s : State} (h : s.rst = false) : s.ResetInv := fun e => by simp [h] at e

theorem State.initInv_of_over {s : State} (h : s.initState.running = false) : s.InitInv := fun e => by simp [h] at e

/-- The actions the script stands at are ones a script may hold. -/
theorem State.ScriptInv.actionOk_of_drop {s : State} (h : s.ScriptInv) {a : Action} {rest : List Action}
    (hd : s.script.drop s.pc = a :: rest) : actionOk s.cfg a = true :=
  h.1 a (List.mem_of_mem_drop (hd ▸ List.mem_cons_self))

/-- The script up to and including the action it stands at. -/
theorem take_succ_of_drop {as rest : List Action} {a : Action} {n : Nat} (h : as.drop n = a :: rest) :
    as.take (n + 1) = as.take n ++ [a] := by
  have ha : as[n]? = some a := by rw [← List.head?_drop, h]; rfl
  rw [List.take_add_one, ha]
  rfl

theorem lt_length_of_drop {as rest : List Action} {a : Action} {n : Nat} (h : as.drop n = a :: rest) : n < as.length := by
  by_contra hn
  rw [List.drop_eq_nil_of_le (Nat.le_of_not_lt hn)] at h
  cases h

/-! ### What actions leave of the world outside -/

theorem eventOk_write {c : Cfg} {b : Byte} (h : actionOk c (.emit b) = true) (r : Answer) :
    eventOk c (.write c.lcdAddr b r) = true := by
  have : (decodeTb c b).toOption.isSome = true := h
  simp [eventOk, this]

theorem eventOk_cutWrite {c : Cfg} {b : Byte} (h : actionOk c (.emit b) = true) :
    eventOk c (.cutWrite c.lcdAddr b) = true := eventOk_write h .ack

theorem State.transact_world {s : State} (h : s.WorldInv) {b : Byte} (hb : actionOk s.cfg (.emit b) = true)
    {w : List Event} (hw : ∀ e ∈ w, eventOk s.cfg e = true) : (s.transact w b).WorldInv where
  wf := h.wf
  lcd := by
    cases ha : s.draw.answer with
    | ack =>
      unfold State.LcdInv
      rw [State.transact_lcd_of_ack ha]
      exact Lcd.write_ddramOk h.lcd _ _ _ _
    | fail =>
      unfold State.LcdInv
      rw [State.transact_lcd_of_fail ha]
      exact Lcd.failedWrite_ddramOk _ _
  events := by
    intro e he
    rw [State.transact_events, List.mem_append, List.mem_cons] at he
    rcases he with he | rfl | he
    · exact h.events e he
    · exact eventOk_write hb _
    · exact hw e he

theorem State.busWrite_world {s : State} (h : s.WorldInv) {b : Byte} (hb : actionOk s.cfg (.emit b) = true) :
    (s.busWrite b).WorldInv :=
  State.transact_world h hb (by simp [eventOk])

theorem State.cutWrite_world {s : State} (h : s.WorldInv) {b : Byte} (hb : actionOk s.cfg (.emit b) = true) :
    (s.cutWrite b).WorldInv where
  wf := h.wf
  lcd := Lcd.failedWrite_ddramOk s.lcd _
  events := by
    intro e he
    rw [State.cutWrite_events, List.mem_append, List.mem_singleton] at he
    rcases he with he | rfl
    · exact h.events e he
    · exact eventOk_cutWrite hb

theorem State.delay_world {s : State} (h : s.WorldInv) (d : DelayId) : (s.delay d).WorldInv where
  wf := h.wf
  lcd := Lcd.wait_ddramOk h.lcd d
  events := by
    intro e he
    rw [State.delay_events, List.mem_append, List.mem_singleton] at he
    rcases he with he | rfl
    · exact h.events e he
    · rfl

/-- What reset cuts of an action is a byte the script holds, so the world stays one the invariant allows (R231). -/
theorem State.cutAction_world {s : State} (h : s.Inv) (k : Strike) : (s.cutAction k).WorldInv := by
  have hok : ∀ b, s.emitsNext b → actionOk s.cfg (.emit b) = true := fun b hb => by
    obtain ⟨rest, hd⟩ := List.head?_eq_some_iff.1 hb.2.2
    exact h.script.actionOk_of_drop hd
  rcases State.cutAction_cases k s with ⟨-, e⟩ | ⟨b, -, hb, e⟩ | ⟨b, -, hb, e⟩ <;> rw [e]
  · exact h.world
  · exact State.cutWrite_world h.world (hok b hb)
  · exact State.transact_world h.world (hok b hb) (by simp)

/-! ### The invariant over each operation -/

theorem State.taken_inv {s : State} (h : s.Inv) : s.taken.Inv := h

/-- The INIT script is one the block may run (R83, R160, R185). -/
theorem initScript_ok {c : Cfg} (h : c.Wf) :
    (∀ a ∈ initScript c, actionOk c a = true) ∧ (emitted (initScript c)).length ≤ 252 ∧ 0 ≤ (initScript c).length :=
  ⟨actionOk_initScript h, by simp, Nat.zero_le _⟩

/-- The reset values meet the invariant, whatever the registers held before (R33). -/
theorem State.blockReset_inv {s : State} (h : s.WorldInv) : s.blockReset.Inv :=
  ⟨h.wf, initScript_ok h.wf, ⟨fun _ => ⟨rfl, rfl⟩, rfl⟩, fun _ => ⟨rfl, rfl, rfl⟩,
    fun _ => ⟨rfl, rfl, rfl, rfl, rfl, rfl, rfl, rfl, rfl, rfl⟩, ⟨Memory.wf_nil _, by simp, Nat.zero_le _⟩,
    h.lcd, h.events⟩

theorem State.assertReset_inv {s : State} (h : s.Inv) (k : Strike) (p : Bool) : (s.assertReset k p).Inv := by
  have hw := State.cutAction_world h k
  refine State.blockReset_inv (s := { s.cutAction k with
    lcd := if p then Lcd.unknown (s.cutAction k).draws else (s.cutAction k).lcd
    draws := (s.cutAction k).draws + 1 }) ⟨hw.wf, ?_, hw.events⟩
  cases p with
  | false => exact hw.lcd
  | true => exact Lcd.unknown_ddramOk _

theorem State.startInit_inv {s : State} (h : s.Inv) : s.startInit.Inv :=
  ⟨h.world.wf, initScript_ok h.world.wf, ⟨fun _ => ⟨rfl, rfl⟩, rfl⟩, fun _ => ⟨rfl, rfl, rfl⟩,
    State.resetInv_of_not_rst rfl, h.text, h.world.lcd, h.world.events⟩

theorem InitState.atEnd_running (i : InitState) (r : Result) : (i.atEnd r).running = false := by
  unfold InitState.atEnd
  cases hi : i.running with
  | false => simpa using hi
  | true => cases r <;> rfl

/-- An operation ends in a state that meets the invariant when its index is one its result allows (R26, R113). -/
theorem State.finish_inv {s : State} (hw : s.WorldInv) (hs : s.ScriptInv) (ht : s.TextInv) (hrst : s.rst = false)
    {r : Result} {k : Byte} (hk : if r = .busError then 1 ≤ k.toNat ∧ k.toNat ≤ 252 else k = 0#8) :
    (s.finish r k).Inv :=
  ⟨hw.wf, hs, ⟨nofun, hk⟩, State.initInv_of_over (InitState.atEnd_running _ _), State.resetInv_of_not_rst hrst,
    ht, hw.lcd, hw.events⟩

/-- The script position moves past an action that completed, once NSENT counts that action too (R27, R161). -/
theorem State.advance_inv {s : State} (hw : s.WorldInv) (hs : s.ScriptInv) (ht : s.TextInv) (hi : s.InitInv)
    (hrst : s.rst = false) (hclear : s.result = .ok ∧ s.errIndex = 0#8) (hpc : s.pc < s.script.length)
    (hn : s.nsent.toNat = (emitted (s.script.take (s.pc + 1))).length) : s.advance.Inv := by
  obtain ⟨hok, herr⟩ := hclear
  obtain ⟨hactions, hlen, -⟩ := hs
  refine ⟨hw.wf, ⟨hactions, hlen, hpc⟩, ⟨fun _ => ⟨hok, hn⟩, ?_⟩, ?_, State.resetInv_of_not_rst hrst, ht, hw.lcd, hw.events⟩
  · simpa [hok] using herr
  · intro hr
    cases hrun : s.initState.running with
    | false => simp [InitState.follow, hrun] at hr
    | true =>
      obtain ⟨hb, hscript, -⟩ := hi hrun
      exact ⟨hb, hscript, by simp [InitState.follow, hrun]⟩

theorem State.delay_inv {s : State} (h : s.Inv) (hrst : s.rst = false) (hb : s.busy = true) {d : DelayId}
    {rest : List Action} (hd : s.script.drop s.pc = .delay d :: rest) : (s.delay d).Inv := by
  have hn : s.nsent.toNat = (emitted (s.script.take (s.pc + 1))).length := by
    rw [take_succ_of_drop hd]
    simpa using h.nsent_of_busy hb
  have hw := State.delay_world h.world d
  exact State.advance_inv (s := { s with events := s.events ++ [.delay d], lcd := s.lcd.wait d }) ⟨hw.wf, hw.lcd, hw.events⟩
    h.script h.text h.init hrst (h.clear_of_busy hb) (lt_length_of_drop hd) hn

/-- NSENT counts one more byte, and there are at most 252 of them, so it does not wrap (R185, R201). -/
theorem State.Inv.nsent_succ {s : State} (h : s.Inv) (hb : s.busy = true) {b : Byte} {rest : List Action}
    (hd : s.script.drop s.pc = .emit b :: rest) :
    (s.nsent + 1#8).toNat = (emitted (s.script.take (s.pc + 1))).length ∧
      1 ≤ (s.nsent + 1#8).toNat ∧ (s.nsent + 1#8).toNat ≤ 252 := by
  have hcount := h.nsent_of_busy hb
  obtain ⟨-, hmax, -⟩ := h.script
  have hsucc : (emitted (s.script.take (s.pc + 1))).length = s.nsent.toNat + 1 := by
    rw [take_succ_of_drop hd]
    simp [hcount]
  have hle : (emitted (s.script.take (s.pc + 1))).length ≤ 252 := by
    have hsplit : emitted s.script = emitted (s.script.take (s.pc + 1)) ++ emitted (s.script.drop (s.pc + 1)) := by
      rw [← emitted_append, List.take_append_drop]
    rw [hsplit, List.length_append] at hmax
    omega
  have hadd : (s.nsent + 1#8).toNat = s.nsent.toNat + 1 := by
    rw [BitVec.toNat_add]
    simp
    omega
  omega

theorem State.emit_inv {s : State} (h : s.Inv) (hrst : s.rst = false) (hb : s.busy = true) {b : Byte}
    {rest : List Action} (hd : s.script.drop s.pc = .emit b :: rest) : (s.emit b).Inv := by
  have hw := State.busWrite_world h.world (h.script.actionOk_of_drop hd)
  obtain ⟨hn, hindex⟩ := h.nsent_succ hb hd
  cases ha : s.draw.answer with
  | ack =>
    rw [State.emit_of_ack ha]
    exact State.advance_inv hw h.script h.text h.init hrst (h.clear_of_busy hb) (lt_length_of_drop hd) hn
  | fail =>
    rw [State.emit_of_fail ha]
    exact State.finish_inv hw h.script h.text hrst hindex

/-- The actions the script stands at keep the invariant, whole or cut at a failed write (R112). -/
theorem State.runActions_inv {s : State} (h : s.Inv) (hrst : s.rst = false) (hb : s.busy = true)
    {frag rest : List Action} (hd : s.script.drop s.pc = frag ++ rest) : (State.runActions frag s).Inv := by
  induction frag generalizing s with
  | nil => exact h
  | cons a as ih =>
    cases a with
    | delay d =>
      have hrest : (s.delay d).script.drop (s.delay d).pc = as ++ rest := drop_script (frag := [.delay d]) hd rfl rfl
      exact ih (State.delay_inv h hrst hb hd) hrst hb hrest
    | emit b =>
      have hinv := State.emit_inv h hrst hb hd
      cases ha : s.draw.answer with
      | fail => simpa only [State.runActions, ha] using hinv
      | ack =>
        simp only [State.runActions, ha]
        rw [State.emit_of_ack ha] at hinv ⊢
        exact ih hinv hrst hb (drop_script (frag := [.emit b]) hd rfl rfl)

/-- A request whose script the block may run is accepted in a state that meets the invariant (R116). -/
theorem State.accept_inv {s : State} (h : s.Inv) (hrst : s.rst = false) (hb : s.busy = false) (w : ReqWord)
    {sc : List Action} (hsc : ∀ a ∈ sc, actionOk s.cfg a = true) (hlen : (emitted sc).length ≤ 252) :
    (s.accept w sc).Inv := by
  rw [State.accept_of_ready hb]
  exact ⟨h.world.wf, ⟨hsc, hlen, Nat.zero_le _⟩, ⟨fun _ => ⟨rfl, rfl⟩, rfl⟩,
    State.initInv_of_over (h.init_over_of_idle hb), State.resetInv_of_not_rst hrst, h.text, h.world.lcd, h.world.events⟩

theorem State.acceptRender_inv {s : State} (h : s.Inv) (hrst : s.rst = false) (hb : s.busy = false) (w : ReqWord)
    {n : Nat} (hn : n ≤ s.cfg.textMax) : (s.acceptRender w n).Inv := by
  have hwf := h.world.wf
  have hmax := hwf.textMax_le
  have hlen : (emitted (renderLoop s.cfg 0 (textBytes s.text s.draws n)).1).length ≤ 252 := by
    have hle := length_emitted_renderLoop_le s.cfg 0 (textBytes s.text s.draws n)
    simp only [length_textBytes, Nat.zero_le, if_true] at hle
    omega
  have hcol : (renderLoop s.cfg 0 (textBytes s.text s.draws n)).2 ≤ s.cfg.textMax := by
    simpa [renderLoop_col] using hn
  have hacc := State.accept_inv h hrst hb w (actionOk_renderLoop hwf 0 (textBytes s.text s.draws n)) hlen
  rw [State.accept_of_ready hb] at hacc
  rw [State.acceptRender_of_ready hb]
  obtain ⟨htextWf, htextLt, -⟩ := h.text
  exact ⟨hwf, hacc.script, hacc.status, hacc.init, State.resetInv_of_not_rst hrst, ⟨htextWf, htextLt, hcol⟩, hacc.world.lcd,
    hacc.world.events⟩

theorem State.refuse_inv {s : State} (h : s.Inv) (hrst : s.rst = false) (hb : s.busy = false) (w : ReqWord) :
    (s.refuse w).Inv := by
  rw [State.refuse_of_ready hb]
  exact ⟨h.world.wf, h.script, ⟨nofun, rfl⟩, State.initInv_of_over (h.init_over_of_idle hb),
    State.resetInv_of_not_rst hrst, h.text, h.world.lcd, h.world.events⟩

/-- A text write stays below TEXT_MAX and keeps the canonical form (R64). -/
theorem State.writeText_inv {s : State} (h : s.Inv) (hrst : s.rst = false) (hb : s.busy = false) (i : BitVec 6) (v : Byte) :
    (s.writeText i v).Inv := by
  by_cases hi : i.toNat < s.cfg.textMax
  · rw [State.writeText_of_lt hb hi]
    obtain ⟨htextWf, htextLt, hcol⟩ := h.text
    refine ⟨h.world.wf, h.script, h.status, h.init, State.resetInv_of_not_rst hrst,
      ⟨Memory.write_wf htextWf _ _, ?_, hcol⟩, h.world.lcd, h.world.events⟩
    intro x hx
    rcases Memory.mem_write (d := none) hx with rfl | hx
    · exact hi
    · exact htextLt x hx
  · rwa [State.writeText_of_ge hb (Nat.le_of_not_lt hi)]

/-- A legal request word run at the port of an idle block keeps the invariant (R116). -/
theorem exec_request_inv {s t : State} (h : s.Inv) (hrst : s.rst = false) (hb : s.busy = false) {w : ReqWord} {i : Instr}
    (hd : decodeReq s.cfg w = .ok i) (ht : exec i s = .next t) : t.Inv := by
  rcases exec_cases_of_decodeReq hd ht with ⟨v, sc, hi, rfl⟩ | ⟨v, n, hn, rfl⟩ | ⟨v, rfl⟩
  · obtain ⟨hsc, hlen⟩ := requestOf_ok h.world.wf hi
    exact State.accept_inv h hrst hb v hsc (by omega)
  · exact State.acceptRender_inv h hrst hb v hn
  · exact State.refuse_inv h hrst hb v

/-- Settles O42, by the cases of a step: each operation a step performs keeps the invariant. -/
theorem everyStepKeepsTheInvariant : Obligations.EveryStepKeepsTheInvariant := by
  unfold Obligations.EveryStepKeepsTheInvariant
  intro s t h hstep
  have h' := State.taken_inv h
  rcases step_cases s with ⟨k, p, -, e⟩ | ⟨-, -, e⟩ | ⟨hrel, hb, -⟩ | ⟨⟨hrst, -⟩, hb, hidle⟩
  · rw [e] at hstep
    cases hstep
    exact State.assertReset_inv h' k p
  · rw [e] at hstep
    cases hstep
    exact State.startInit_inv h'
  · rcases step_cases_of_busy hrel hb hstep with ⟨-, rfl⟩ | ⟨frag, rest, hd, rfl⟩
    · exact State.finish_inv h'.world h'.script h'.text hrel.1 rfl
    · exact State.runActions_inv h' hrel.1 hb hd
  · rcases hidle with ⟨i, v, rest, -, e⟩ | ⟨w, rest, i, -, hd, e⟩ | ⟨w, rest, r, -, -, e⟩ | ⟨-, e⟩ <;> rw [e] at hstep
    · cases hstep
      exact State.writeText_inv h' hrst hb i v
    · exact exec_request_inv h' hrst hb hd hstep
    · cases hstep
      exact State.refuse_inv h' hrst hb w
    · cases hstep
      exact h'

/-! ### At reset (R33) -/

/-- STATUS under reset: BUSY alone is set (R23, R33). -/
theorem statusWord_under_reset : statusWord 0#8 .sPowerOn .ok true = 0x0001#16 := by decide

/-- Settles O40: each register of the reset state is written out with R33's value. -/
theorem resetStateValues : Obligations.ResetStateValues := by
  unfold Obligations.ResetStateValues
  exact ⟨statusWord_under_reset, rfl, rfl, rfl, rfl, rfl, rfl, rfl, rfl, rfl⟩

/-- This hardware's parameters are ones R5 allows. -/
theorem hardware_wf : Config.hardware.Wf :=
  ⟨⟨.inl rfl, .inr (.inl rfl), .inr (.inr (.inl rfl)), .inr (.inr (.inr rfl))⟩, by decide, by decide, by decide⟩

theorem State.reset_world : State.reset.WorldInv where
  wf := hardware_wf
  lcd := Lcd.unknown_ddramOk 0
  events := nofun

/-- Settles O41: the reset state already holds the reset values, and those meet the invariant. -/
theorem invariantAtReset : Obligations.InvariantAtReset := by
  unfold Obligations.InvariantAtReset
  have hfix : State.reset.blockReset = State.reset := rfl
  exact hfix ▸ State.blockReset_inv State.reset_world

/-! ### What reset takes (R230, R231) -/

/-- A host's move is not taken in a step that samples `rst` asserted. -/
theorem State.taken_hostIn_of_hold {s : State} {k : Strike} {p : Bool} (h : s.rstIn.headD .run = .hold k p) :
    s.taken.hostIn = s.hostIn := by
  unfold State.taken
  rw [h]
  rfl

theorem State.cutAction_of_no_emit {s : State} {k : Strike} (h : k = .before ∨ ∀ b, ¬ s.emitsNext b) :
    s.cutAction k = s := by
  rcases State.cutAction_cases k s with ⟨-, e⟩ | ⟨b, hk, hb, -⟩ | ⟨b, hk, hb, -⟩
  · exact e
  all_goals
    subst hk
    rcases h with h | h
    · cases h
    · exact absurd hb (h b)

theorem State.cutAction_inWrite {s : State} {b : Byte} (h : s.emitsNext b) : s.cutAction .inWrite = s.cutWrite b := by
  unfold State.cutAction
  rw [State.nextEmit_eq_some.2 h]

theorem State.cutAction_inSettle {s : State} {b : Byte} (h : s.emitsNext b) : s.cutAction .inSettle = s.transact [] b := by
  unfold State.cutAction
  rw [State.nextEmit_eq_some.2 h]

theorem State.draws_le_cutAction (k : Strike) (s : State) : s.draws ≤ (s.cutAction k).draws := by
  rcases State.cutAction_cases k s with ⟨-, e⟩ | ⟨b, -, -, e⟩ | ⟨b, -, -, e⟩ <;> rw [e] <;> simp

theorem State.assertReset_lcd_of_reset {s : State} {k : Strike} {p : Bool} (hp : p = false) :
    (s.assertReset k p).lcd = (s.cutAction k).lcd := by
  simp [hp]

/-- Settles O39: the registers are the reset values, and events, answers and environment are those of what reset cuts of the running
action. -/
theorem resetTakesEverything : Obligations.ResetTakesEverything := by
  unfold Obligations.ResetTakesEverything
  intro s k p hk
  have hstep : step s = .next (s.taken.assertReset k p) := by
    simp only [step, State.fetch, hk]
  refine ⟨_, hstep, rfl, statusWord_under_reset, rfl, rfl, State.assertReset_script _ _ _, rfl, rfl, rfl, rfl, rfl, ?_,
    State.assertReset_cfg _ _ _, State.assertReset_rstIn _ _ _, State.assertReset_grain _ _ _, ?_, ?_, ?_, ?_⟩
  · rw [State.assertReset_hostIn, State.taken_hostIn_of_hold hk]
  · intro hno
    have e : s.taken.cutAction k = s.taken := State.cutAction_of_no_emit hno
    refine ⟨?_, ?_, fun hp => ?_⟩
    · rw [State.assertReset_events, e, State.taken_events]
    · rw [State.assertReset_answers, e, State.taken_answers]
    · rw [State.assertReset_lcd_of_reset hp, e, State.taken_lcd]
  · rintro b rfl hb
    have e : s.taken.cutAction .inWrite = s.taken.cutWrite b := State.cutAction_inWrite hb
    refine ⟨?_, ?_, fun hp => ?_⟩
    · rw [State.assertReset_events, e, State.cutWrite_events, State.taken_events, State.taken_cfg]
    · rw [State.assertReset_answers, e, State.cutWrite_answers, State.taken_answers]
    · rw [State.assertReset_lcd_of_reset hp, e]
      exact ⟨rfl, rfl⟩
  · rintro b rfl hb
    have e : s.taken.cutAction .inSettle = s.taken.transact [] b := State.cutAction_inSettle hb
    refine ⟨?_, ?_, fun hp ha => ?_, fun hp ha => ?_⟩
    · rw [State.assertReset_events, e, State.transact_events, State.taken_events, State.taken_cfg, State.draw_taken]
    · rw [State.assertReset_answers, e, State.transact_answers, State.taken_answers]
    · rw [State.assertReset_lcd_of_reset hp, e]
      exact State.transact_lcd_of_ack (s := s.taken) ha [] b
    · rw [State.assertReset_lcd_of_reset hp, e, State.transact_lcd_of_fail (s := s.taken) ha]
      exact ⟨rfl, rfl⟩
  · rintro rfl
    exact ⟨(s.taken.cutAction k).draws, State.draws_le_cutAction k s.taken, rfl, rfl⟩

/-! ### A busy block (R25, R113, R161) -/

/-- Settles O23: exec of a request is an acceptance, which waits while BUSY = 1, and what a busy step performs, the end or actions of the
script, reaches no port. -/
theorem portsWaitWhileBusy : Obligations.PortsWaitWhileBusy := by
  unfold Obligations.PortsWaitWhileBusy
  constructor
  · rintro s i hb ⟨p, v, hi⟩
    rcases exec_cases i s with ⟨as, hf, -⟩ | ⟨w, sc, -, e⟩ | ⟨n, -, -, e⟩ | ⟨n, -, -, e⟩ | ⟨rfl, -⟩
    · simp only [List.mem_cons, List.not_mem_nil, or_false] at hi
      rcases hi with rfl | rfl | rfl | rfl | rfl <;> cases hf
    · rw [e, State.accept_of_busy hb]
    · rw [e, State.acceptRender_of_busy hb]
    · rw [e, State.refuse_of_busy hb]
    · simp at hi
  · intro s t hb hrel hstep
    have hwait : s.taken.hostIn = s.hostIn := by rw [State.taken_of_busy hb]
    rcases step_cases_of_busy hrel hb hstep with ⟨-, rfl⟩ | ⟨frag, rest, -, rfl⟩
    · exact ⟨hwait, rfl, rfl⟩
    · obtain ⟨-, -, -, -, hreq, htext, -, hhost, -⟩ := State.runActions_sameButCut frag s.taken
      exact ⟨hhost.trans hwait, htext, hreq⟩

theorem State.fetchScript_of_done {s : State} (h : s.script.drop s.pc = []) : s.fetchScript = .finish := by
  unfold State.fetchScript
  rw [h]
  cases s.grain <;> rfl

/-- Settles O26: at the end of the script the step fetches the end of the operation, with OK. -/
theorem operationEndsWithOk : Obligations.OperationEndsWithOk := by
  unfold Obligations.OperationEndsWithOk
  intro s hrel hb hpc
  have hdone : s.script.drop s.pc = [] := List.drop_eq_nil_of_le hpc.ge
  have hstep : step s = .next (s.taken.finish .ok 0#8) := by
    simp only [step, State.fetch_of_busy hrel hb, State.fetchScript_of_done hdone]
  rw [hstep, State.taken_of_busy hb]
  simp [State.finish, InitState.atEnd]

/-! ### INIT's outcome (R28, R161) -/

theorem InitState.follow_of_over {i : InitState} (h : i.running = false) (p : Nat) : i.follow p = i := by
  simp [InitState.follow, h]

theorem InitState.atEnd_of_over {i : InitState} (h : i.running = false) (r : Result) : i.atEnd r = i := by
  simp [InitState.atEnd, h]

/-- Once INIT is over, running actions leaves INIT_STATE alone, whole or cut (R161). -/
theorem State.runActions_initState_of_over {s : State} (h : s.initState.running = false) (as : List Action) :
    (State.runActions as s).initState = s.initState := by
  rcases State.runActions_cases as s with ⟨-, r⟩ | ⟨pre, b, post, rfl, hf, -⟩
  · rw [r.initState, InitState.follow_of_over h, ite_self]
  · rw [(State.ranCut hf b post).initState, InitState.atEnd_of_over h]

/-- Settles O37: once INIT is over, the end and the actions of an operation leave INIT_STATE alone, and so do the ports. -/
theorem initOutcomeIsTerminal : Obligations.InitOutcomeIsTerminal := by
  unfold Obligations.InitOutcomeIsTerminal
  intro s t hrel hinit hstep
  have hover : s.initState.running = false := by rcases hinit with h | h <;> rw [h] <;> rfl
  rcases step_cases s with ⟨k, p, hr, -⟩ | ⟨-, hrst, -⟩ | ⟨-, hb, -⟩ | ⟨-, -, hidle⟩
  · rw [hrel.2] at hr
    cases hr
  · simp [hrel.1] at hrst
  · rcases step_cases_of_busy hrel hb hstep with ⟨-, rfl⟩ | ⟨frag, rest, -, rfl⟩
    · exact InitState.atEnd_of_over hover .ok
    · exact State.runActions_initState_of_over (s := s.taken) hover frag
  · rcases hidle with ⟨i, v, rest, -, e⟩ | ⟨w, rest, i, -, hd, e⟩ | ⟨w, rest, r, -, -, e⟩ | ⟨-, e⟩ <;> rw [e] at hstep
    · cases hstep
      simp
    · rcases exec_cases_of_decodeReq (s := s.taken) hd hstep with ⟨v, sc, -, rfl⟩ | ⟨v, n, -, rfl⟩ | ⟨v, rfl⟩ <;> simp
    · cases hstep
      simp
    · cases hstep
      simp

/-! ### STATUS (R23) -/

/-- Each field of the STATUS word is read back at its bits (R23). -/
theorem statusWord_fields (e : Byte) (i : InitState) (r : Result) (b : Bool) :
    (statusWord e i r b).extractLsb' 0 1 = BitVec.ofBool b ∧ (statusWord e i r b).extractLsb' 1 2 = r.code ∧
    (statusWord e i r b).extractLsb' 3 2 = i.code ∧ (statusWord e i r b).extractLsb' 5 3 = 0#3 ∧
    (statusWord e i r b).extractLsb' 8 8 = e := by
  unfold statusWord
  refine ⟨BitVec.extractLsb'_append_eq_right, ?_, ?_, ?_, ?_⟩
  · rw [BitVec.extractLsb'_append_eq_of_le (by decide)]
    exact BitVec.extractLsb'_append_eq_right
  · rw [BitVec.extractLsb'_append_eq_of_le (by decide), BitVec.extractLsb'_append_eq_of_le (by decide)]
    exact BitVec.extractLsb'_append_eq_right
  · rw [BitVec.extractLsb'_append_eq_of_le (by decide), BitVec.extractLsb'_append_eq_of_le (by decide),
      BitVec.extractLsb'_append_eq_of_le (by decide)]
    exact BitVec.extractLsb'_append_eq_right
  · rw [BitVec.extractLsb'_append_eq_of_le (by decide), BitVec.extractLsb'_append_eq_of_le (by decide),
      BitVec.extractLsb'_append_eq_of_le (by decide)]
    exact BitVec.extractLsb'_append_eq_left

/-- Settles O44: the fields of the word are read back, and each code stands for one result or one group of INIT states. -/
theorem statusReadsItsFields : Obligations.StatusReadsItsFields := by
  unfold Obligations.StatusReadsItsFields
  refine ⟨fun s => ?_, fun s h hb => ?_⟩
  · obtain ⟨hbusy, hresult, hinit, hzero, herr⟩ := statusWord_fields s.errIndex s.initState s.result s.busy
    unfold State.status
    rw [hbusy, hresult, hinit, hzero, herr]
    refine ⟨rfl, ?_, ?_, ?_, ?_, ?_, ?_, rfl, rfl⟩
    · cases s.result <;> decide
    · cases s.result <;> decide
    · cases s.result <;> decide
    · cases s.initState <;> decide
    · cases s.initState <;> decide
    · cases s.initState <;> decide
  · obtain ⟨-, hresult, -, -, herr⟩ := statusWord_fields s.errIndex s.initState s.result s.busy
    obtain ⟨hok, hindex⟩ := h.clear_of_busy hb
    unfold State.status
    rw [hresult, herr, hok, hindex]
    exact ⟨rfl, rfl⟩

/-! ### The text port and RENDER's reads (R22, R63, R64) -/

/-- With no value for unlisted entries, a read gives the listed byte or none. -/
@[simp] theorem Memory.read_none (m : Memory) (a : Nat) : Memory.read none m a = Memory.lookup a m := by
  simp [Memory.read]

/-- Settles O45: the step takes the write, which in a canonical memory sets the one entry. -/
theorem textWriteIsTaken : Obligations.TextWriteIsTaken := by
  unfold Obligations.TextWriteIsTaken
  intro s i v rest h hrel hb hhost hi
  have hfetch : s.fetch = .text i v := by
    rw [State.fetch_of_idle hrel hb, State.fetchHost, hhost]
  have hstep : step s = .next (s.taken.writeText i v) := by simp only [step, hfetch]
  obtain ⟨hwf, -, -⟩ := h.text
  have hread := Memory.read_write hwf i.toNat (v := v)
  simp only [Memory.read_none] at hread
  refine ⟨Memory.write none s.text i.toNat v, ?_, Memory.write_wf hwf _ _, ?_, fun j hj => ?_⟩
  · rw [hstep, State.writeText_of_lt (s := s.taken) hb hi, State.taken_of_idle hrel hb, hhost]
    rfl
  · rw [hread, if_pos rfl]
  · rw [hread, if_neg hj]

/-- Settles O19: byte `i` of the line is the read of entry `i`, the listed byte or the free value of that read. -/
theorem renderReadsEachEntry : Obligations.RenderReadsEachEntry := by
  unfold Obligations.RenderReadsEachEntry
  intro m d n
  refine ⟨length_textBytes m d n, fun i hi => ?_⟩
  have hget : (textBytes m d n)[i]? = some ((Memory.lookup i m).getD (Config.freeText (d + i))) := by
    simp [textBytes, textByte, hi]
  exact ⟨fun v hv => by rw [hget, hv]; rfl, fun hnone => by rw [hget, hnone]; rfl⟩

end Sys2Proof.Machine
end

section
/-! PROOFS. The family of 20_memory: the bytes on the bus, no step stops, and the environment behind the bus: what a write makes the
controller do, the recovery, INIT, and what a rendered line shows. -/

namespace Sys2Proof.Machine

/-! ### What a step adds to the events (R50, R82, R83, R110, R231) -/

/-- The control lines of a byte as R82 and R83 have them: backlight set, read/write clear, one of the four control nibbles. -/
def BacklitByte (c : Cfg) (b : Byte) : Prop :=
  controlOf b &&& c.blMask = c.blMask ∧ controlOf b &&& c.rwMask = 0#4 ∧
  controlOf b ∈ [c.blMask, c.blMask ||| c.enMask, c.blMask ||| c.rsMask, c.blMask ||| c.rsMask ||| c.enMask]

/-- The events one action adds. What reset leaves of a bus write needs `cut`. -/
inductive BacklitBlock (c : Cfg) (cut : Prop) : List Event → Prop where
  | delay (d : DelayId) : BacklitBlock c cut [.delay d]
  | write {b : Byte} (hb : BacklitByte c b) (r : Answer) : BacklitBlock c cut (writeEvents c b r)
  | abandoned {b : Byte} (hb : BacklitByte c b) (r : Answer) (hcut : cut) : BacklitBlock c cut [.write c.lcdAddr b r]
  | cutWrite {b : Byte} (hb : BacklitByte c b) (hcut : cut) : BacklitBlock c cut [.cutWrite c.lcdAddr b]

/-- The events grow from `s` to `t` by whole blocks. -/
def State.AddsBlocks (cut : Prop) (s t : State) : Prop :=
  ∃ blocks : List (List Event), t.events = s.events ++ blocks.flatten ∧ ∀ bl ∈ blocks, BacklitBlock s.cfg cut bl

theorem State.addsBlocks_of_events_eq {cut : Prop} {s t : State} (h : t.events = s.events) : s.AddsBlocks cut t :=
  ⟨[], by simp [h], nofun⟩

theorem State.addsBlocks_of_block {cut : Prop} {s t : State} {bl : List Event} (h : t.events = s.events ++ bl)
    (hbl : BacklitBlock s.cfg cut bl) : s.AddsBlocks cut t :=
  ⟨[bl], by simpa using h, by simpa using hbl⟩

theorem transportByte_backlit {c : Cfg} (h : c.Wf) (p : Nibble) (rs en : Bool) :
    BacklitByte c (transportByte c p rs en) := by
  obtain ⟨-, hrw, -⟩ := controlNibble_lines h rs en
  unfold BacklitByte
  rw [controlOf_transportByte]
  refine ⟨?_, hrw, ?_⟩
  · unfold controlNibble ctrl
    refine h.masks (P := fun a _ e b => ((b ||| if rs then a else 0#4) ||| if en then e else 0#4) &&& b = b) ?_
    cases rs <;> cases en <;> decide
  · cases rs <;> cases en <;> simp [controlNibble, ctrl]

/-- A byte a script may hold is a transport byte, so its control lines are R82's. -/
theorem backlitByte_of_actionOk {c : Cfg} (h : c.Wf) {b : Byte} (hb : actionOk c (.emit b) = true) : BacklitByte c b := by
  obtain ⟨p, rs, en, rfl, -⟩ := eq_transportByte_of_actionOk hb
  exact transportByte_backlit h p rs en

theorem backlitBlock_of_actionOk {c : Cfg} (h : c.Wf) {a : Action} (ha : actionOk c a = true) (cut : Prop) :
    BacklitBlock c cut (a.events c) := by
  cases a with
  | emit b => exact .write (backlitByte_of_actionOk h ha) .ack
  | delay d => exact .delay d

/-- A fragment adds one block for each action, a failed write its block too (R110, R112). -/
theorem State.runActions_addsBlocks {s : State} (h : s.cfg.Wf) {as : List Action}
    (has : ∀ a ∈ as, actionOk s.cfg a = true) (cut : Prop) : s.AddsBlocks cut (State.runActions as s) := by
  rcases State.runActions_cases as s with ⟨-, r⟩ | ⟨pre, b, post, rfl, hf, -⟩
  · refine ⟨as.map (Action.events s.cfg), by rw [r.events, List.flatMap_def], ?_⟩
    simp only [List.mem_map]
    rintro - ⟨a, ha, rfl⟩
    exact backlitBlock_of_actionOk h (has a ha) cut
  · refine ⟨pre.map (Action.events s.cfg) ++ [writeEvents s.cfg b .fail], ?_, ?_⟩
    · rw [(State.ranCut hf b post).events]
      simp [List.flatMap_def]
    · simp only [List.mem_append, List.mem_map, List.mem_singleton]
      rintro - (⟨a, ha, rfl⟩ | rfl)
      · exact backlitBlock_of_actionOk h (has a (by simp [ha])) cut
      · exact .write (backlitByte_of_actionOk h (has _ (by simp))) .fail

/-- What reset leaves of an action is at most one block (R231). -/
theorem State.assertReset_addsBlocks {s : State} (h : s.Inv) (k : Strike) (p : Bool) {cut : Prop} (hcut : cut) :
    s.AddsBlocks cut (s.assertReset k p) := by
  have hbyte : ∀ b, s.emitsNext b → BacklitByte s.cfg b := fun b ⟨_, _, hb⟩ => by
    obtain ⟨rest, hd⟩ := List.head?_eq_some_iff.1 hb
    exact backlitByte_of_actionOk h.world.wf (h.script.actionOk_of_drop hd)
  rcases State.cutAction_cases k s with ⟨-, e⟩ | ⟨b, -, hb, e⟩ | ⟨b, -, hb, e⟩
  · exact State.addsBlocks_of_events_eq (by rw [State.assertReset_events, e])
  · exact State.addsBlocks_of_block (by rw [State.assertReset_events, e, State.cutWrite_events])
      (.cutWrite (hbyte b hb) hcut)
  · exact State.addsBlocks_of_block (by rw [State.assertReset_events, e, State.transact_events])
      (.abandoned (hbyte b hb) s.draw.answer hcut)

/-- Each move of a step adds whole blocks, cut ones only where it samples `rst` asserted. -/
theorem step_addsBlocks {s t : State} (h : s.Inv) (hstep : step s = .next t) :
    s.AddsBlocks (s.rstIn.headD .run ≠ .run) t := by
  rcases step_cases s with ⟨k, p, hr, e⟩ | ⟨-, -, e⟩ | ⟨hrel, hb, -⟩ | ⟨-, -, hidle⟩
  · rw [e] at hstep
    cases hstep
    exact State.assertReset_addsBlocks (State.taken_inv h) k p (by rw [hr]; nofun)
  · rw [e] at hstep
    cases hstep
    exact State.addsBlocks_of_events_eq rfl
  · rcases step_cases_of_busy hrel hb hstep with ⟨-, rfl⟩ | ⟨frag, rest, hd, rfl⟩
    · exact State.addsBlocks_of_events_eq rfl
    · obtain ⟨hok, -⟩ := h.script
      refine State.runActions_addsBlocks (s := s.taken) h.world.wf (fun a ha => hok a ?_) _
      exact List.mem_of_mem_drop (hd ▸ List.mem_append_left rest ha)
  · rcases hidle with ⟨i, v, rest, -, e⟩ | ⟨w, rest, i, -, hd, e⟩ | ⟨w, rest, r, -, -, e⟩ | ⟨-, e⟩ <;> rw [e] at hstep
    · cases hstep
      exact State.addsBlocks_of_events_eq (by simp)
    · rcases exec_cases_of_decodeReq (s := s.taken) hd hstep with ⟨v, sc, -, rfl⟩ | ⟨v, n, -, rfl⟩ | ⟨v, rfl⟩ <;>
        exact State.addsBlocks_of_events_eq (by simp)
    · cases hstep
      exact State.addsBlocks_of_events_eq (by simp)
    · cases hstep
      exact State.addsBlocks_of_events_eq rfl

/-- Settles O10: a step adds whole blocks of events, and each kind of block is one the statement names. -/
theorem everyWriteIsABacklitWrite : Obligations.EveryWriteIsABacklitWrite := by
  unfold Obligations.EveryWriteIsABacklitWrite
  intro s t h hstep
  obtain ⟨blocks, hevents, hblocks⟩ := step_addsBlocks h hstep
  refine ⟨blocks, hevents, fun bl hbl => ?_⟩
  cases hblocks bl hbl with
  | delay d => exact .inl ⟨d, rfl⟩
  | write hb r => exact .inr ⟨_, r, .inl rfl, hb⟩
  | abandoned hb r hcut => exact .inr ⟨_, r, .inr ⟨hcut, .inl rfl⟩, hb⟩
  | cutWrite hb hcut => exact .inr ⟨_, .ack, .inr ⟨hcut, .inr rfl⟩, hb⟩

/-! ### No step stops (R52, R115, R203, R208) -/

/-- Every instruction answers a next state. -/
theorem exec_next (i : Instr) (s : State) : ∃ t, exec i s = .next t := by
  rcases exec_cases i s with ⟨as, -, e⟩ | ⟨w, sc, -, e⟩ | ⟨n, -, -, e⟩ | ⟨n, -, -, e⟩ | ⟨-, e⟩ <;> exact ⟨_, e⟩

/-- The one fault is a byte of no form, which no script holds (R83). -/
theorem step_next_of_inv {s : State} (h : s.Inv) : ∃ t, step s = .next t := by
  rcases step_cases s with ⟨k, p, -, e⟩ | ⟨-, -, e⟩ | ⟨-, -, hbusy⟩ | ⟨-, -, hidle⟩
  · exact ⟨_, e⟩
  · exact e ▸ exec_next _ _
  · rcases hbusy with ⟨-, e⟩ | ⟨d, rest, -, e⟩ | ⟨frag, rest, i, -, -, e⟩ | ⟨b, rest, hd, hbad, -⟩
    · exact ⟨_, e⟩
    · exact ⟨_, e⟩
    · exact e ▸ exec_next _ _
    · simp [h.script.actionOk_of_drop hd] at hbad
  · rcases hidle with ⟨i, v, rest, -, e⟩ | ⟨w, rest, i, -, -, e⟩ | ⟨w, rest, r, -, -, e⟩ | ⟨-, e⟩
    · exact ⟨_, e⟩
    · exact e ▸ exec_next _ _
    · exact ⟨_, e⟩
    · exact ⟨_, e⟩

/-- Settles O43, by induction on the length of the run: a step goes on and keeps the invariant. -/
theorem noStepStops : Obligations.NoStepStops := by
  unfold Obligations.NoStepStops
  intro s h k
  induction k generalizing s with
  | zero => exact ⟨s, rfl⟩
  | succ k ih =>
    obtain ⟨t, ht⟩ := step_next_of_inv h
    obtain ⟨u, hu⟩ := ih t (everyStepKeepsTheInvariant s t h ht)
    exact ⟨u, by simp only [stepN, ht, hu]⟩

/-! ### The ports of an idle block (R64, R117) -/

/-- Settles O46: the step takes the write, which at such an index leaves TEXT alone. -/
theorem textWriteOutOfRangeIsIgnored : Obligations.TextWriteOutOfRangeIsIgnored := by
  unfold Obligations.TextWriteOutOfRangeIsIgnored
  intro s i v rest hrel hb hhost hi
  have hfetch : s.fetch = .text i v := by
    rw [State.fetch_of_idle hrel hb, State.fetchHost, hhost]
  have hstep : step s = .next (s.taken.writeText i v) := by simp only [step, hfetch]
  rw [hstep, State.writeText_of_ge (s := s.taken) hb hi, State.taken_of_idle hrel hb, hhost]
  rfl

theorem State.fetchHost_of_no_move {s : State} (h : ∀ m rest, s.hostIn = m :: rest → m = .idle) : s.fetchHost = .idle := by
  unfold State.fetchHost
  cases hh : s.hostIn with
  | nil => rfl
  | cons m rest =>
    obtain rfl := h m rest hh
    rfl

/-- Settles O56: with no move of the host nothing is fetched, and the step performs nothing. -/
theorem idleStepsChangeNothing : Obligations.IdleStepsChangeNothing := by
  unfold Obligations.IdleStepsChangeNothing
  intro s hrel hb hidle
  have hfetch : s.fetch = .idle := by rw [State.fetch_of_idle hrel hb, State.fetchHost_of_no_move hidle]
  have hstep : step s = .next s.taken := by simp only [step, hfetch]
  rw [hstep, State.taken_of_idle hrel hb]

/-! ### A code is its four byte forms (R54, R140) -/

theorem State.runActions_emit_of_ack {s : State} (h : s.draw.answer = .ack) (b : Byte) (as : List Action) :
    State.runActions (.emit b :: as) s = State.runActions as (s.emit b) := by
  simp only [State.runActions, h]

/-- A code is its four bytes emitted one after the other where the first three are acknowledged: a cut at the last write is that write's
own end (R112). -/
theorem State.runActions_sendCode {s : State} (h : s.acks 3) (c : Cfg) (v : Byte) (rs : Bool) :
    State.runActions (sendCode c v rs) s =
      (((s.emit (transportByte c (hiNibble v) rs true)).emit (transportByte c (hiNibble v) rs false)).emit
        (transportByte c (loNibble v) rs true)).emit (transportByte c (loNibble v) rs false) := by
  obtain ⟨hack₀, h⟩ := State.acks_succ.1 h
  obtain ⟨hack₁, h⟩ := State.acks_succ.1 (h (transportByte c (hiNibble v) rs true))
  obtain ⟨hack₂, -⟩ := State.acks_succ.1 (h (transportByte c (hiNibble v) rs false))
  simp only [sendCode, latchNibble, List.cons_append, List.nil_append]
  rw [State.runActions_emit_of_ack hack₀, State.runActions_emit_of_ack hack₁, State.runActions_emit_of_ack hack₂,
    State.runActions_emit]

/-- The four byte forms of a code are its four bytes emitted. -/
theorem execAll_byteForms (s : State) (hi lo : Nibble) :
    execAll [.tbCmdHi hi, .tbCmdLo hi, .tbCmdHi lo, .tbCmdLo lo] s =
      .next ((((s.emit (transportByte s.cfg hi false true)).emit (transportByte s.cfg hi false false)).emit
        (transportByte s.cfg lo false true)).emit (transportByte s.cfg lo false false)) := by
  simp [execAll, exec, execTbCmdHi, execTbCmdLo]

/-- Settles O15: the row's fragment is `SendCode` of its code, whose four bytes are those of the four forms. -/
theorem codesAreTheirByteForms : Obligations.CodesAreTheirByteForms := by
  unfold Obligations.CodesAreTheirByteForms
  intro s i hi lo h hmem
  have hfrag : fragmentOf s.cfg i = some (sendCode s.cfg (hi ++ lo) false) := by
    simp only [List.mem_cons, Prod.mk.injEq, List.not_mem_nil, or_false] at hmem
    rcases hmem with ⟨rfl, rfl, rfl⟩ | ⟨rfl, rfl, rfl⟩ | ⟨rfl, rfl, rfl⟩ | ⟨rfl, rfl, rfl⟩ | ⟨rfl, rfl, rfl⟩ <;> rfl
  rw [exec_of_fragment hfrag, State.runActions_sendCode h, execAll_byteForms, hiNibble_append, loNibble_append]

/-! ### What a write makes the controller do (R71, R72, R73, R78) -/

@[simp] theorem Controller.cell_free (n a : Nat) : (Controller.free n).cell a = Config.freeDdram n a := rfl

/-- In 4-bit mode a latch takes the high half, or executes the byte (R73). -/
theorem Controller.latch_high {k : Controller} (hm : k.mode = .fourBit) (hp : k.phase = .high) (n : Nat) (rs : Bool)
    (d : Nibble) : k.latch n rs d = ({ k with hi := d, phase := .low }, false) := by
  simp [Controller.latch, hm, hp]

theorem Controller.latch_low {k : Controller} (hm : k.mode = .fourBit) (hp : k.phase = .low) (n : Nat) (rs : Bool)
    (d : Nibble) : k.latch n rs d = (Controller.execByte n rs (k.hi ++ d) { k with phase := .high }, true) := by
  simp [Controller.latch, hm, hp]

/-- In 8-bit mode a latch is one whole instruction (R73). -/
theorem Controller.latch_eightBit {k : Controller} (hm : k.mode = .eightBit) (n : Nat) (rs : Bool) (d : Nibble) :
    k.latch n rs d = (k.latch8 n rs d, true) := by
  simp [Controller.latch, hm]

/-- Payload 0x2 of a command selects 4-bit mode with the phase high (R74). -/
theorem Controller.latch8_fourBit (n : Nat) (k : Controller) :
    k.latch8 n false 0x2#4 =
      { k with
        mode := .fourBit, phase := .high
        twoLine := (Config.freeLowLines n).getLsbD 3, font5x8 := !(Config.freeLowLines n).getLsbD 2 } := rfl

/-- Payload 0x3 of a command keeps 8-bit mode (R74). -/
theorem Controller.latch8_reset {k : Controller} (hm : k.mode = .eightBit) (n : Nat) :
    k.latch8 n false 0x3#4 =
      { k with twoLine := (Config.freeLowLines n).getLsbD 3, font5x8 := !(Config.freeLowLines n).getLsbD 2 } := by
  simp [Controller.latch8, Controller.lineAndFont, hm]

/-- Any other payload of a command is a code whose low half is free (R73, R75). -/
theorem Controller.latch8_command {d : Nibble} (h3 : d ≠ 0x3#4) (h2 : d ≠ 0x2#4) (n : Nat) (k : Controller) :
    k.latch8 n false d = k.command n (d ++ Config.freeLowLines n) := by
  simp [Controller.latch8, h3, h2]

/-- Settles O49: only the falling edge latches, and a latch that is not too early is the controller's own, by its mode and phase. -/
theorem controllerLatchesWhenEnableFalls : Obligations.ControllerLatchesWhenEnableFalls := by
  unfold Obligations.ControllerLatchesWhenEnableFalls
  intro c n late rs p l hc
  refine ⟨Lcd.write_hi hc n late p rs l, Lcd.write_low n late p rs l, fun hen hprompt => ?_⟩
  obtain ⟨hctl, hexec⟩ := Lcd.latch_of_prompt (l := { l with pins := transportByte c p rs false }) hprompt n rs p
  simp only [Lcd.write_fall hc n late p rs l hen, hctl, hexec, Lcd.latch_pins]
  refine ⟨trivial, fun hm hp => ?_, fun hm hp => ?_, fun hm => ?_⟩
  · rw [Controller.latch_high hm hp]
    exact ⟨rfl, rfl⟩
  · rw [Controller.latch_low hm hp]
    exact ⟨rfl, rfl⟩
  · rw [Controller.latch_eightBit hm]
    refine ⟨rfl, ?_, ?_, ?_, ?_, ?_⟩
    · rintro rfl rfl
      exact Controller.latch8_reset hm n
    · rintro rfl rfl
      exact Controller.latch8_fourBit n l.ctl
    · rintro rfl rfl hlow
      exact Controller.latch8_functionSet hlow l.ctl
    · rintro rfl h3 h2
      exact Controller.latch8_command h3 h2 n l.ctl
    · rintro rfl
      rfl

/-- Settles O55: the environment of a failed write is free values. -/
theorem failedWriteLeavesTheDisplayUnknown : Obligations.FailedWriteLeavesTheDisplayUnknown := by
  unfold Obligations.FailedWriteLeavesTheDisplayUnknown
  intro s b hfail
  have hlcd : (s.emit b).lcd = s.lcd.failedWrite s.draws := by rw [State.emit_lcd, State.busWrite_lcd_of_fail hfail]
  rw [hlcd]
  exact ⟨rfl, rfl, rfl, fun row2 col => Controller.cell_free _ _⟩

/-- With the default masks the enable line is bit 2, clear in the enable-cleared bytes (R83). -/
theorem lineSet_en_of_defaultMasks {c : Cfg} (h : c.DefaultMasks) (p : Nibble) (rs en : Bool) :
    lineSet c.enMask (transportByte c p rs en) = en := by
  unfold lineSet
  rw [controlOf_transportByte, controlNibble_default h]
  obtain ⟨-, -, hen, -⟩ := h
  rw [hen]
  cases rs <;> cases en <;> rfl

/-- An acknowledged write that makes a controller still executing latch leaves it any value (R78). -/
theorem State.emit_lcd_of_late {s : State} {b : Byte} (hack : s.draw.answer = .ack) (hlate : s.draw.late = true)
    (hexec : s.lcd.executing = true) (hpins : lineSet s.cfg.enMask s.lcd.pins = true)
    (hfall : lineSet s.cfg.enMask b = false) :
    (s.emit b).lcd.pins = b ∧ (s.emit b).lcd.ctl = Controller.free s.draws ∧ (s.emit b).lcd.executing = true := by
  have hlatch : (s.emit b).lcd =
      ({ s.lcd with pins := b } : Lcd).latch s.draws true (lineSet s.cfg.rsMask b) (payloadOf b) := by
    rw [State.emit_lcd, State.busWrite_lcd_of_ack hack, hlate, Lcd.write, if_pos ⟨hpins, hfall⟩]
  obtain ⟨hctl, hbusy⟩ := Lcd.latch_of_late (l := { s.lcd with pins := b }) hexec s.draws (lineSet s.cfg.rsMask b) (payloadOf b)
  rw [hlatch]
  exact ⟨Lcd.latch_pins _ _ _ _ _, hctl, hbusy⟩

/-- Settles O57: both forms emit an enable-cleared byte, the falling edge of which comes too early. -/
theorem lateLatchLeavesTheControllerUnknown : Obligations.LateLatchLeavesTheControllerUnknown := by
  unfold Obligations.LateLatchLeavesTheControllerUnknown
  intro s p i b hdef hmem hpins hexec hack hlate
  have hbyte : ∀ rs, transportByte s.cfg p rs false = p ++ if rs then 0x9#4 else 0x8#4 := fun rs => by
    rw [transportByte_eq_append, controlNibble_default hdef]
    rfl
  obtain ⟨rs, hb, hrun⟩ : ∃ rs, b = transportByte s.cfg p rs false ∧ exec i s = .next (s.emit b) := by
    simp only [List.mem_cons, Prod.mk.injEq, List.not_mem_nil, or_false] at hmem
    rcases hmem with ⟨rfl, rfl⟩ | ⟨rfl, rfl⟩
    · exact ⟨false, (hbyte false).symm, hbyte false ▸ rfl⟩
    · exact ⟨true, (hbyte true).symm, hbyte true ▸ rfl⟩
  have hfall : lineSet s.cfg.enMask b = false := hb ▸ lineSet_en_of_defaultMasks hdef p rs false
  obtain ⟨hpin, hctl, hbusy⟩ := State.emit_lcd_of_late hack hlate hexec hpins hfall
  refine ⟨_, hrun, hpin, hctl, hbusy, ?_, fun row2 col => ?_⟩
  · rw [State.emit_events, hack]
  · rw [Lcd.screen, hctl, Controller.cell_free]

/-! ### Acknowledged writes, none too early -/

theorem State.acks_mono {s : State} {m n : Nat} (h : s.acks n) (hmn : m ≤ n) : s.acks m :=
  fun j hj => h j (Nat.lt_of_lt_of_le hj hmn)

theorem State.acks_after {s : State} {as : List Action} {n : Nat} (h : s.acks ((emitted as).length + n)) :
    (State.runActions as s).acks n := fun j hj => by
  rw [(State.ranWhole (State.acks_mono h (Nat.le_add_right _ _))).drawAt]
  exact h _ (by omega)

/-- The parameters are `c`, which R5 allows, and the next `n` bus writes are acknowledged, none too early for the controller. -/
structure State.Clean (c : Cfg) (n : Nat) (s : State) : Prop where
  cfg    : s.cfg = c
  wf     : c.Wf
  acks   : s.acks n
  prompt : s.prompt n

theorem State.Clean.mono {c : Cfg} {m n : Nat} {s : State} (h : s.Clean c n) (hmn : m ≤ n) : s.Clean c m where
  cfg := h.cfg
  wf := h.wf
  acks := State.acks_mono h.acks hmn
  prompt := fun j hj => h.prompt j (Nat.lt_of_lt_of_le hj hmn)

/-- Running a fragment uses up its writes and no others. -/
theorem State.Clean.after {c : Cfg} {n : Nat} {s : State} {as : List Action} (h : s.Clean c ((emitted as).length + n)) :
    (State.runActions as s).Clean c n := by
  have hran := State.ranWhole (State.acks_mono h.acks (Nat.le_add_right _ _))
  refine ⟨hran.cfg.trans h.cfg, h.wf, State.acks_after h.acks, fun j hj => ?_⟩
  rw [hran.drawAt]
  exact h.prompt _ (by omega)

/-! ### A code reaches the controller (R54, R73, R140) -/

/-- An acknowledged pulse pair that does not come too early is one latch of its payload (R72, R130). -/
theorem State.latchNibble_ctl {s : State} (hc : s.cfg.Wf) (h : s.acks 2)
    (hprompt : s.lcd.executing = false ∨ (s.drawAt 1).late = false) (p : Nibble) (rs : Bool) :
    (State.runActions (latchNibble s.cfg p rs) s).lcd.ctl = (s.lcd.ctl.latch (s.draws + 1) rs p).1 ∧
    (State.runActions (latchNibble s.cfg p rs) s).lcd.executing = (s.lcd.ctl.latch (s.draws + 1) rs p).2 := by
  rw [State.runActions_latchNibble_lcd hc h]
  exact Lcd.latch_of_prompt (l := { s.lcd with pins := transportByte s.cfg p rs false }) hprompt _ rs p

theorem State.Clean.latchNibble_ctl {c : Cfg} {s : State} (h : s.Clean c 2) (p : Nibble) (rs : Bool) :
    (State.runActions (latchNibble c p rs) s).lcd.ctl = (s.lcd.ctl.latch (s.draws + 1) rs p).1 ∧
    (State.runActions (latchNibble c p rs) s).lcd.executing = (s.lcd.ctl.latch (s.draws + 1) rs p).2 := by
  obtain ⟨rfl, hc, hacks, hprompt⟩ := h
  exact State.latchNibble_ctl hc hacks (.inr (hprompt 1 (by omega))) p rs

/-- A controller in step takes the two pulse pairs of a code as its high half and its low half, and executes it. -/
theorem State.sendCode_ctl {c : Cfg} {s : State} (h : s.Clean c 4) (hs : s.inStep) (v : Byte) (rs : Bool) :
    (State.runActions (sendCode c v rs) s).lcd.ctl =
      Controller.execByte (s.draws + 3) rs v { s.lcd.ctl with hi := hiNibble v } ∧
    (State.runActions (sendCode c v rs) s).lcd.executing = true := by
  obtain ⟨hmode, hphase⟩ := hs
  have hfirst : s.acks (emitted (latchNibble c (hiNibble v) rs)).length := State.acks_mono h.acks (by simp)
  have hsplit : State.runActions (sendCode c v rs) s =
      State.runActions (latchNibble c (loNibble v) rs) (State.runActions (latchNibble c (hiNibble v) rs) s) :=
    State.runActions_append hfirst _
  obtain ⟨hlow, hexec⟩ := (h.after (as := latchNibble c (hiNibble v) rs)).latchNibble_ctl (loNibble v) rs
  have hdraws : (State.runActions (latchNibble c (hiNibble v) rs) s).draws + 1 = s.draws + 3 := by
    rw [(State.ranWhole hfirst).draws]
    rfl
  have hhigh : (State.runActions (latchNibble c (hiNibble v) rs) s).lcd.ctl =
      { s.lcd.ctl with hi := hiNibble v, phase := .low } := by
    rw [((h.mono (by omega)).latchNibble_ctl (hiNibble v) rs).1, Controller.latch_high hmode hphase]
  generalize State.runActions (latchNibble c (hiNibble v) rs) s = t at *
  rw [Controller.latch_low (k := t.lcd.ctl) (hhigh ▸ hmode) (hhigh ▸ rfl), hhigh, hdraws] at hlow hexec
  rw [hsplit, hlow, hexec, nibbles_append, ← hphase]
  exact ⟨rfl, rfl⟩

/-- Settles O50: a code is a high half and a low half, and the second latch executes them put together. -/
theorem codesReachTheController : Obligations.CodesReachTheController := by
  unfold Obligations.CodesReachTheController
  intro s v rs hc hacks hprompt hs
  obtain ⟨hctl, hexec⟩ := State.sendCode_ctl ⟨rfl, hc, hacks, hprompt⟩ hs v rs
  obtain ⟨-, hphase⟩ := hs
  rw [hctl, ← hphase]
  exact ⟨rfl, hexec⟩

/-! ### The command codes (R75) -/

section
variable {c : Cfg} {s : State} (h : s.Clean c 4) (hs : s.inStep)
include h hs

theorem State.functionSet_ctl : (State.runActions (sendCode c 0x28#8 false) s).lcd.ctl =
    { s.lcd.ctl with hi := 0x2#4, mode := .fourBit, twoLine := true, font5x8 := true } :=
  (State.sendCode_ctl h hs 0x28#8 false).1

theorem State.displayControl_ctl : (State.runActions (sendCode c 0x0C#8 false) s).lcd.ctl =
    { s.lcd.ctl with hi := 0x0#4, displayOn := true, cursorOn := false, blinkOn := false } :=
  (State.sendCode_ctl h hs 0x0C#8 false).1

theorem State.clearDisplay_ctl : (State.runActions (sendCode c 0x01#8 false) s).lcd.ctl =
    { s.lcd.ctl with hi := 0x0#4, ac := 0, fill := .byte 0x20#8, ddram := [] } :=
  (State.sendCode_ctl h hs 0x01#8 false).1

theorem State.entryMode_ctl : (State.runActions (sendCode c 0x06#8 false) s).lcd.ctl =
    { s.lcd.ctl with hi := 0x0#4, increment := true, shift := false } :=
  (State.sendCode_ctl h hs 0x06#8 false).1

theorem State.setDdramRow2_ctl : (State.runActions (sendCode c 0xC0#8 false) s).lcd.ctl =
    { s.lcd.ctl with hi := 0xC#4, ac := 0x40 } :=
  (State.sendCode_ctl h hs 0xC0#8 false).1

end

/-- A code that is no row of R85 leaves the controller any value (U4). -/
theorem Controller.command_other {v : Byte} (h : v ∉ [0x28#8, 0x0C#8, 0x01#8, 0x06#8, 0xC0#8]) (n : Nat) (k : Controller) :
    k.command n v = Controller.free n := by
  simp only [List.mem_cons, List.not_mem_nil, or_false, not_or] at h
  simp [Controller.command, h]

/-- Settles O51: each row runs `SendCode` of its code, which the controller executes. -/
theorem commandCodesHaveTheirEffects : Obligations.CommandCodesHaveTheirEffects := by
  unfold Obligations.CommandCodesHaveTheirEffects
  intro s hc hacks hprompt hs
  have h : s.Clean s.cfg 4 := ⟨rfl, hc, hacks, hprompt⟩
  have hclear := State.clearDisplay_ctl h hs
  refine ⟨⟨_, rfl, State.functionSet_ctl h hs⟩, ⟨_, rfl, State.displayControl_ctl h hs⟩, ⟨_, rfl, hclear, fun a => ?_⟩,
    ⟨_, rfl, State.entryMode_ctl h hs⟩, ⟨_, rfl, State.setDdramRow2_ctl h hs⟩, fun v hv => ?_⟩
  · rw [hclear]
    rfl
  · obtain ⟨hctl, -⟩ := State.sendCode_ctl h hs v false
    rw [hctl]
    exact Controller.command_other hv _ _

/-! ### The recovery (R74, R163, R164) -/

/-- At least `n` recovery latches of R74 in a row, each with its wait: after the third the controller is in 8-bit mode. -/
structure Lcd.Recovered (n : Nat) (l : Lcd) : Prop where
  runs      : n ≤ l.resetRuns
  waited    : l.resetWait = false
  executing : l.executing = false
  eightBit  : 3 ≤ n → l.ctl.mode = .eightBit

/-- A wait other than T_RESET only ends what was executing (log 12). -/
theorem Lcd.wait_of_ne_reset {d : DelayId} (h : d ≠ .reset) (l : Lcd) : l.wait d = { l with executing := false } := by
  simp [Lcd.wait, h]

/-- The next recovery latch goes on with a run that had its waits (R74). -/
theorem Lcd.Recovered.counts {n : Nat} {l : Lcd} (h : l.Recovered n) : n ≤ if l.resetWait then 0 else l.resetRuns := by
  simpa [h.waited] using h.runs

/-- The wait after a recovery latch makes it count (R74). -/
theorem Lcd.wait_recovered {n : Nat} {l : Lcd} (hwait : l.resetWait = true) (hruns : n ≤ l.resetRuns) (hn : n ≤ 2) :
    (l.wait .reset).Recovered (n + 1) := by
  simp only [Lcd.wait, hwait, and_self, if_true]
  split
  · exact ⟨by simp; omega, rfl, rfl, fun _ => rfl⟩
  · exact ⟨by simp; omega, rfl, rfl, fun h => by omega⟩

/-- After a latch that is no recovery latch the wait leaves the controller alone. -/
theorem Lcd.wait_of_no_resetWait {l : Lcd} (h : l.resetWait = false) (d : DelayId) :
    l.wait d = { l with executing := false } := by
  simp [Lcd.wait, h]

/-- What an acknowledged pulse pair leaves of the recovery count, late or not (R74). -/
theorem State.latchNibble_count {s : State} (hc : s.cfg.Wf) (h : s.acks 2) (p : Nibble) (rs : Bool) :
    (State.runActions (latchNibble s.cfg p rs) s).lcd.resetRuns = (s.lcd.countLatch rs p).resetRuns ∧
    (State.runActions (latchNibble s.cfg p rs) s).lcd.resetWait = (s.lcd.countLatch rs p).resetWait := by
  rw [State.runActions_latchNibble_lcd hc h, (Lcd.latch_count _ _ _ _ _).1, (Lcd.latch_count _ _ _ _ _).2]
  unfold Lcd.countLatch
  split <;> exact ⟨rfl, rfl⟩

@[simp] theorem length_emitted_resetNibbleScript (c : Cfg) : (emitted (resetNibbleScript c)).length = 2 := rfl

/-- A reset nibble and its wait, whatever the controller makes of the latch: one recovery latch more (R163). -/
theorem State.resetNibble_recovered {c : Cfg} {s : State} {m n : Nat} (hcfg : s.cfg = c) (hc : c.Wf) (h : s.acks (2 + m))
    (hruns : n ≤ if s.lcd.resetWait then 0 else s.lcd.resetRuns) (hn : n ≤ 2) :
    (State.runActions (resetNibbleScript c) s).cfg = c ∧ (State.runActions (resetNibbleScript c) s).acks m ∧
    (State.runActions (resetNibbleScript c) s).lcd.Recovered (n + 1) := by
  have hacks : s.acks 2 := State.acks_mono h (by omega)
  refine ⟨(State.ranWhole hacks).cfg.trans hcfg, State.acks_after h, ?_⟩
  subst hcfg
  obtain ⟨hcount, hwait⟩ := State.latchNibble_count hc hacks 0x3#4 false
  unfold resetNibbleScript
  rw [State.runActions_append hacks]
  exact Lcd.wait_recovered hwait (hcount ▸ hruns) hn

/-- The 4-bit-switch nibble and its wait after the recovery: 4-bit mode with the phase high (R74, R164). -/
theorem State.fourbitNibble_inStep {c : Cfg} {s : State} (hcfg : s.cfg = c) (hc : c.Wf) (h : s.acks 2)
    (hr : s.lcd.Recovered 3) :
    (State.runActions (fourbitNibbleScript c) s).inStep ∧
    (State.runActions (fourbitNibbleScript c) s).lcd.executing = false := by
  subst hcfg
  obtain ⟨-, hwait⟩ := State.latchNibble_count hc h 0x2#4 false
  obtain ⟨hctl, -⟩ := State.latchNibble_ctl hc h (.inl hr.executing) 0x2#4 false
  rw [Controller.latch_eightBit (hr.eightBit (Nat.le_refl 3)), Controller.latch8_fourBit] at hctl
  have hlcd : (State.runActions (fourbitNibbleScript s.cfg) s).lcd =
      { (State.runActions (latchNibble s.cfg 0x2#4 false) s).lcd with executing := false } := by
    unfold fourbitNibbleScript
    rw [State.runActions_append h]
    exact Lcd.wait_of_no_resetWait hwait .reset
  unfold State.inStep
  rw [hlcd, hctl]
  exact ⟨⟨rfl, rfl⟩, rfl⟩

/-- The recovery of R74: three reset nibbles, then the 4-bit-switch nibble. -/
def recoveryScript (c : Cfg) : List Action :=
  resetNibbleScript c ++ (resetNibbleScript c ++ (resetNibbleScript c ++ fourbitNibbleScript c))

@[simp] theorem length_emitted_recoveryScript (c : Cfg) : (emitted (recoveryScript c)).length = 8 := rfl

/-- The first recovery latch counts whatever came before, and the two after it go on with its run (R74). -/
theorem State.recovery_inStep {c : Cfg} {s : State} (hcfg : s.cfg = c) (hc : c.Wf) (h : s.acks 8) :
    (State.runActions (recoveryScript c) s).inStep ∧ (State.runActions (recoveryScript c) s).lcd.executing = false := by
  obtain ⟨hcfg₁, h₁, r₁⟩ := State.resetNibble_recovered (m := 6) hcfg hc h (Nat.zero_le _) (by omega)
  obtain ⟨hcfg₂, h₂, r₂⟩ := State.resetNibble_recovered (m := 4) hcfg₁ hc h₁ r₁.counts (by omega)
  obtain ⟨hcfg₃, h₃, r₃⟩ := State.resetNibble_recovered (m := 2) hcfg₂ hc h₂ r₂.counts (by omega)
  unfold recoveryScript
  rw [State.runActions_append (State.acks_mono h (by simp)), State.runActions_append (State.acks_mono h₁ (by simp)),
    State.runActions_append (State.acks_mono h₂ (by simp))]
  exact State.fourbitNibble_inStep hcfg₃ hc h₃ r₃

/-- Emitted forms performed one after the other run their fragments one after the other. -/
theorem execAll_cons_of_fragment {i : Instr} {s : State} {as : List Action} (h : fragmentOf s.cfg i = some as)
    (is : List Instr) : execAll (i :: is) s = execAll is (State.runActions as s) := by
  simp only [execAll, exec_of_fragment h]

theorem State.runActions_cfg (as : List Action) (s : State) : (State.runActions as s).cfg = s.cfg := by
  obtain ⟨hcfg, -⟩ := State.runActions_sameButCut as s
  exact hcfg

/-- The four forms of the recovery run its script. -/
theorem execAll_recovery {s : State} (h : s.acks 6) :
    execAll [.resetNibble, .resetNibble, .resetNibble, .fourbitNibble] s =
      .next (State.runActions (recoveryScript s.cfg) s) := by
  have h₁ : (State.runActions (resetNibbleScript s.cfg) s).acks 4 := State.acks_after h
  have h₂ : (State.runActions (resetNibbleScript s.cfg) (State.runActions (resetNibbleScript s.cfg) s)).acks 2 :=
    State.acks_after h₁
  unfold recoveryScript
  rw [State.runActions_append (State.acks_mono h (by simp)), State.runActions_append (State.acks_mono h₁ (by simp)),
    State.runActions_append (State.acks_mono h₂ (by simp))]
  rw [execAll_cons_of_fragment rfl, execAll_cons_of_fragment rfl, execAll_cons_of_fragment rfl,
    execAll_cons_of_fragment rfl]
  simp only [execAll, State.runActions_cfg]

/-- Settles O52: the forms run the recovery's script. -/
theorem recoveryReachesFourBitMode : Obligations.RecoveryReachesFourBitMode := by
  unfold Obligations.RecoveryReachesFourBitMode
  intro s hc h
  obtain ⟨⟨hmode, hphase⟩, hexec⟩ := State.recovery_inStep rfl hc h
  exact ⟨_, execAll_recovery (State.acks_mono h (by omega)), hmode, hphase, hexec⟩

/-! ### INIT (R160, R234) -/

/-- The four codes INIT sends after the recovery (R166 to R169). -/
def configureScript (c : Cfg) : List Action :=
  sendCode c 0x28#8 false ++ (sendCode c 0x0C#8 false ++ (sendCode c 0x01#8 false ++ sendCode c 0x06#8 false))

theorem initScript_eq (c : Cfg) :
    initScript c = .delay .powerOn :: (recoveryScript c ++ (configureScript c ++ [.delay .final])) := rfl

theorem State.configure_ctl {c : Cfg} {s : State} (h : s.Clean c 16) (hs : s.inStep) :
    (State.runActions (configureScript c) s).lcd.ctl =
      { s.lcd.ctl with
        mode := .fourBit, hi := 0#4, ac := 0, fill := .byte 0x20#8, ddram := [], twoLine := true, font5x8 := true
        displayOn := true, cursorOn := false, blinkOn := false, increment := true, shift := false } := by
  have h₁ := h.after (as := sendCode c 0x28#8 false) (n := 12)
  have h₂ := h₁.after (as := sendCode c 0x0C#8 false) (n := 8)
  have h₃ := h₂.after (as := sendCode c 0x01#8 false) (n := 4)
  have k₁ := State.functionSet_ctl (h.mono (by omega)) hs
  obtain ⟨-, hphase⟩ := hs
  unfold configureScript
  rw [State.runActions_append (State.acks_mono h.acks (by simp)), State.runActions_append (State.acks_mono h₁.acks (by simp)),
    State.runActions_append (State.acks_mono h₂.acks (by simp))]
  generalize State.runActions (sendCode c 0x28#8 false) s = s₁ at *
  have k₂ := State.displayControl_ctl (h₁.mono (by omega)) (by simp [State.inStep, k₁, hphase])
  generalize State.runActions (sendCode c 0x0C#8 false) s₁ = s₂ at *
  have k₃ := State.clearDisplay_ctl (h₂.mono (by omega)) (by simp [State.inStep, k₁, k₂, hphase])
  generalize State.runActions (sendCode c 0x01#8 false) s₂ = s₃ at *
  rw [State.entryMode_ctl h₃ (by simp [State.inStep, k₁, k₂, k₃, hphase]), k₃, k₂, k₁]

/-- Settles O53: the recovery brings the controller in step, the four codes set it, and the waits around them leave its registers. -/
theorem initPreparesTheDisplay : Obligations.InitPreparesTheDisplay := by
  unfold Obligations.InitPreparesTheDisplay
  intro s hc hacks hprompt
  have h₀ : (s.delay .powerOn).Clean s.cfg 24 := ⟨rfl, hc, hacks, hprompt⟩
  have h₁ := h₀.after (as := recoveryScript s.cfg) (n := 16)
  obtain ⟨hs, -⟩ := State.recovery_inStep h₀.cfg hc (State.acks_mono h₀.acks (by omega))
  have hrun : State.runActions (initScript s.cfg) s =
      (State.runActions (configureScript s.cfg) (State.runActions (recoveryScript s.cfg) (s.delay .powerOn))).delay .final := by
    rw [initScript_eq]
    show State.runActions (recoveryScript s.cfg ++ _) (s.delay .powerOn) = _
    rw [State.runActions_append (State.acks_mono h₀.acks (by simp)), State.runActions_append h₁.acks]
    rfl
  have hctl : (State.runActions (initScript s.cfg) s).lcd.ctl =
      (State.runActions (configureScript s.cfg) (State.runActions (recoveryScript s.cfg) (s.delay .powerOn))).lcd.ctl := by
    rw [hrun, State.delay_lcd, Lcd.wait_of_ne_reset (by decide)]
  unfold Lcd.screen
  rw [hctl, State.configure_ctl h₁ hs]
  obtain ⟨-, hphase⟩ := hs
  exact ⟨rfl, hphase, rfl, rfl, rfl, rfl, rfl, rfl, rfl, rfl, fun row2 col => rfl⟩

/-! ### Characters (R76, R77) -/

/-- A character write touches AC and DDRAM only. -/
theorem Controller.character_frame (n : Nat) (v : Byte) (k : Controller) :
    k.character n v =
      { k with ac := (k.character n v).ac, fill := (k.character n v).fill, ddram := (k.character n v).ddram } := by
  simp only [Controller.character, Controller.advance, Controller.store]
  split <;> split <;> rfl

/-- Settles O58: the code reaches the controller, whose character write stores it and moves AC. -/
theorem characterWritesStoreAndAdvance : Obligations.CharacterWritesStoreAndAdvance := by
  unfold Obligations.CharacterWritesStoreAndAdvance
  intro s v hc hlcd hacks hprompt hs k t
  obtain ⟨hctl, -⟩ := State.sendCode_ctl ⟨rfl, hc, hacks, hprompt⟩ hs v true
  have ht : t = Controller.character (s.draws + 3) v { k with hi := hiNibble v } := hctl
  have hcell : ∀ a, t.cell a = if a = k.ac then v else if k.ac < 0x50 then k.cell a else Config.freeDdram (s.draws + 3) a :=
    fun a => ht ▸ Controller.cell_character (k := { k with hi := hiNibble v }) hlcd _ v a
  have hac : t.ac = if k.increment = true ∧ k.shift = false then k.ac + 1 else Config.freeAc (s.draws + 3) :=
    ht ▸ Controller.ac_character { k with hi := hiNibble v } _ v
  refine ⟨?_, fun hi hsh => ?_, fun hother => ?_, fun hlt a ha => ?_, fun hge a ha => ?_, ?_⟩
  · rw [hcell, if_pos rfl]
  · rw [hac, if_pos ⟨hi, hsh⟩]
  · rw [hac, if_neg]
    rintro ⟨hi, hsh⟩
    rcases hother with h | h
    · simp [hi] at h
    · simp [hsh] at h
  · rw [hcell, if_neg ha, if_pos hlt]
  · rw [hcell, if_neg ha, if_neg (Nat.not_lt.2 hge)]
  · rw [ht]
    exact Controller.character_frame _ v { k with hi := hiNibble v }

/-! ### Lines of characters (R183, R186) -/

/-- A controller that takes characters column after column: in step with the block, entry mode 0x06, DDRAM in canonical form. -/
structure Controller.Typing (k : Controller) : Prop where
  mode      : k.mode = .fourBit
  phase     : k.phase = .high
  increment : k.increment = true
  shift     : k.shift = false
  ddram     : k.DdramOk

theorem Controller.Typing.withHi {k : Controller} (h : k.Typing) (p : Nibble) : ({ k with hi := p } : Controller).Typing :=
  ⟨h.mode, h.phase, h.increment, h.shift, h.ddram⟩

theorem Controller.Typing.character {k : Controller} (h : k.Typing) (n : Nat) (v : Byte) : (k.character n v).Typing := by
  have hddram := Controller.character_ddramOk h.ddram n v
  rw [Controller.character_frame] at hddram ⊢
  exact ⟨h.mode, h.phase, h.increment, h.shift, hddram⟩

/-- The line `vs` typed from `k` to `k'`: AC stands after it, and where it ends before address 0x50 it stands in DDRAM and the rest of
DDRAM is as before (R76, R86). -/
structure Controller.Typed (vs : List Byte) (k k' : Controller) : Prop where
  typing  : k'.Typing
  ac      : k'.ac = k.ac + vs.length
  written : k.ac + vs.length ≤ 0x50 → ∀ j v, vs[j]? = some v → k'.cell (k.ac + j) = classify v
  kept    : k.ac + vs.length ≤ 0x50 → ∀ a, a < k.ac ∨ k.ac + vs.length ≤ a → k'.cell a = k.cell a

theorem Controller.Typed.nil {k : Controller} (h : k.Typing) : Controller.Typed [] k k :=
  ⟨h, rfl, fun _ _ _ hj => by simp at hj, fun _ _ _ => rfl⟩

/-- A line after a line: the second leaves what the first wrote. -/
theorem Controller.Typed.append {us vs : List Byte} {k k₁ k₂ : Controller} (h₁ : Controller.Typed us k k₁)
    (h₂ : Controller.Typed vs k₁ k₂) : Controller.Typed (us ++ vs) k k₂ := by
  have hac := h₁.ac
  refine ⟨h₂.typing, ?_, fun hle j v hj => ?_, fun hle a ha => ?_⟩
  · rw [h₂.ac, hac, List.length_append, Nat.add_assoc]
  · rw [List.length_append] at hle
    by_cases hlt : j < us.length
    · rw [List.getElem?_append_left hlt] at hj
      rw [h₂.kept (by omega) _ (.inl (by omega)), h₁.written (by omega) j v hj]
    · rw [List.getElem?_append_right (by omega)] at hj
      have hcell := h₂.written (by omega) (j - us.length) v hj
      rwa [hac, show k.ac + us.length + (j - us.length) = k.ac + j by omega] at hcell
  · rw [List.length_append] at hle ha
    rw [h₂.kept (by omega) a (by omega), h₁.kept (by omega) a (by omega)]

theorem length_emitted_line (c : Cfg) (vs : List Byte) : (emitted (vs.flatMap (sendChar c))).length = 4 * vs.length := by
  induction vs with
  | nil => rfl
  | cons v vs ih =>
    rw [List.flatMap_cons, emitted_append, List.length_append, ih, List.length_cons]
    show 4 + _ = _
    omega

section
variable {c : Cfg} {s : State}

/-- A character of a line: the code, classified, executed as a character write (R142). -/
theorem State.sendChar_ctl (h : s.Clean c 4) (ht : s.lcd.ctl.Typing) (v : Byte) :
    (State.runActions (sendChar c v) s).lcd.ctl =
      Controller.character (s.draws + 3) (classify v) { s.lcd.ctl with hi := hiNibble (classify v) } := by
  obtain ⟨hctl, -⟩ := State.sendCode_ctl h ⟨ht.mode, ht.phase⟩ (classify v) true
  exact hctl

theorem State.sendChar_cell (h : s.Clean c 4) (ht : s.lcd.ctl.Typing) (v : Byte) (a : Nat) :
    (State.runActions (sendChar c v) s).lcd.ctl.cell a =
      if a = s.lcd.ctl.ac then classify v
      else if s.lcd.ctl.ac < 0x50 then s.lcd.ctl.cell a else Config.freeDdram (s.draws + 3) a := by
  rw [State.sendChar_ctl h ht]
  exact Controller.cell_character (ht.withHi (hiNibble (classify v))).ddram _ _ a

theorem State.sendChar_typed (h : s.Clean c 4) (ht : s.lcd.ctl.Typing) (v : Byte) :
    Controller.Typed [v] s.lcd.ctl (State.runActions (sendChar c v) s).lcd.ctl := by
  have hctl := State.sendChar_ctl h ht v
  refine ⟨?_, ?_, fun hle j u hj => ?_, fun hle a ha => ?_⟩
  · exact hctl ▸ (ht.withHi _).character _ _
  · rw [hctl, Controller.ac_character]
    exact if_pos ⟨ht.increment, ht.shift⟩
  · cases j with
    | zero =>
      obtain rfl : v = u := by simpa using hj
      rw [State.sendChar_cell h ht, if_pos (Nat.add_zero _)]
    | succ j => simp at hj
  · simp only [List.length_cons, List.length_nil] at hle ha
    rw [State.sendChar_cell h ht, if_neg (by omega), if_pos (by omega)]

end

/-- A line is typed one character after the other. -/
theorem State.line_typed {c : Cfg} {vs : List Byte} {s : State} (h : s.Clean c (4 * vs.length)) (ht : s.lcd.ctl.Typing) :
    Controller.Typed vs s.lcd.ctl (State.runActions (vs.flatMap (sendChar c)) s).lcd.ctl := by
  induction vs generalizing s with
  | nil => exact .nil ht
  | cons v vs ih =>
    have h' : s.Clean c (4 + 4 * vs.length) := h.mono (by rw [List.length_cons]; omega)
    have hfirst := State.sendChar_typed (h'.mono (by omega)) ht v
    rw [List.flatMap_cons, State.runActions_append (State.acks_mono h'.acks (Nat.le_add_right 4 _))]
    exact hfirst.append (ih (h'.after (as := sendChar c v)) hfirst.typing)

/-- A line that runs past column 16 of row two leaves the screen the free values its last character draws (R77, U3). -/
theorem State.line_past_screen {c : Cfg} {vs : List Byte} {s : State} (h : s.Clean c (4 * vs.length))
    (ht : s.lcd.ctl.Typing) (hne : vs ≠ []) (hpast : 0x50 < s.lcd.ctl.ac + vs.length) :
    ∃ n, s.draws ≤ n ∧
      ∀ a < 0x50, (State.runActions (vs.flatMap (sendChar c)) s).lcd.ctl.cell a = Config.freeDdram n a := by
  obtain ⟨us, v, rfl⟩ : ∃ us v, vs = us ++ [v] := ⟨_, _, (List.dropLast_append_getLast hne).symm⟩
  rw [List.length_append, List.length_singleton] at h hpast
  have hlen := length_emitted_line c us
  have hus : s.acks (emitted (us.flatMap (sendChar c))).length := State.acks_mono h.acks (by omega)
  have hlast := State.Clean.after (as := us.flatMap (sendChar c)) (n := 4) (h.mono (by omega))
  have htyped := State.line_typed (h.mono (by omega)) ht (vs := us)
  have hdraws := (State.ranWhole hus).draws
  rw [List.flatMap_append, List.flatMap_singleton, State.runActions_append hus]
  generalize State.runActions (us.flatMap (sendChar c)) s = t at *
  have hac := htyped.ac
  refine ⟨t.draws + 3, by omega, fun a ha => ?_⟩
  rw [State.sendChar_cell hlast htyped.typing, if_neg (by omega), if_neg (by omega)]

/-! ### Clear, then a line (R183, R184, R186) -/

/-- After a clear the controller types from address 0 over blanks (R75). -/
theorem State.clear_typing {c : Cfg} {s : State} (h : s.Clean c 4) (hs : s.inStep) (hi : s.lcd.ctl.increment = true)
    (hsh : s.lcd.ctl.shift = false) :
    (State.runActions (sendCode c 0x01#8 false) s).lcd.ctl.Typing ∧
    (State.runActions (sendCode c 0x01#8 false) s).lcd.ctl.ac = 0 ∧
    ∀ a, (State.runActions (sendCode c 0x01#8 false) s).lcd.ctl.cell a = 0x20#8 := by
  rw [State.clearDisplay_ctl h hs]
  obtain ⟨hmode, hphase⟩ := hs
  exact ⟨⟨hmode, hphase, hi, hsh, Memory.wf_nil _⟩, rfl, fun a => rfl⟩

/-- Settles O54: the line is typed from address 0 over blanks, and ends before row two. -/
theorem clearThenTextStartsAtColumnOne : Obligations.ClearThenTextStartsAtColumnOne := by
  unfold Obligations.ClearThenTextStartsAtColumnOne
  intro s vs hc hlen hacks hprompt hs hi hsh
  have h : s.Clean s.cfg (4 + 4 * vs.length) := ⟨rfl, hc, hacks, hprompt⟩
  obtain ⟨htyping, hac, hblank⟩ := State.clear_typing (h.mono (by omega)) hs hi hsh
  have htyped := State.line_typed (h.after (as := sendCode s.cfg 0x01#8 false)) htyping
  rw [renderLoop_of_le s.cfg (by omega), State.runActions_append (State.acks_mono hacks (by simp))]
  obtain ⟨-, hend, hwritten, hkept⟩ := htyped
  rw [hac] at hend hwritten hkept
  simp only [Nat.zero_add] at hend hwritten hkept
  have hrest : ∀ a, vs.length ≤ a → _ = 0x20#8 := fun a ha => (hkept (by omega) a (.inr ha)).trans (hblank a)
  refine ⟨hend, fun j v hj => ?_, fun j hj _ => ?_, fun j _ => hrest _ ?_⟩
  · simpa [Lcd.screen, screenAddr] using hwritten (by omega) j v hj
  · simpa [Lcd.screen, screenAddr] using hrest j hj
  · show vs.length ≤ 0x40 + j
    omega

/-- The controller at the start of row two, with the line `us` on row one and every other byte blank. -/
structure Controller.AtRowTwo (us : List Byte) (k : Controller) : Prop where
  typing : k.Typing
  ac     : k.ac = 0x40
  rowOne : ∀ j v, us[j]? = some v → k.cell j = classify v
  blank  : ∀ a, us.length ≤ a → k.cell a = 0x20#8

/-- Clear, a line, and the row-two command (R183). -/
def rowOneScript (c : Cfg) (us : List Byte) : List Action :=
  sendCode c 0x01#8 false ++ (us.flatMap (sendChar c) ++ sendCode c 0xC0#8 false)

theorem length_emitted_rowOneScript (c : Cfg) (us : List Byte) :
    (emitted (rowOneScript c us)).length = 8 + 4 * us.length := by
  simp [rowOneScript, length_emitted_line]
  omega

/-- A line of 16 characters fills row one. -/
theorem State.rowOne_atRowTwo {c : Cfg} {s : State} {us : List Byte} (hus : us.length = 16) (h : s.Clean c 72)
    (hs : s.inStep) (hi : s.lcd.ctl.increment = true) (hsh : s.lcd.ctl.shift = false) :
    (State.runActions (rowOneScript c us) s).lcd.ctl.AtRowTwo us := by
  have hlen : (emitted (us.flatMap (sendChar c))).length = 64 := by rw [length_emitted_line, hus]
  have h₁ := h.after (as := sendCode c 0x01#8 false) (n := 68)
  have h₂ := State.Clean.after (as := us.flatMap (sendChar c)) (n := 4) (h₁.mono (by omega))
  obtain ⟨htyping, hac, hblank⟩ := State.clear_typing (h.mono (by omega)) hs hi hsh
  obtain ⟨⟨hmode, hphase, hinc, hshift, hddram⟩, -, hwritten, hkept⟩ :=
    State.line_typed (vs := us) (h₁.mono (by omega)) htyping
  simp only [hac, hus, Nat.zero_add] at hwritten hkept
  unfold rowOneScript
  rw [State.runActions_append (State.acks_mono h.acks (by simp)),
    State.runActions_append (State.acks_mono h₁.acks (by omega)), State.setDdramRow2_ctl h₂ ⟨hmode, hphase⟩]
  refine ⟨⟨hmode, hphase, hinc, hshift, hddram⟩, rfl, hwritten (by omega), fun a ha => ?_⟩
  exact (hkept (by omega) a (.inr (hus ▸ ha))).trans (hblank a)

/-- What a rest of at most 16 characters typed on row two shows. -/
theorem Controller.AtRowTwo.screen_of_typed {us rest : List Byte} {k : Controller} {l : Lcd} (h : k.AtRowTwo us)
    (hus : us.length = 16) (ht : Controller.Typed rest k l.ctl) (hfits : rest.length ≤ 16) :
    (∀ j v, us[j]? = some v → l.screen false j = classify v) ∧
    (∀ j v, rest[j]? = some v → l.screen true j = classify v) ∧
    ∀ j, rest.length ≤ j → l.screen true j = 0x20#8 := by
  obtain ⟨-, -, hwritten, hkept⟩ := ht
  rw [h.ac] at hwritten hkept
  unfold Lcd.screen screenAddr
  simp only [Bool.false_eq_true, if_true, if_false, Nat.zero_add]
  refine ⟨fun j v hv => ?_, hwritten (by omega), fun j hj => ?_⟩
  · have hlt := (List.getElem?_eq_some_iff.1 hv).1
    rw [hkept (by omega) j (.inl (by omega)), h.rowOne j v hv]
  · rw [hkept (by omega) _ (.inr (by omega)), h.blank _ (by omega)]

/-- Where column 16 cuts a line of 17 bytes or more (R183). -/
theorem exists_split_at_rowTwo {vs : List Byte} (h : 17 ≤ vs.length) :
    ∃ us w ws, vs = us ++ w :: ws ∧ us.length = 16 :=
  ⟨vs.take 16, vs[16], vs.drop 17, by simp, by simp; omega⟩

/-- The rest of a line, without the space it would begin with (R184). -/
theorem rest_of_split {us : List Byte} (hus : us.length = 16) (w : Byte) (ws : List Byte) :
    (if (us ++ w :: ws)[16]? = some 0x20#8 then (us ++ w :: ws).drop 17 else (us ++ w :: ws).drop 16) =
      if w = 0x20#8 then ws else w :: ws := by
  have hget : (us ++ w :: ws)[16]? = some w := by simp [hus]
  have hdrop : (us ++ w :: ws).drop 16 = w :: ws := List.drop_left' hus
  have hdrop' : (us ++ w :: ws).drop 17 = ws := by
    rw [← List.drop_drop (i := 1) (j := 16), hdrop]
    rfl
  rw [hget, hdrop, hdrop']
  simp

/-- RENDER of a line of 17 bytes or more after a clear, cut at row two (R183, R184). -/
theorem renderLoop_rowOneScript (c : Cfg) {us : List Byte} (hus : us.length = 16) (w : Byte) (ws : List Byte) :
    sendCode c 0x01#8 false ++ (renderLoop c 0 (us ++ w :: ws)).1 =
      rowOneScript c us ++ (if w = 0x20#8 then ws else w :: ws).flatMap (sendChar c) := by
  rw [renderLoop_append_cons c us ws w (by omega)]
  simp [rowOneScript]

/-- Settles O59: the first 16 bytes fill row one, the rest is typed on row two, and past the screen its last character leaves the screen
free. -/
theorem longLinesContinueOnRowTwo : Obligations.LongLinesContinueOnRowTwo := by
  unfold Obligations.LongLinesContinueOnRowTwo
  intro s vs hc hlen
  obtain ⟨us, w, ws, rfl, hus⟩ := exists_split_at_rowTwo hlen
  rw [renderLoop_rowOneScript s.cfg hus, rest_of_split hus]
  generalize (if w = 0x20#8 then ws else w :: ws) = rest
  dsimp only
  have hlen₁ := length_emitted_rowOneScript s.cfg us
  rw [emitted_append, List.length_append, length_emitted_line]
  intro hacks hprompt hs hi hsh
  have h : s.Clean s.cfg _ := ⟨rfl, hc, hacks, hprompt⟩
  have hacks₁ := State.acks_mono hacks (Nat.le_add_right _ _)
  have hrow := State.rowOne_atRowTwo hus (h.mono (by omega)) hs hi hsh
  have hrest := h.after
  have hdraws := (State.ranWhole hacks₁).draws
  rw [State.runActions_append hacks₁]
  generalize State.runActions (rowOneScript s.cfg us) s = u at *
  have htyped := State.line_typed hrest hrow.typing
  refine ⟨by rw [htyped.ac, hrow.ac], fun hfits => ?_, fun hpast => ?_⟩
  · obtain ⟨hone, htwo, hblank⟩ := hrow.screen_of_typed hus htyped hfits
    refine ⟨fun j v hj hv => hone j v ?_, htwo, fun j hj _ => hblank j hj⟩
    rwa [List.getElem?_append_left (by omega)] at hv
  · obtain ⟨n, hn, hfree⟩ := State.line_past_screen hrest hrow.typing (List.ne_nil_of_length_pos (by omega))
      (by rw [hrow.ac]; omega)
    refine ⟨n, by omega, fun row2 j hj => hfree _ ?_⟩
    unfold screenAddr
    split <;> omega

end Sys2Proof.Machine
end

section
/-! PROOFS. The family of 30_encoding: the decoder and the encoder undo each other in every format, the opcode map, the operand forms,
and what the transport-byte forms, the SEND requests, a RENDER too long and a step that fetches an instruction do. -/

namespace Sys2Proof

/-! ### Request words, opcode by opcode (R91, R92, R95) -/

theorem opcode_cases (op : Nibble) :
    op = 0x1#4 ∨ op = 0x2#4 ∨ op = 0x3#4 ∨ op = 0x4#4 ∨ op = 0x5#4 ∨ (op = 0x0#4 ∨ 6 ≤ op.toNat) := by
  revert op
  decide

theorem toNat_append_nibble (hi lo : Nibble) : (hi ++ lo).toNat = 16 * hi.toNat + lo.toNat := by
  rw [BitVec.toNat_append, ← Nat.shiftLeft_add_eq_or_of_lt lo.isLt, Nat.shiftLeft_eq, Nat.mul_comm]

theorem exists_reqWord (w : ReqWord) : ∃ op hi lo : Nibble, w = reqWord op (hi ++ lo) :=
  ⟨w.extractLsb' 8 4, payloadOf (w.extractLsb' 0 8), controlOf (w.extractLsb' 0 8), by
    rw [byte_eq_payload_control, reqWord_fields]⟩

section
variable (c : Cfg) (hi lo : Nibble) (arg : Byte)

theorem decodeReq_latchCmd : decodeReq c (reqWord 0x1#4 (hi ++ lo)) =
    if hi = 0#4 then .ok (.latchCmd lo) else .error .latchArgument := by
  simp [decodeReq]

theorem decodeReq_latchData : decodeReq c (reqWord 0x2#4 (hi ++ lo)) =
    if hi = 0#4 then .ok (.latchData lo) else .error .latchArgument := by
  simp [decodeReq]

theorem decodeReq_sendCmd : decodeReq c (reqWord 0x3#4 arg) = .ok (.sendCmd arg) := by
  simp [decodeReq]

theorem decodeReq_sendData : decodeReq c (reqWord 0x4#4 arg) = .ok (.sendData arg) := by
  simp [decodeReq]

theorem decodeReq_render : decodeReq c (reqWord 0x5#4 arg) =
    if arg.toNat ≤ c.textMax then .ok (.render arg) else .error .renderTooLong := by
  simp [decodeReq]

theorem decodeReq_reserved {op : Nibble} (h : op = 0x0#4 ∨ 6 ≤ op.toNat) :
    decodeReq c (reqWord op arg) = .error .reservedOpcode := by
  have hne : op ≠ 0x1#4 ∧ op ≠ 0x2#4 ∧ op ≠ 0x3#4 ∧ op ≠ 0x4#4 ∧ op ≠ 0x5#4 := by
    revert op
    decide
  simp [decodeReq, hne]

end

/-- Exactly R95's illegal words are rejected. -/
theorem decodeReq_error_iff (c : Cfg) (op hi lo : Nibble) :
    (∃ r, decodeReq c (reqWord op (hi ++ lo)) = .error r) ↔
      op = 0x0#4 ∨ 6 ≤ op.toNat ∨ ((op = 0x1#4 ∨ op = 0x2#4) ∧ hi ≠ 0#4) ∨
        (op = 0x5#4 ∧ c.textMax < 16 * hi.toNat + lo.toNat) := by
  rcases opcode_cases op with rfl | rfl | rfl | rfl | rfl | hop
  · rw [decodeReq_latchCmd]
    split <;> simp [*]
  · rw [decodeReq_latchData]
    split <;> simp [*]
  · simp [decodeReq_sendCmd]
  · simp [decodeReq_sendData]
  · rw [decodeReq_render, toNat_append_nibble]
    split <;> simp <;> omega
  · rw [decodeReq_reserved c _ hop]
    rcases hop with h | h <;> simp [h]

/-! ### Words and what they decode to -/

theorem encode_tbForm (c : Cfg) (p : Nibble) (rs en : Bool) : encode c (tbForm p rs en) = .tb (transportByte c p rs en) := by
  cases rs <;> cases en <;> rfl

theorem tbForm_wf (c : Cfg) (p : Nibble) (rs en : Bool) : (tbForm p rs en).wf c = true := by
  cases rs <;> cases en <;> rfl

theorem encode_of_decodeReq {c : Cfg} {w : ReqWord} {i : Instr} (h : decodeReq c w = .ok i) :
    encode c i = .req w ∧ i.wf c = true := by
  obtain ⟨op, hi, lo, rfl⟩ := exists_reqWord w
  rcases opcode_cases op with rfl | rfl | rfl | rfl | rfl | hop
  · rw [decodeReq_latchCmd] at h
    split at h <;> cases h
    subst hi
    exact ⟨rfl, rfl⟩
  · rw [decodeReq_latchData] at h
    split at h <;> cases h
    subst hi
    exact ⟨rfl, rfl⟩
  · rw [decodeReq_sendCmd] at h
    cases h
    exact ⟨rfl, rfl⟩
  · rw [decodeReq_sendData] at h
    cases h
    exact ⟨rfl, rfl⟩
  · rw [decodeReq_render] at h
    split at h <;> cases h
    exact ⟨rfl, by simpa [Instr.wf]⟩
  · rw [decodeReq_reserved c _ hop] at h
    cases h

theorem encode_of_decodeTb {c : Cfg} {b : Byte} {i : Instr} (h : decodeTb c b = .ok i) :
    encode c i = .tb b ∧ i.wf c = true := by
  obtain ⟨p, rs, en, rfl, rfl⟩ := decodeTb_ok h
  exact ⟨encode_tbForm c p rs en, tbForm_wf c p rs en⟩

theorem encode_of_decodeCmd8 {v : Byte} {i : Instr} (h : decodeCmd8 v = .ok i) (c : Cfg) :
    encode c i = .cmd8 v ∧ i.wf c = true := by
  unfold decodeCmd8 at h
  (repeat' split at h) <;> cases h <;> subst v <;> exact ⟨rfl, rfl⟩

theorem encode_of_decodeNib4 {p : Nibble} {i : Instr} (h : decodeNib4 p = .ok i) (c : Cfg) :
    encode c i = .nib4 p ∧ i.wf c = true := by
  rcases Machine.decodeNib4_ok (by rw [h]; rfl) with ⟨rfl, rfl⟩ | ⟨rfl, rfl⟩ <;> exact ⟨rfl, rfl⟩

/-- Settles O1: each format's decoder at the word its encoder writes. The masks' constraints keep the four transport-byte forms
apart. -/
theorem encodeThenDecode : Obligations.EncodeThenDecode := by
  unfold Obligations.EncodeThenDecode
  intro c i hc hi
  cases i with
  | latchCmd p => exact decodeReq_latchCmd c 0#4 p
  | latchData p => exact decodeReq_latchData c 0#4 p
  | sendCmd v => exact decodeReq_sendCmd c v
  | sendData v => exact decodeReq_sendData c v
  | render n =>
    have hn : n.toNat ≤ c.textMax := by simpa [Instr.wf] using hi
    exact (decodeReq_render c n).trans (if_pos hn)
  | tbCmdHi p => exact decodeTb_transportByte hc p false true
  | tbCmdLo p => exact decodeTb_transportByte hc p false false
  | tbDataHi p => exact decodeTb_transportByte hc p true true
  | tbDataLo p => exact decodeTb_transportByte hc p true false
  | functionSet | displayControl | clearDisplay | entryMode | setDdramRow2 | resetNibble | fourbitNibble | init => rfl

/-- Settles O2, format by format. -/
theorem decodeThenEncode : Obligations.DecodeThenEncode := by
  unfold Obligations.DecodeThenEncode
  intro c w i _ h
  cases w with
  | req w => exact encode_of_decodeReq h
  | tb b => exact encode_of_decodeTb h
  | cmd8 v => exact encode_of_decodeCmd8 h c
  | nib4 p => exact encode_of_decodeNib4 h c
  | reset =>
    cases h
    exact ⟨rfl, rfl⟩

/-- Settles O3: the decoder opcode by opcode, and R95's words as the ones it rejects. -/
theorem decodeFollowsTheOpcodeMap : Obligations.DecodeFollowsTheOpcodeMap := by
  unfold Obligations.DecodeFollowsTheOpcodeMap
  intro c op hi lo w
  refine ⟨?_, ?_, ?_, ?_, ?_, (decodeReq_error_iff c op hi lo).symm⟩
  · rintro ⟨rfl, rfl⟩
    exact decodeReq_latchCmd c 0#4 lo
  · rintro ⟨rfl, rfl⟩
    exact decodeReq_latchData c 0#4 lo
  · rintro rfl
    exact decodeReq_sendCmd c (hi ++ lo)
  · rintro rfl
    exact decodeReq_sendData c (hi ++ lo)
  · rintro ⟨rfl, hle⟩
    exact (decodeReq_render c (hi ++ lo)).trans (if_pos (by rwa [toNat_append_nibble]))

/-- Settles O4: closed words, decoded by evaluation. -/
theorem writtenOutWordsDecode : Obligations.WrittenOutWordsDecode := by
  unfold Obligations.WrittenOutWordsDecode
  decide

end Sys2Proof

namespace Sys2Proof.Machine

/-! ### The operand forms (R84, R86, R140) -/

/-- Settles O5: over the 256 codes. -/
theorem nibbleSplitReassembles : Obligations.NibbleSplitReassembles := by
  unfold Obligations.NibbleSplitReassembles
  decide

theorem classify_of_printable {v : Byte} (h : 32 ≤ v.toNat ∧ v.toNat ≤ 126) : classify v = v := if_pos h

theorem classify_of_not_printable {v : Byte} (h : ¬(32 ≤ v.toNat ∧ v.toNat ≤ 126)) : classify v = 0x20#8 := if_neg h

/-- Settles O6. -/
theorem classifyIsPrintableOrBlank : Obligations.ClassifyIsPrintableOrBlank := by
  unfold Obligations.ClassifyIsPrintableOrBlank
  exact fun v => ⟨classify_of_printable, fun h => classify_of_not_printable (by omega)⟩

/-- The four bytes of a code, its nibbles over the low nibbles of the register-select (R81, R140). -/
theorem sendCode_eq_codeBytes (c : Cfg) (v : Byte) (rs : Bool) :
    sendCode c v rs = (codeBytes v (controlNibble c rs false) (controlNibble c rs true)).map .emit := by
  simp [sendCode, latchNibble, codeBytes, transportByte_eq_append]

/-! ### The transport-byte forms (R83, R110) -/

theorem exec_tbForm (s : State) (p : Nibble) (rs en : Bool) :
    exec (tbForm p rs en) s = .next (s.emit (transportByte s.cfg p rs en)) := by
  cases rs <;> cases en <;> rfl

/-- The forms beside their low nibbles with the default masks (R83). -/
theorem tbForm_of_mem {c : Cfg} (h : c.DefaultMasks) {p low : Nibble} {i : Instr}
    (hi : (i, low) ∈ [(Instr.tbCmdHi p, 0xC#4), (.tbCmdLo p, 0x8#4), (.tbDataHi p, 0xD#4), (.tbDataLo p, 0x9#4)]) :
    ∃ rs en, i = tbForm p rs en ∧ transportByte c p rs en = p ++ low := by
  simp only [transportByte_eq_append, controlNibble_default h]
  simp only [List.mem_cons, List.not_mem_nil, or_false, Prod.mk.injEq] at hi
  rcases hi with ⟨rfl, rfl⟩ | ⟨rfl, rfl⟩ | ⟨rfl, rfl⟩ | ⟨rfl, rfl⟩
  · exact ⟨false, true, rfl, rfl⟩
  · exact ⟨false, false, rfl, rfl⟩
  · exact ⟨true, true, rfl, rfl⟩
  · exact ⟨true, false, rfl, rfl⟩

theorem State.busWrite_of_ack {s : State} (h : s.draw.answer = .ack) (b : Byte) :
    s.busWrite b = { s with
      nsent := s.nsent + 1#8
      events := s.events ++ [.write s.cfg.lcdAddr b .ack, .delay .settle]
      lcd := s.lcd.write s.cfg s.draws s.draw.late b
      answers := s.answers.tail
      draws := s.draws + 1 } := by
  simp only [State.busWrite, State.transact, h]

/-- Settles O7: each form is the EMIT of its byte, acknowledged. -/
theorem tbFormsWriteTheirByte : Obligations.TbFormsWriteTheirByte := by
  unfold Obligations.TbFormsWriteTheirByte
  intro s p low i hm hi hack
  obtain ⟨rs, en, rfl, hbyte⟩ := tbForm_of_mem hm hi
  rw [exec_tbForm, hbyte, State.emit_of_ack hack, State.busWrite_of_ack hack]
  rfl

/-! ### Requests (R95, R144, R145, R181) -/

/-- Settles O17: acceptance of the code's four bytes. -/
theorem sendRequestsAreAccepted : Obligations.SendRequestsAreAccepted := by
  unfold Obligations.SendRequestsAreAccepted
  intro s v hm hb
  constructor
  · rw [exec_of_request (i := .sendCmd v) rfl, State.accept_of_ready hb, sendCode_eq_codeBytes]
    simp only [controlNibble_default hm]
    rfl
  · rw [exec_of_request (i := .sendData v) rfl, State.accept_of_ready hb, sendChar, sendCode_eq_codeBytes]
    simp only [controlNibble_default hm]
    rfl

theorem execRender_of_too_long {s : State} {n : Byte} (h : s.cfg.textMax < n.toNat) :
    exec (.render n) s = .next (s.refuse (reqWord 0x5#4 n)) := if_neg (Nat.not_le.2 h)

/-- Settles O21. -/
theorem renderTooLongIsRefused : Obligations.RenderTooLongIsRefused := by
  unfold Obligations.RenderTooLongIsRefused
  intro s n hb hn
  rw [execRender_of_too_long hn, State.refuse_of_ready hb]
  rfl

/-! ### A step runs what it fetches (R117) -/

theorem step_of_fetch {s : State} {i : Instr} (h : s.fetch = .run i) : step s = exec i s.taken := by
  unfold step
  rw [h]

theorem step_of_fetchScript {s : State} (hrel : s.released) (hb : s.busy = true) {i : Instr}
    (h : s.fetchScript = .run i) : step s = exec i { s with rstIn := s.rstIn.tail } := by
  rw [step_of_fetch ((State.fetch_of_busy hrel hb).trans h), State.taken_of_busy hb]

theorem State.fetchScript_of_formAt {s : State} (hg : s.grain = .form) {i : Instr}
    (h : formAt s.cfg (s.script.drop s.pc) = some i) : s.fetchScript = .run i := by
  unfold State.fetchScript
  rw [hg, h]

theorem State.fetchScript_eq_fetchAction {s : State}
    (h : s.grain = .action ∨ formAt s.cfg (s.script.drop s.pc) = none) :
    s.fetchScript = fetchAction s.cfg (s.script.drop s.pc) := by
  unfold State.fetchScript
  rcases h with h | h
  · rw [h]
  · rw [h]
    cases s.grain <;> rfl

theorem fetchAction_of_decodeTb {c : Cfg} {b : Byte} {i : Instr} (h : decodeTb c b = .ok i) (rest : List Action) :
    fetchAction c (.emit b :: rest) = .run i := by
  simp only [fetchAction, h]

theorem State.fetchHost_of_request {s : State} {w : ReqWord} {rest : List HostIn} (hh : s.hostIn = .request w :: rest)
    {i : Instr} (h : decodeReq s.cfg w = .ok i) : s.fetchHost = .run i := by
  simp only [State.fetchHost, hh, h]

theorem State.fetch_of_release {s : State} (hrst : s.rst = true) (hrun : s.rstIn.headD .run = .run) :
    s.fetch = .run .init := by
  unfold State.fetch
  rw [hrun, hrst]
  rfl

theorem State.taken_of_rst {s : State} (hrst : s.rst = true) : s.taken = { s with rstIn := s.rstIn.tail } := by
  simp [State.taken, hrst]

/-- Settles O24: what the step fetches in each of the five places, and what it uses up there. -/
theorem stepRunsTheDecodedInstruction : Obligations.StepRunsTheDecodedInstruction := by
  unfold Obligations.StepRunsTheDecodedInstruction
  refine ⟨?_, ?_, ?_, ?_, ?_⟩
  · intro s b rest i hrel hb hgrain hdrop hi
    refine step_of_fetchScript hrel hb ?_
    rw [State.fetchScript_eq_fetchAction hgrain, hdrop]
    exact fetchAction_of_decodeTb hi rest
  · intro s v rest i hc hrel hb hgrain hdrop hi
    refine step_of_fetchScript hrel hb (State.fetchScript_of_formAt hgrain ?_)
    rw [hdrop]
    exact formAt_sendCode hc hi rest
  · intro s p rest i hc hrel hb hgrain hdrop hi
    refine step_of_fetchScript hrel hb (State.fetchScript_of_formAt hgrain ?_)
    rw [hdrop]
    exact formAt_latchNibble hc hi rest
  · intro s w rest i hrel hb hhost hi
    rw [step_of_fetch ((State.fetch_of_idle hrel hb).trans (State.fetchHost_of_request hhost hi)),
      State.taken_of_idle hrel hb, hhost]
    rfl
  · intro s hrst hrun
    rw [step_of_fetch (State.fetch_of_release hrst hrun), State.taken_of_rst hrst]

end Sys2Proof.Machine
end

section
/-! PROOFS. The family of 40_transport: forms cut at a failed write, a LATCH request's acceptance, and the running operation: what a step
of it does, that the small steps are the whole operation, its events, its end, and a SEND request from its offer to STATUS. -/

namespace Sys2Proof.Machine

/-! ### Bytes and their events -/

theorem emitted_emits (bs : List Byte) : emitted (bs.map .emit) = bs := by
  induction bs with
  | nil => rfl
  | cons b bs ih => rw [List.map_cons, emitted_emit, ih]

theorem flatMap_events_emits (c : Cfg) (bs : List Byte) :
    (bs.map Action.emit).flatMap (Action.events c) = ackedBytes c bs := by
  simp only [ackedBytes, List.flatMap_map, Action.events]

theorem cutBytes_concat (c : Cfg) (bs : List Byte) (b : Byte) :
    cutBytes c (bs ++ [b]) = ackedBytes c bs ++ writeEvents c b .fail := by
  simp [cutBytes]

theorem InitState.atEnd_busError (i : InitState) : i.atEnd .busError = if i.running then .failed else i := rfl

/-! ### A form cut at its first failed write (R110, R112, R201, R207) -/

theorem State.busWrite_of_fail {s : State} (h : s.draw.answer = .fail) (b : Byte) :
    s.busWrite b = { s with
      nsent := s.nsent + 1#8
      events := s.events ++ [.write s.cfg.lcdAddr b .fail, .delay .settle]
      lcd := s.lcd.failedWrite s.draws
      answers := s.answers.tail
      draws := s.draws + 1 } := by
  simp only [State.busWrite, State.transact, h]

/-- Settles O8: each form is the EMIT of its byte, which fails. -/
theorem tbFormsFailWithBusError : Obligations.TbFormsFailWithBusError := by
  unfold Obligations.TbFormsFailWithBusError
  intro s p low i hm hi hfail
  obtain ⟨rs, en, rfl, hbyte⟩ := tbForm_of_mem hm hi
  rw [exec_tbForm, hbyte, State.emit_of_fail hfail, State.busWrite_of_fail hfail]
  rfl

/-- A form whose fragment begins with `bytes`, the one after the first `k` of which fails, is cut there. -/
theorem exec_ranCut {s : State} {i : Instr} {bytes : List Byte} {rest : List Action} {k : Nat}
    (hfrag : fragmentOf s.cfg i = some (bytes.map .emit ++ rest)) (hk : k < bytes.length) (hf : s.failsAfter k) :
    ∃ t, exec i s = .next t ∧ State.RanCut ((bytes.take k).map .emit) bytes[k] s t := by
  have hsplit : bytes.map Action.emit ++ rest =
      (bytes.take k).map .emit ++ .emit bytes[k] :: ((bytes.drop (k + 1)).map .emit ++ rest) := by
    conv_lhs => rw [← List.take_append_drop k bytes, List.drop_eq_getElem_cons hk, List.map_append, List.map_cons,
      List.append_assoc, List.cons_append]
  have hlen : (emitted ((bytes.take k).map .emit)).length = k := by
    rw [emitted_emits, List.length_take]
    omega
  refine ⟨_, exec_of_fragment hfrag, ?_⟩
  rw [hsplit]
  exact State.ranCut (by rwa [hlen]) _ _

theorem exec_stops_at_first_failure {s : State} {i : Instr} {bytes : List Byte} {rest : List Action} {k : Nat}
    (hfrag : fragmentOf s.cfg i = some (bytes.map .emit ++ rest)) (hk : k < bytes.length) (hf : s.failsAfter k) :
    ∃ t, exec i s = .next t ∧ t.events = s.events ++ cutBytes s.cfg (bytes.take (k + 1)) ∧
      t.nsent = s.nsent + BitVec.ofNat 8 (k + 1) ∧ t.pc = s.pc + k ∧
      t.busy = false ∧ t.result = .busError ∧ t.errIndex = s.nsent + BitVec.ofNat 8 (k + 1) ∧
      (s.initState.running = true → t.initState = .failed) ∧
      (s.initState.running = false → t.initState = s.initState) ∧ s.SameButCut t := by
  obtain ⟨t, he, r⟩ := exec_ranCut hfrag hk hf
  have hlen : (bytes.take k).length = k := List.length_take_of_le hk.le
  have hevents := r.events
  have hnsent := r.nsent
  have hindex := r.errIndex
  have hpc := r.pc
  rw [emitted_emits, hlen] at hnsent hindex
  rw [List.length_map, hlen] at hpc
  rw [flatMap_events_emits, List.append_assoc, ← cutBytes_concat, List.take_concat_get' _ _ hk] at hevents
  refine ⟨t, he, hevents, hnsent, hpc, r.busy, r.result, hindex, fun hi => ?_, fun hi => ?_, r.same⟩
  · rw [r.initState, InitState.atEnd_busError, hi, if_pos rfl]
  · rw [r.initState, InitState.atEnd_of_over hi]

/-- The fragment of a command code with the default masks is its four bytes (R83, R140). -/
theorem fragmentOf_commandCode {c : Cfg} (h : c.DefaultMasks) {i : Instr} {bytes : List Byte}
    (hi : (i, bytes) ∈
      [(Instr.functionSet, [0x2C#8, 0x28#8, 0x8C#8, 0x88#8]), (.displayControl, [0x0C#8, 0x08#8, 0xCC#8, 0xC8#8]),
       (.clearDisplay, [0x0C#8, 0x08#8, 0x1C#8, 0x18#8]), (.entryMode, [0x0C#8, 0x08#8, 0x6C#8, 0x68#8]),
       (.setDdramRow2, [0xCC#8, 0xC8#8, 0x0C#8, 0x08#8])]) :
    bytes.length = 4 ∧ fragmentOf c i = some (bytes.map .emit) := by
  simp only [List.mem_cons, List.not_mem_nil, or_false, Prod.mk.injEq] at hi
  rcases hi with ⟨rfl, rfl⟩ | ⟨rfl, rfl⟩ | ⟨rfl, rfl⟩ | ⟨rfl, rfl⟩ | ⟨rfl, rfl⟩ <;>
    exact ⟨rfl, by simp only [fragmentOf, sendCode_eq_codeBytes, controlNibble_default h]; decide⟩

/-- Settles O12: a command code is the fragment of its four bytes. -/
theorem commandCodesStopAtTheFirstFailure : Obligations.CommandCodesStopAtTheFirstFailure := by
  unfold Obligations.CommandCodesStopAtTheFirstFailure
  intro s i bytes k hm hi hk hf
  obtain ⟨hlen, hfrag⟩ := fragmentOf_commandCode hm hi
  exact exec_stops_at_first_failure (rest := []) (by rw [hfrag, List.append_nil]) (by omega) hf

theorem latchNibble_eq_emits (c : Cfg) (p : Nibble) (rs : Bool) :
    latchNibble c p rs = [.emit (p ++ controlNibble c rs true), .emit (p ++ controlNibble c rs false)] := by
  simp only [latchNibble, transportByte_eq_append]

/-- The fragment of a single payload with the default masks is its two bytes, then the wait (R163, R164). -/
theorem fragmentOf_singlePayload {c : Cfg} (h : c.DefaultMasks) {i : Instr} {bytes : List Byte}
    (hi : (i, bytes) ∈ [(Instr.resetNibble, [0x3C#8, 0x38#8]), (.fourbitNibble, [0x2C#8, 0x28#8])]) :
    bytes.length = 2 ∧ fragmentOf c i = some (bytes.map .emit ++ [.delay .reset]) := by
  simp only [List.mem_cons, List.not_mem_nil, or_false, Prod.mk.injEq] at hi
  rcases hi with ⟨rfl, rfl⟩ | ⟨rfl, rfl⟩ <;> refine ⟨rfl, ?_⟩
  · simp only [fragmentOf, resetNibbleScript, latchNibble_eq_emits, controlNibble_default h]
    decide
  · simp only [fragmentOf, fourbitNibbleScript, latchNibble_eq_emits, controlNibble_default h]
    decide

/-- Settles O14: the wait stands after the two bytes, so a cut at either of them leaves it out. -/
theorem singlePayloadsStopAtTheFirstFailure : Obligations.SinglePayloadsStopAtTheFirstFailure := by
  unfold Obligations.SinglePayloadsStopAtTheFirstFailure
  intro s i bytes k hm hi hk hf
  obtain ⟨hlen, hfrag⟩ := fragmentOf_singlePayload hm hi
  exact exec_stops_at_first_failure hfrag (by omega) hf

/-! ### The LATCH requests (R116, R130, R133, R134) -/

theorem reqWord_latch (op p : Nibble) : reqWord op (0#4 ++ p) = (op ++ 0#4) ++ p := by
  rw [reqWord, BitVec.append_assoc', BitVec.cast_eq]

/-- Settles O16: acceptance of the payload's pulse pair. -/
theorem latchRequestsAreAccepted : Obligations.LatchRequestsAreAccepted := by
  unfold Obligations.LatchRequestsAreAccepted
  intro s p hm hb
  constructor
  · rw [exec_of_request (i := .latchCmd p) rfl, State.accept_of_ready hb, latchNibble_eq_emits, reqWord_latch]
    simp only [controlNibble_default hm]
    rfl
  · rw [exec_of_request (i := .latchData p) rfl, State.accept_of_ready hb, latchNibble_eq_emits, reqWord_latch]
    simp only [controlNibble_default hm]
    rfl

/-! ### One action of the script (R111, R112) -/

theorem step_of_delay {s : State} (hrel : s.released) (hb : s.busy = true) {d : DelayId} {rest : List Action}
    (hd : s.script.drop s.pc = .delay d :: rest) : step s = .next (s.taken.delay d) := by
  have hfetch : s.fetch = .delay d := by
    rw [State.fetch_of_busy hrel hb, State.fetchScript_eq_fetchAction (.inr (by rw [hd]; rfl)), hd]
    rfl
  simp only [step, hfetch]

/-- Settles O25: at either grain the step fetches the delay, and performs it. -/
theorem delayWaitsAndGoesOn : Obligations.DelayWaitsAndGoesOn := by
  unfold Obligations.DelayWaitsAndGoesOn
  intro s d rest hrel hb hd
  rw [step_of_delay hrel hb hd, State.taken_of_busy hb]
  rfl

theorem step_of_done {s : State} (hrel : s.released) (hb : s.busy = true) (hd : s.script.drop s.pc = []) :
    step s = .next (s.taken.finish .ok 0#8) := by
  simp only [step, State.fetch_of_busy hrel hb, State.fetchScript_of_done hd]

/-- Where a step takes one action, it performs the action the script stands at. -/
theorem step_of_action {s : State} (hrel : s.released) (hb : s.busy = true) (hg : s.grain = .action) {a : Action}
    {rest : List Action} (hd : s.script.drop s.pc = a :: rest) (ha : actionOk s.cfg a = true) :
    step s = .next (State.runActions [a] s.taken) := by
  cases a with
  | delay d => exact step_of_delay hrel hb hd
  | emit b =>
    obtain ⟨i, hi⟩ : ∃ i, decodeTb s.cfg b = .ok i := by
      cases hi : decodeTb s.cfg b with
      | ok i => exact ⟨i, rfl⟩
      | error r => simp [actionOk, hi, Except.toOption] at ha
    have hfetch : s.fetchScript = .run i := by
      rw [State.fetchScript_eq_fetchAction (.inl hg), hd, fetchAction_of_decodeTb hi]
    rw [step_of_fetch ((State.fetch_of_busy hrel hb).trans hfetch),
      exec_of_fragment (s := s.taken) (fragmentOf_of_decodeTb hi)]

/-- The actions the script stands at, one a step: as many steps as actions where every write is acknowledged, fewer where a failed
write cuts them (R112, R117). -/
theorem stepN_of_actions {s : State} (hr : s.noReset) (hb : s.busy = true) (hg : s.grain = .action)
    {frag rest : List Action} (hd : s.script.drop s.pc = frag ++ rest) (hok : ∀ a ∈ frag, actionOk s.cfg a = true) :
    ∃ k ≤ frag.length, stepN k s = .next (State.runActions frag s) ∧
      (s.acks (emitted frag).length → k = frag.length) := by
  induction frag generalizing s with
  | nil => exact ⟨0, le_rfl, rfl, fun _ => rfl⟩
  | cons a as ih =>
    obtain ⟨ha, has⟩ := List.forall_mem_cons.1 hok
    have hstep := step_of_action hr.released hb hg hd ha
    rw [State.taken_of_noReset hr hb] at hstep
    cases a with
    | delay d =>
      obtain ⟨k, hk, hrun, hall⟩ := ih (s := s.delay d) hr hb hg (drop_script (frag := [.delay d]) hd rfl rfl) has
      refine ⟨k + 1, Nat.succ_le_succ hk, ?_, fun h => congrArg (· + 1) (hall h)⟩
      simp only [stepN, hstep]
      exact hrun
    | emit b =>
      rw [State.runActions_emit] at hstep
      cases hack : s.draw.answer with
      | ack =>
        have hdrop : (s.emit b).script.drop (s.emit b).pc = as ++ rest := by
          rw [State.emit_of_ack hack]
          exact drop_script (frag := [.emit b]) hd rfl rfl
        have hbusy : (s.emit b).busy = true := by
          rw [State.emit_of_ack hack]
          exact hb
        obtain ⟨k, hk, hrun, hall⟩ := ih (s := s.emit b) (by simpa [State.noReset] using hr) hbusy
          ((State.emit_grain s b).trans hg) hdrop (by simpa using has)
        refine ⟨k + 1, Nat.succ_le_succ hk, ?_, fun h => congrArg (· + 1) (hall ((State.acks_succ.1 h).2 b))⟩
        rw [State.runActions_emit_of_ack hack]
        simpa only [stepN, hstep] using hrun
      | fail =>
        refine ⟨1, by simp, ?_, fun h => ?_⟩
        · simp only [stepN, hstep, State.runActions, hack]
        · rw [(State.acks_succ.1 h).1] at hack
          cases hack

/-! ### A step of the running operation (R112, R113, R117) -/

/-- A step of a busy block that meets the invariant ends the operation, its script done, or performs one to four of the actions the
script stands at. -/
theorem step_cases_of_running {s : State} (h : s.Inv) (hrel : s.released) (hb : s.busy = true) :
    (s.script.drop s.pc = [] ∧ step s = .next (s.taken.finish .ok 0#8)) ∨
    (∃ frag rest, s.script.drop s.pc = frag ++ rest ∧ 0 < frag.length ∧ frag.length ≤ 4 ∧
      step s = .next (State.runActions frag s.taken)) := by
  rcases step_cases s with ⟨k, p, hr, -⟩ | ⟨-, hrst, -⟩ | ⟨-, -, hbusy⟩ | ⟨-, hidle, -⟩
  · rw [hrel.2] at hr
    cases hr
  · simp [hrel.1] at hrst
  · rcases hbusy with hend | ⟨d, rest, hd, e⟩ | ⟨frag, rest, i, hd, hi, e⟩ | ⟨b, rest, hd, hbad, -⟩
    · exact .inl hend
    · exact .inr ⟨[.delay d], rest, hd, by simp, by simp, e⟩
    · obtain ⟨hne, hlen⟩ := fragmentOf_length hi
      rw [exec_of_fragment (s := s.taken) hi] at e
      exact .inr ⟨frag, rest, hd, List.length_pos_of_ne_nil hne, hlen, e⟩
    · simp [h.script.actionOk_of_drop hd] at hbad
  · simp [hb] at hidle

theorem length_emitted_le (as : List Action) : (emitted as).length ≤ as.length := List.length_filterMap_le _ _

/-- Settles O27: the step ends the operation at the script's end, or performs actions, whole or cut at a failed write. -/
theorem onlyResetInterruptsAnOperation : Obligations.OnlyResetInterruptsAnOperation := by
  unfold Obligations.OnlyResetInterruptsAnOperation
  intro s t h hrel hb hstep
  rcases step_cases_of_running h hrel hb with ⟨hd, e⟩ | ⟨frag, rest, hd, hpos, hlen, e⟩ <;> rw [e] at hstep <;> cases hstep
  · obtain ⟨-, -, hpc⟩ := h.script
    exact ⟨rfl, hrel.1, .inr (.inl ⟨rfl, rfl, le_antisymm hpc (List.drop_eq_nil_iff.1 hd), rfl⟩)⟩
  · obtain ⟨-, hrst, hscript, -⟩ := State.runActions_sameButCut frag s.taken
    refine ⟨hscript, hrst.trans hrel.1, ?_⟩
    rcases State.runActions_cases frag s.taken with ⟨-, r⟩ | ⟨pre, b, post, rfl, hf, -⟩
    · exact .inl ⟨r.busy.trans hb, by rw [r.pc]; exact Nat.lt_add_of_pos_right hpos⟩
    · have r := State.ranCut hf b post
      have hpre := length_emitted_le pre
      rw [List.length_append, List.length_cons] at hlen
      exact .inr (.inr ⟨r.busy, r.result, (emitted pre).length, by omega, hf.2⟩)

/-! ### The whole operation (R114, R115, R117) -/

theorem State.runOperation_of_cut {s : State} (h : (State.runActions (s.script.drop s.pc) s).busy = false) :
    s.runOperation = State.runActions (s.script.drop s.pc) s := by
  simp [State.runOperation, h]

theorem State.runOperation_of_whole {s : State} (h : (State.runActions (s.script.drop s.pc) s).busy = true) :
    s.runOperation = (State.runActions (s.script.drop s.pc) s).finish .ok 0#8 := by
  simp [State.runOperation, h]

theorem State.runOperation_of_done {s : State} (hb : s.busy = true) (hd : s.script.drop s.pc = []) :
    s.runOperation = s.finish .ok 0#8 := by
  rw [State.runOperation_of_whole (by rwa [hd]), hd]
  rfl

/-- The whole operation begins with the actions the script stands at: run whole they leave the rest of it, cut they are all of it. -/
theorem State.runOperation_of_fragment {s : State} {frag rest : List Action} (hd : s.script.drop s.pc = frag ++ rest) :
    (State.RanWhole frag s (State.runActions frag s) ∧ (State.runActions frag s).runOperation = s.runOperation) ∨
    s.runOperation = State.runActions frag s := by
  rcases State.runActions_cases frag s with ⟨hack, r⟩ | ⟨pre, b, post, rfl, hf, -, -, hcut⟩
  · refine .inl ⟨r, ?_⟩
    unfold State.runOperation
    rw [drop_script hd r.script r.pc, hd, State.runActions_append hack]
  · have hall : State.runActions (s.script.drop s.pc) s = State.runActions (pre ++ .emit b :: post) s := by
      rw [hd, List.append_assoc, List.cons_append, hcut, (State.runActions_cut hf b (post ++ rest)).1]
    refine .inr ?_
    rw [State.runOperation_of_cut (hall ▸ (State.ranCut hf b post).busy), hall]

/-- The small steps perform the whole operation, at most one for each action left and one for the end. -/
theorem stepN_runOperation {s : State} (h : s.Inv) (hr : s.noReset) (hb : s.busy = true) :
    ∃ k ≤ (s.script.drop s.pc).length + 1, stepN k s = .next s.runOperation := by
  rcases step_cases_of_running h hr.released hb with ⟨hd, e⟩ | ⟨frag, rest, hd, hpos, -, e⟩ <;>
    rw [State.taken_of_noReset hr hb] at e
  · exact ⟨1, by omega, by simp only [stepN, e, State.runOperation_of_done hb hd]⟩
  · rcases State.runOperation_of_fragment hd with ⟨r, hwhole⟩ | hcut
    · have hrest := drop_script hd r.script r.pc
      obtain ⟨k, hk, hrun⟩ := stepN_runOperation (everyStepKeepsTheInvariant s _ h e)
        ⟨r.rst.trans hr.1, r.rstIn.trans hr.2⟩ (r.busy.trans hb)
      rw [hrest] at hk
      refine ⟨k + 1, ?_, by simp only [stepN, e, hrun, hwhole]⟩
      rw [hd, List.length_append]
      omega
    · exact ⟨1, by omega, by simp only [stepN, e, hcut]⟩
termination_by (s.script.drop s.pc).length
decreasing_by
  rw [hrest, hd, List.length_append]
  omega

/-- Settles O28. -/
theorem wholeOperationAsOneStep : Obligations.WholeOperationAsOneStep := by
  unfold Obligations.WholeOperationAsOneStep
  intro s h hr hb
  obtain ⟨k, hk, hrun⟩ := stepN_runOperation h hr hb
  obtain ⟨-, -, hpc⟩ := h.script
  rw [List.length_drop] at hk
  exact ⟨k, by omega, hrun⟩

/-- A whole operation leaves an idle block with INIT over: the end ends INIT, and so does a cut (R113, R161). -/
theorem State.runOperation_over {s : State} (h : s.Inv) (hrst : s.rst = false) (hb : s.busy = true) :
    s.runOperation.busy = false ∧ s.runOperation.initState.running = false := by
  have hinv := State.runActions_inv h hrst hb (List.append_nil _).symm
  cases hbusy : (State.runActions (s.script.drop s.pc) s).busy with
  | true =>
    rw [State.runOperation_of_whole hbusy]
    exact ⟨rfl, InitState.atEnd_running _ _⟩
  | false =>
    rw [State.runOperation_of_cut hbusy]
    exact ⟨hbusy, hinv.init_over_of_idle hbusy⟩

theorem InitState.ready_or_failed_of_over {i : InitState} (h : i.running = false) : i = .ready ∨ i = .failed := by
  cases i <;> simp [InitState.running] at h ⊢

/-- Settles O31: the small steps reach the whole operation's end. -/
theorem everyOperationEnds : Obligations.EveryOperationEnds := by
  unfold Obligations.EveryOperationEnds
  intro s h hr hb
  obtain ⟨k, hk, hrun⟩ := wholeOperationAsOneStep s h hr hb
  obtain ⟨hidle, hover⟩ := State.runOperation_over h hr.1 hb
  exact ⟨k, hk, _, hrun, hidle, InitState.ready_or_failed_of_over hover⟩

/-- Settles O30: the rest of the script runs whole and ends, or is cut at the given EMIT. -/
theorem eventsFollowTheScript : Obligations.EventsFollowTheScript := by
  unfold Obligations.EventsFollowTheScript
  intro s h hb todo t
  constructor
  · intro hack
    have r := State.ranWhole hack
    have ht : t = (State.runActions todo s).finish .ok 0#8 := State.runOperation_of_whole (r.busy.trans hb)
    obtain ⟨-, -, hpc⟩ := h.script
    have hend : s.pc + todo.length = s.script.length := by
      rw [List.length_drop]
      omega
    rw [ht]
    exact ⟨r.events, rfl, rfl, rfl, r.pc.trans hend⟩
  · intro pre post b htodo hf
    have r := State.ranCut hf b post
    rw [← htodo] at r
    have ht : t = State.runActions todo s := State.runOperation_of_cut r.busy
    rw [ht]
    exact ⟨r.events, r.busy, r.result, r.errIndex, r.pc⟩

/-! ### Whole forms and single actions (R117) -/

/-- Running actions reads no grain: only the fetch of a script does. -/
theorem State.runActions_grain (as : List Action) (g : Grain) (s : State) :
    State.runActions as { s with grain := g } = { State.runActions as s with grain := g } := by
  induction as generalizing s with
  | nil => rfl
  | cons a as ih =>
    cases a with
    | delay d => exact ih (s.delay d)
    | emit b =>
      have hdraw : ({ s with grain := g } : State).draw = s.draw := rfl
      cases hack : s.draw.answer with
      | ack =>
        rw [State.runActions_emit_of_ack hack, State.runActions_emit_of_ack (by rw [hdraw, hack]), ← ih,
          State.emit_of_ack hack, State.emit_of_ack (by rw [hdraw, hack])]
        rfl
      | fail =>
        simp only [State.runActions, hdraw, hack]
        rw [State.emit_of_fail hack, State.emit_of_fail (by rw [hdraw, hack])]
        rfl

/-- Settles O29: the actions of the form, at most four, one a step. -/
theorem formStepsAreActionSteps : Obligations.FormStepsAreActionSteps := by
  unfold Obligations.FormStepsAreActionSteps
  intro s t h hr hb _ hstep
  rcases step_cases_of_running h hr.released hb with ⟨hd, e⟩ | ⟨frag, rest, hd, -, hlen, e⟩ <;>
    rw [State.taken_of_noReset hr hb] at e <;> rw [e] at hstep <;> cases hstep
  · have hend := step_of_done (s := { s with grain := .action }) hr.released hb hd
    rw [State.taken_of_noReset (s := { s with grain := .action }) hr hb] at hend
    refine ⟨1, by omega, ?_⟩
    simp only [stepN, hend]
    rfl
  · obtain ⟨k, hk, hrun, -⟩ := stepN_of_actions (s := { s with grain := .action }) hr hb rfl hd
      (fun a ha => h.script.1 a (List.mem_of_mem_drop (hd ▸ List.mem_append_left rest ha)))
    exact ⟨k, hk.trans hlen, by rw [hrun, State.runActions_grain]⟩

/-! ### A request from its offer to its end (R116, R140, R144, R145) -/

/-- Where a step takes one action and every write is acknowledged, the rest of the operation takes one step an action and one for its
end (R113). -/
theorem stepN_of_acks {s : State} (hr : s.noReset) (hb : s.busy = true) (hg : s.grain = .action)
    (hok : ∀ a ∈ s.script.drop s.pc, actionOk s.cfg a = true) (hack : s.acks (emitted (s.script.drop s.pc)).length) :
    stepN ((s.script.drop s.pc).length + 1) s = .next ((State.runActions (s.script.drop s.pc) s).finish .ok 0#8) := by
  obtain ⟨k, -, hrun, hall⟩ := stepN_of_actions hr hb hg (List.append_nil _).symm hok
  obtain rfl := hall hack
  have r := State.ranWhole hack
  have hr' : (State.runActions (s.script.drop s.pc) s).noReset := ⟨r.rst.trans hr.1, r.rstIn.trans hr.2⟩
  have hend := step_of_done hr'.released (r.busy.trans hb) (drop_script (List.append_nil _).symm r.script r.pc)
  rw [State.taken_of_noReset hr' (r.busy.trans hb)] at hend
  rw [stepN_add hrun]
  simp only [stepN, hend]

/-- Offered to an idle block that takes one action a step, a request whose writes are all acknowledged is accepted, runs its script and
ends with OK: one step to accept it, one for each action, one for the end. -/
theorem stepN_of_request {s : State} (hr : s.noReset) (hb : s.busy = false) (hg : s.grain = .action) {w : ReqWord}
    {rest : List HostIn} (hh : s.hostIn = .request w :: rest) {i : Instr} (hdec : decodeReq s.cfg w = .ok i)
    {sc : List Action} (hi : requestOf s.cfg i = some (w, sc)) (hok : ∀ a ∈ sc, actionOk s.cfg a = true)
    (hack : s.acks (emitted sc).length) :
    ∃ t, State.RanWhole sc (s.taken.accept w sc) t ∧ stepN (sc.length + 2) s = .next (t.finish .ok 0#8) := by
  have hstep : step s = .next (s.taken.accept w sc) := by
    rw [step_of_fetch ((State.fetch_of_idle hr.released hb).trans (State.fetchHost_of_request hh hdec)),
      exec_of_request (s := s.taken) hi]
  have ha := State.accept_of_ready (s := s.taken) hb w sc
  have hack' : (s.taken.accept w sc).acks (emitted sc).length := by
    rw [ha]
    exact hack
  have hrun := stepN_of_acks (s := s.taken.accept w sc) ⟨by simpa using hr.1, by simp [hr.2]⟩ (by rw [ha]) (by simpa using hg)
  have hdrop : (s.taken.accept w sc).script.drop (s.taken.accept w sc).pc = sc := by
    rw [ha]
    rfl
  rw [hdrop] at hrun
  refine ⟨_, State.ranWhole hack', ?_⟩
  simp only [stepN, hstep]
  exact hrun (by simpa using hok) hack'

theorem actionOk_emit_of_defaultMasks {c : Cfg} (h : c.DefaultMasks) (p : Nibble) (rs en : Bool) :
    actionOk c (.emit (transportByte c p rs en)) = true := by
  simp only [actionOk, decodeTb, controlOf_transportByte, controlNibble_default h]
  cases rs <;> cases en <;> rfl

theorem actionOk_sendCode_of_defaultMasks {c : Cfg} (h : c.DefaultMasks) (v : Byte) (rs : Bool) :
    ∀ a ∈ sendCode c v rs, actionOk c a = true := by
  intro a ha
  simp only [sendCode, latchNibble, List.cons_append, List.nil_append, List.mem_cons, List.not_mem_nil, or_false] at ha
  rcases ha with rfl | rfl | rfl | rfl <;> exact actionOk_emit_of_defaultMasks h _ _ _

/-- A SEND request with its word, its bytes and the code whose four bytes they are (R140, R142). -/
theorem sendRequest_of_mem {c : Cfg} (h : c.DefaultMasks) {v : Byte} {low : Nibble} {bytes : List Byte}
    (hi : (low, bytes) ∈ [(0x3#4, codeBytes v 0x8#4 0xC#4), (0x4#4, codeBytes (classify v) 0x9#4 0xD#4)]) :
    ∃ i u rs, decodeReq c (low ++ v) = .ok i ∧ requestOf c i = some (low ++ v, sendCode c u rs) ∧
      sendCode c u rs = bytes.map .emit := by
  have hbytes (u : Byte) (rs : Bool) : sendCode c u rs =
      (codeBytes u (if rs then 0x9#4 else 0x8#4) (if rs then 0xD#4 else 0xC#4)).map .emit := by
    simp only [sendCode_eq_codeBytes, controlNibble_default h]
    rfl
  simp only [List.mem_cons, List.not_mem_nil, or_false, Prod.mk.injEq] at hi
  rcases hi with ⟨rfl, rfl⟩ | ⟨rfl, rfl⟩
  · exact ⟨.sendCmd v, v, false, decodeReq_sendCmd c v, rfl, hbytes v false⟩
  · exact ⟨.sendData v, classify v, true, decodeReq_sendData c v, rfl, hbytes (classify v) true⟩

/-- Settles O32: the request runs its four bytes and ends, six steps. -/
theorem sendRequestsRunToTheEnd : Obligations.SendRequestsRunToTheEnd := by
  unfold Obligations.SendRequestsRunToTheEnd
  intro s v low bytes rest hm hr hb hinit hg hack hh hi
  obtain ⟨i, u, rs, hdec, hreq, hbytes⟩ := sendRequest_of_mem hm hi
  obtain ⟨t, r, hrun⟩ := stepN_of_request hr hb hg hh hdec hreq (actionOk_sendCode_of_defaultMasks hm u rs) hack
  have hready : t.initState = .ready := by
    rw [r.initState, State.accept_initState, State.taken_initState, hinit, InitState.follow_of_over rfl, ite_self]
  refine ⟨_, hrun, ?_, ?_, ?_, ?_, ?_⟩
  · rw [State.finish_events, r.events, hbytes, flatMap_events_emits]
    simp
  · simp only [State.status, State.finish_errIndex, State.finish_initState, State.finish_result, State.finish_busy, hready]
    decide
  · rw [State.finish_hostIn, r.hostIn, State.accept_hostIn, State.taken_of_idle hr.released hb, hh]
    rfl
  · rw [State.finish_text, r.text, State.accept_text, State.taken_text]
  · rw [State.finish_nsent, r.nsent, State.accept_of_ready (s := s.taken) hb]
    rfl

end Sys2Proof.Machine
end

section
/-! PROOFS. The family of 41_framer: the pulse pair of a latched nibble, its two bytes and the events of its run. -/

namespace Sys2Proof

/-! ### The two bytes of a pulse pair (R81, R131) -/

/-- `xor` finds the enable bit alone: register-select and backlight are other bits, set in both or in neither. -/
theorem controlNibble_xor {c : Cfg} (h : c.Wf) (rs : Bool) :
    controlNibble c rs true ^^^ controlNibble c rs false = c.enMask := by
  unfold controlNibble ctrl
  refine h.masks (P := fun a _ e b => ((b ||| if rs then a else 0#4) ||| if true then e else 0#4) ^^^
    ((b ||| if rs then a else 0#4) ||| if false then e else 0#4) = e) ?_
  cases rs <;> decide

theorem transportByte_xor {c : Cfg} (h : c.Wf) (p : Nibble) (rs : Bool) :
    transportByte c p rs true ^^^ transportByte c p rs false = 0#4 ++ c.enMask := by
  rw [transportByte_eq_append, transportByte_eq_append, BitVec.xor_append, BitVec.xor_self, controlNibble_xor h]

theorem transportByte_enable_clear {c : Cfg} (h : c.Wf) (p : Nibble) (rs : Bool) :
    controlOf (transportByte c p rs false) &&& c.enMask = 0#4 := by
  obtain ⟨-, -, hen, -⟩ := controlNibble_lines h rs false
  rw [controlOf_transportByte]
  simpa using hen

end Sys2Proof

namespace Sys2Proof.Machine

/-! ### The events of a pulse pair (R112, R130, R131) -/

theorem State.runActions_emit_of_fail {s : State} (h : s.draw.answer = .fail) (b : Byte) (as : List Action) :
    State.runActions (.emit b :: as) s = s.emit b := by
  simp only [State.runActions, h]

/-- The enable-asserted byte is written, and after it the enable-cleared one only where the first was acknowledged. -/
theorem State.latchNibble_events (s : State) (c : Cfg) (p : Nibble) (rs : Bool) :
    (State.runActions (latchNibble c p rs) s).events = s.events ++
      (writeEvents s.cfg (transportByte c p rs true) s.draw.answer ++
        if s.draw.answer = .ack then writeEvents s.cfg (transportByte c p rs false) (s.drawAt 1).answer else []) := by
  unfold latchNibble
  cases hfirst : s.draw.answer with
  | ack =>
    have hsecond : (s.emit (transportByte c p rs true)).draw = s.drawAt 1 := State.drawAt_emit s _ 0
    rw [State.runActions_emit_of_ack hfirst, State.runActions_emit, State.emit_events, State.emit_events, hsecond, hfirst]
    simp
  | fail =>
    rw [State.runActions_emit_of_fail hfirst, State.emit_events, hfirst]
    simp

/-- Settles O9: the masks say how the two bytes differ, the run of the pair in which order they are written. -/
theorem pulsePairIsOrdered : Obligations.PulsePairIsOrdered := by
  unfold Obligations.PulsePairIsOrdered
  intro s p rs hwf
  exact ⟨transportByte_xor hwf p rs, transportByte_enable_clear hwf p rs, State.latchNibble_events s s.cfg p rs⟩

end Sys2Proof.Machine
end

section
/-! PROOFS. The family of 43_init: a form whose writes are all acknowledged, the INIT script written out, INIT from the release of reset
to its end, whole or cut at its first failed write, and the least time a script takes. -/

namespace Sys2Proof.Machine

/-! ### A form whose writes are all acknowledged (R110, R111, R112) -/

theorem State.RanWhole.sameButRun {as : List Action} {s t : State} (r : State.RanWhole as s t) : s.SameButRun t :=
  ⟨r.cfg, r.rst, r.busy, r.result, r.errIndex, r.script, r.col, r.req, r.text, r.rstIn, r.hostIn, r.grain⟩

theorem State.RanWhole.initState_of_ne_nil {as : List Action} {s t : State} (r : State.RanWhole as s t) (has : as ≠ []) :
    t.initState = s.initState.follow (s.pc + as.length) := by
  rw [r.initState, if_neg has]

/-- A form whose fragment is `bytes` and then `waits` performs them all where every byte is acknowledged. -/
theorem exec_of_acks {s : State} {i : Instr} {bytes : List Byte} {waits : List DelayId}
    (hfrag : fragmentOf s.cfg i = some (bytes.map .emit ++ waits.map .delay)) (hack : s.acks bytes.length) :
    ∃ t, exec i s = .next t ∧ t.events = s.events ++ ackedBytes s.cfg bytes ++ waits.map .delay ∧
      t.nsent = s.nsent + BitVec.ofNat 8 bytes.length ∧ t.pc = s.pc + (bytes.length + waits.length) ∧
      t.initState = s.initState.follow (s.pc + (bytes.length + waits.length)) ∧
      t.answers = s.answers.drop bytes.length ∧ s.SameButRun t := by
  have hwaits : emitted (waits.map .delay) = [] := by simp [emitted]
  have hbytes : emitted (bytes.map .emit ++ waits.map .delay) = bytes := by
    rw [emitted_append, emitted_emits, hwaits, List.append_nil]
  have r := State.ranWhole (s := s) (as := bytes.map .emit ++ waits.map .delay) (by rwa [hbytes])
  have hevents := r.events
  have hnsent := r.nsent
  have hpc := r.pc
  have hinit := r.initState_of_ne_nil (fragmentOf_length hfrag).1
  have hanswers := r.answers
  rw [List.flatMap_append, flatMap_events_emits, ← List.append_assoc, List.flatMap_map] at hevents
  rw [hbytes] at hnsent hanswers
  rw [List.length_append, List.length_map, List.length_map] at hpc hinit
  refine ⟨_, exec_of_fragment hfrag, ?_, hnsent, hpc, hinit, hanswers, r.sameButRun⟩
  rw [hevents, List.map_eq_flatMap]
  rfl

/-- Settles O13: the payload's two bytes, then its wait. -/
theorem singlePayloadsLatchAndWait : Obligations.SinglePayloadsLatchAndWait := by
  unfold Obligations.SinglePayloadsLatchAndWait
  intro s i bytes hm hi hack
  obtain ⟨hlen, hfrag⟩ := fragmentOf_singlePayload hm hi
  have hrun := exec_of_acks (waits := [.reset]) hfrag (by rwa [hlen])
  rw [hlen] at hrun
  exact hrun

/-- Where INIT's script holds the command codes (R166 to R169). -/
theorem fragmentOf_eq_initScript_slice (c : Cfg) {i : Instr} {pos : Nat}
    (hi : (i, pos) ∈ [(Instr.functionSet, 13), (.displayControl, 17), (.clearDisplay, 21), (.entryMode, 25)]) :
    fragmentOf c i = some (((initScript c).drop pos).take 4) := by
  simp only [List.mem_cons, List.not_mem_nil, or_false, Prod.mk.injEq] at hi
  rcases hi with ⟨rfl, rfl⟩ | ⟨rfl, rfl⟩ | ⟨rfl, rfl⟩ | ⟨rfl, rfl⟩ <;> rfl

/-- Settles O11: the code's fragment is its four bytes, and INIT's script holds that fragment at the code's position. -/
theorem commandCodesSendTheirBytes : Obligations.CommandCodesSendTheirBytes := by
  unfold Obligations.CommandCodesSendTheirBytes
  intro s i bytes hm hi hack
  obtain ⟨hlen, hfrag⟩ := fragmentOf_commandCode hm hi
  constructor
  · have hrun := exec_of_acks (bytes := bytes) (waits := []) (by rw [hfrag, List.map_nil, List.append_nil]) (by rwa [hlen])
    rw [hlen, List.map_nil, List.append_nil] at hrun
    exact hrun
  · intro pos hpos
    exact Option.some.inj ((fragmentOf_eq_initScript_slice s.cfg hpos).symm.trans hfrag)

/-! ### The INIT script (R160, R163 to R169, R172) -/

/-- Settles O34: the script's fragments in order, each written out with the default control nibbles. -/
theorem initScriptWrittenOut : Obligations.InitScriptWrittenOut := by
  unfold Obligations.InitScriptWrittenOut
  intro c hm
  simp only [initScript, resetNibbleScript, fourbitNibbleScript, latchNibble_eq_emits, sendCode_eq_codeBytes,
    controlNibble_default hm]
  rfl

/-! ### INIT from the release of reset to its end (R113, R160, R161, R171, R232) -/

/-- Released, with no sample of `rst` to come, the block starts INIT and uses nothing up. -/
theorem step_of_release {s : State} (hrst : s.rst = true) (hin : s.rstIn = []) : step s = .next s.startInit := by
  have htaken : s.taken = s := by
    rw [State.taken_of_rst hrst, hin]
    show { s with rstIn := [] } = s
    rw [← hin]
  rw [step_of_fetch (State.fetch_of_release hrst (by rw [hin]; rfl)), htaken]
  rfl

theorem stepN_succ_of_release {s : State} (hrst : s.rst = true) (hin : s.rstIn = []) (n : Nat) :
    stepN (n + 1) s = stepN n s.startInit := by
  simp only [stepN, step_of_release hrst hin]

theorem State.startInit_noReset {s : State} (hin : s.rstIn = []) : s.startInit.noReset := ⟨rfl, hin⟩

/-- STATUS after INIT ended with OK (R23, R161). -/
theorem statusWord_ready : statusWord 0#8 .ready .ok false = 0x0008#16 := by decide

/-- STATUS after INIT ended with BUS_ERROR(n) (R23, R171). -/
theorem statusWord_failed {n : Nat} (hn : n < 256) :
    statusWord (BitVec.ofNat 8 n) .failed .busError false = (BitVec.ofNat 16 n <<< 8) ||| 0x0012#16 := by
  have hindex (e : Byte) : statusWord e .failed .busError false = (e.setWidth 16 <<< 8) ||| 0x0012#16 := by
    revert e
    decide
  rw [hindex, BitVec.setWidth_ofNat_of_le_of_lt (by decide) hn]

/-- Settles O35: one step starts INIT, one performs each of its 30 actions, one ends it. -/
theorem initRunsToReady : Obligations.InitRunsToReady := by
  unfold Obligations.InitRunsToReady
  intro s h hrst hin hg hack
  have r := State.ranWhole (s := s.startInit) (as := initScript s.cfg) hack
  have hrun : stepN 31 s.startInit = .next ((State.runActions (initScript s.cfg) s.startInit).finish .ok 0#8) :=
    stepN_of_acks (State.startInit_noReset hin) rfl hg (actionOk_initScript h.world.wf) hack
  have hready : (State.runActions (initScript s.cfg) s.startInit).initState.atEnd .ok = .ready := by
    rw [r.initState_of_ne_nil nofun, InitState.follow_atEnd]
    rfl
  refine ⟨_, (stepN_succ_of_release hrst hin 31).trans hrun, ?_, hready, rfl, r.events⟩
  simp only [State.status, State.finish_errIndex, State.finish_initState, State.finish_result, State.finish_busy, hready,
    statusWord_ready]

/-- Settles O36: INIT's operation is cut at the EMIT of the failed write. -/
theorem initAbortsAtTheFirstFailure : Obligations.InitAbortsAtTheFirstFailure := by
  unfold Obligations.InitAbortsAtTheFirstFailure
  intro s k h hrst hin hk hf
  obtain ⟨pre, b, post, hscript, rfl⟩ := exists_split_of_lt_emitted (as := initScript s.cfg) hk
  have r : State.RanCut pre b s.startInit (State.runActions (initScript s.cfg) s.startInit) :=
    hscript ▸ State.ranCut (s := s.startInit) hf b post
  have hcut : s.startInit.runOperation = State.runActions (initScript s.cfg) s.startInit :=
    State.runOperation_of_cut (s := s.startInit) r.busy
  have hfailed : (State.runActions (initScript s.cfg) s.startInit).initState = .failed := r.initState
  obtain ⟨n, -, hrun⟩ := stepN_runOperation (State.startInit_inv h) (State.startInit_noReset hin) rfl
  refine ⟨n + 1, _, pre, b, post, ?_, hscript, rfl, ?_, hfailed, r.busy, r.events⟩
  · rw [stepN_succ_of_release hrst hin, hrun, hcut]
  · rw [State.status, r.errIndex, hfailed, r.result, r.busy, State.startInit_nsent, BitVec.zero_add,
      statusWord_failed (by omega)]

/-! ### The least time a script takes (R170, R239, R241) -/

/-- The least time a script takes whose writes are all acknowledged. -/
def scriptTime (c : Cfg) (as : List Action) : Nat := minTime c (as.flatMap (Action.events c))

theorem operationTime_of_acks {s : State} {as : List Action} (hack : s.acks (emitted as).length) :
    operationTime s.cfg s (State.runActions as s) = scriptTime s.cfg as := by
  rw [operationTime, (State.ranWhole hack).events, List.drop_left, scriptTime]

theorem scriptTime_nil (c : Cfg) : scriptTime c [] = 0 := rfl

theorem scriptTime_emit (c : Cfg) (b : Byte) (as : List Action) :
    scriptTime c (.emit b :: as) = c.tSettle + scriptTime c as := by
  simp [scriptTime, minTime, Action.events, writeEvents, Event.atLeast, DelayId.bound]

theorem scriptTime_delay (c : Cfg) (d : DelayId) (as : List Action) :
    scriptTime c (.delay d :: as) = d.bound c + scriptTime c as := by
  simp [scriptTime, minTime, Action.events, Event.atLeast]

theorem scriptTime_emits (c : Cfg) (bs : List Byte) : scriptTime c (bs.map .emit) = bs.length * c.tSettle := by
  induction bs with
  | nil => simp [scriptTime_nil]
  | cons b bs ih => rw [List.map_cons, scriptTime_emit, ih, List.length_cons, Nat.succ_mul, Nat.add_comm]

theorem scriptTime_initScript (c : Cfg) :
    scriptTime c (initScript c) = c.tPowerOn + 4 * c.tReset + 24 * c.tSettle + c.tFinal := by
  simp only [initScript, resetNibbleScript, fourbitNibbleScript, sendCode, latchNibble, List.cons_append, List.nil_append,
    scriptTime_emit, scriptTime_delay, scriptTime_nil, DelayId.bound]
  omega

theorem exists_bytes_of_emits {as : List Action} (h : ∀ a ∈ as, ∃ b, a = .emit b) : ∃ bs : List Byte, as = bs.map .emit := by
  induction as with
  | nil => exact ⟨[], rfl⟩
  | cons a as ih =>
    obtain ⟨⟨b, rfl⟩, has⟩ := List.forall_mem_cons.1 h
    obtain ⟨bs, rfl⟩ := ih has
    exact ⟨b :: bs, rfl⟩

/-- Settles O38: an acknowledged script takes its own time, that of its waits and settle delays. -/
theorem operationsTakeAtLeast : Obligations.OperationsTakeAtLeast := by
  unfold Obligations.OperationsTakeAtLeast
  intro s
  constructor
  · intro hack
    rw [operationTime_of_acks (as := initScript s.cfg) hack, scriptTime_initScript]
  · intro as hemits hack
    obtain ⟨bs, rfl⟩ := exists_bytes_of_emits hemits
    rw [List.length_map] at hack ⊢
    rw [operationTime_of_acks (by rwa [emitted_emits]), scriptTime_emits]

end Sys2Proof.Machine
end

section
/-! PROOFS. The family of 44_render: RENDER's acceptance, and the length of its script. -/

namespace Sys2Proof.Machine

/-! ### RENDER's script in closed form (R181, R183, R184) -/

theorem execRender_of_le {s : State} {n : Byte} (h : n.toNat ≤ s.cfg.textMax) :
    exec (.render n) s = .next (s.acceptRender (reqWord 0x5#4 n) n.toNat) := if_pos h

/-- The renderer's loop over a line of 17 bytes or more: row one, the row-two command, byte 16 unless it is a space, and the rest. -/
theorem renderLoop_of_pastRowOne (c : Cfg) {vs : List Byte} (h : 17 ≤ vs.length) :
    (renderLoop c 0 vs).1 =
      (vs.take 16).flatMap (sendChar c) ++ sendCode c 0xC0#8 false ++
        (if vs[16]? = some 0x20#8 then [] else ((vs.drop 16).take 1).flatMap (sendChar c)) ++
        (vs.drop 17).flatMap (sendChar c) := by
  obtain ⟨us, w, ws, rfl, hus⟩ := exists_split_at_rowTwo h
  have htake : (us ++ w :: ws).take 16 = us := List.take_left' hus
  have hdrop : (us ++ w :: ws).drop 16 = w :: ws := List.drop_left' hus
  have hget : (us ++ w :: ws)[16]? = some w := by simp [hus]
  have hrest : (us ++ w :: ws).drop 17 = ws := by rw [← List.drop_drop (i := 1) (j := 16), hdrop]; rfl
  rw [renderLoop_append_cons c us ws w (by omega), htake, hdrop, hget, hrest]
  by_cases hw : w = 0x20#8 <;> simp [hw]

/-- Settles O18: the loop's closed form on each side of 16 bytes, and COL as the count of the bytes. -/
theorem renderIsAccepted : Obligations.RenderIsAccepted := by
  unfold Obligations.RenderIsAccepted
  intro s n hb hn
  dsimp only
  have hlen := length_textBytes s.text s.draws n.toNat
  rw [execRender_of_le hn, State.acceptRender_of_ready hb, renderLoop_col, hlen, Nat.zero_add]
  split
  case isTrue h =>
    rw [renderLoop_of_le s.cfg (by omega)]
    rfl
  case isFalse h =>
    rw [renderLoop_of_pastRowOne s.cfg (by omega)]
    rfl

/-! ### How long the script is (R185) -/

theorem length_line (c : Cfg) (vs : List Byte) : (vs.flatMap (sendChar c)).length = 4 * vs.length := by
  simp [List.length_flatMap, Nat.mul_comm]

/-- Four actions for each source byte and for the row-two command, less the four of a skipped byte. -/
theorem length_renderLoop (c : Cfg) (vs : List Byte) :
    (renderLoop c 0 vs).1.length + 4 * (if vs[16]? = some 0x20#8 then 1 else 0) =
      4 * (vs.length + if 17 ≤ vs.length then 1 else 0) := by
  by_cases h : 17 ≤ vs.length
  · rw [renderLoop_of_pastRowOne c h, if_pos h]
    simp only [List.length_append, length_line, length_sendCode, List.length_take, List.length_drop]
    split
    case isTrue => rw [List.length_nil]; omega
    case isFalse => rw [length_line, List.length_take, List.length_drop]; omega
  · rw [renderLoop_of_le c (by omega), length_line, List.getElem?_eq_none (by omega), if_neg h]
    rfl

/-- Every action of the loop's script is an EMIT. -/
theorem length_emitted_renderLoop (c : Cfg) (vs : List Byte) :
    (emitted (renderLoop c 0 vs).1).length = (renderLoop c 0 vs).1.length := by
  by_cases h : 17 ≤ vs.length
  · obtain ⟨us, w, ws, rfl, hus⟩ := exists_split_at_rowTwo h
    rw [renderLoop_append_cons c us ws w (by omega)]
    simp only [emitted_append, List.length_append, length_emitted_line, length_line]
    rfl
  · rw [renderLoop_of_le c (by omega), length_line, length_emitted_line]

/-- Settles O20: the accepted script is the loop's over the `n` source bytes. -/
theorem renderScriptLength : Obligations.RenderScriptLength := by
  unfold Obligations.RenderScriptLength
  intro s t n hb hn ht
  rw [execRender_of_le hn, State.acceptRender_of_ready hb] at ht
  obtain rfl := Host.Outcome.next.inj ht
  dsimp only
  have hlen := length_renderLoop s.cfg (textBytes s.text s.draws n.toNat)
  rw [length_textBytes] at hlen
  have hrowTwo : (if 17 ≤ n.toNat then 1 else 0) ≤ 1 := by split <;> decide
  refine ⟨hlen, length_emitted_renderLoop s.cfg _, by omega, ?_⟩
  rintro rfl
  rfl

end Sys2Proof.Machine
end

section
/-! PROOFS. The family of 60_exceptions: an illegal request word ends at once with REFUSED. -/

namespace Sys2Proof.Machine

theorem State.fetchHost_of_illegal {s : State} {w : ReqWord} {rest : List HostIn} (hh : s.hostIn = .request w :: rest)
    {r : Reject} (h : decodeReq s.cfg w = .error r) : s.fetchHost = .refuse w := by
  simp only [State.fetchHost, hh, h]

/-- A word the decoder rejects, offered to an idle block, is refused in the step that takes it (R95, R116). -/
theorem step_of_illegal {s : State} (hrel : s.released) (hb : s.busy = false) {w : ReqWord} {rest : List HostIn}
    (hh : s.hostIn = .request w :: rest) {r : Reject} (h : decodeReq s.cfg w = .error r) :
    step s = .next { s with
      rstIn := s.rstIn.tail, hostIn := rest
      req := w, busy := false, result := .refused, errIndex := 0#8 } := by
  have hfetch : s.fetch = .refuse w := (State.fetch_of_idle hrel hb).trans (State.fetchHost_of_illegal hh h)
  have hstep : step s = .next (s.taken.refuse w) := by simp only [step, hfetch]
  rw [hstep, State.refuse_of_ready (s := s.taken) hb, State.taken_of_idle hrel hb, hh]
  rfl

/-- Settles O22: R95's illegal words are those the decoder rejects, and a rejected word is refused. -/
theorem illegalWordsAreRefused : Obligations.IllegalWordsAreRefused := by
  unfold Obligations.IllegalWordsAreRefused
  intro s op hi lo rest hrel hb hhost hillegal
  obtain ⟨r, hdecode⟩ := (decodeReq_error_iff s.cfg op hi lo).2 hillegal
  obtain ⟨-, hresult, -⟩ := statusWord_fields 0#8 s.initState .refused false
  exact ⟨_, step_of_illegal hrel hb hhost hdecode, hresult, rfl⟩

end Sys2Proof.Machine
end

section
/-! PROOFS. The family of 70_reset_and_hazards: the release of `rst` starts INIT. -/

namespace Sys2Proof.Machine

theorem exec_init (s : State) : exec .init s = .next s.startInit := rfl

/-- Settles O33: that the release runs INIT is the last clause of O24; what INIT's start writes is `State.startInit`. -/
theorem initStartsAtReset : Obligations.InitStartsAtReset := by
  unfold Obligations.InitStartsAtReset
  obtain ⟨-, -, -, -, hrelease⟩ := stepRunsTheDecodedInstruction
  refine ⟨hrelease, fun s => ?_⟩
  rw [exec_init, State.startInit]

end Sys2Proof.Machine
end
